-- ==== Sys2Proof/Word.lean ====
section
/-! DEFINITION. The machine's values (spec 00_scope.md R6 to R8): bytes, 32-bit packed words, 64-bit lanes, and the
two fixed-size groups the hash states are made of (five and eight like things). -/

namespace Sys2Proof

/-- A byte of a byte string (R9: `u8`). -/
abbrev Byte := BitVec 8

/-- A packed word, and a state word of SHA-1 and SHA-256 (R6 `WORD`: 32 bits). -/
abbrev Word := BitVec 32

/-- A lane of the SHA-3 state, and a state word of SHA-512 (R6 `LANE`: 64 bits).  R140: the (high, low) pair the
source speaks of is a representation of this value, and a model may use the 64-bit value itself. -/
abbrev DWord := BitVec 64

/-- Five like things: the words `H[0..4]` of SHA-1 (R32), or one index of the 5×5 lane matrix (R260). -/
structure Five (α : Type) where
  e0 : α
  e1 : α
  e2 : α
  e3 : α
  e4 : α
deriving DecidableEq, Repr

/-- Eight like things: the words `H[0..7]` of the SHA-2 families (R32). -/
structure Eight (α : Type) where
  e0 : α
  e1 : α
  e2 : α
  e3 : α
  e4 : α
  e5 : α
  e6 : α
  e7 : α
deriving DecidableEq, Repr

/-- Element `i` of five, for `i < 5`. -/
def Five.get {α : Type} (v : Five α) : Nat → α
  | 0 => v.e0
  | 1 => v.e1
  | 2 => v.e2
  | 3 => v.e3
  | _ => v.e4

/-- The five values of a function at 0, 1, 2, 3, 4. -/
def Five.ofFn {α : Type} (f : Nat → α) : Five α := ⟨f 0, f 1, f 2, f 3, f 4⟩

/-- The elements in order of index. -/
def Five.toList {α : Type} (v : Five α) : List α := [v.e0, v.e1, v.e2, v.e3, v.e4]

/-- Element `i` of eight, for `i < 8`. -/
def Eight.get {α : Type} (v : Eight α) : Nat → α
  | 0 => v.e0
  | 1 => v.e1
  | 2 => v.e2
  | 3 => v.e3
  | 4 => v.e4
  | 5 => v.e5
  | 6 => v.e6
  | _ => v.e7

/-- The eight values of a function at 0 to 7. -/
def Eight.ofFn {α : Type} (f : Nat → α) : Eight α := ⟨f 0, f 1, f 2, f 3, f 4, f 5, f 6, f 7⟩

/-- The elements in order of index. -/
def Eight.toList {α : Type} (v : Eight α) : List α := [v.e0, v.e1, v.e2, v.e3, v.e4, v.e5, v.e6, v.e7]

end Sys2Proof
end

