-- ==== Sys2Proof/Config.lean ====
section
/-! DEFINITION. What is fixed for one engine instance (spec 00_scope.md R6): the two parameters a model takes as
arguments, their legal range and their defaults, and the two values the spec leaves without meaning. -/

namespace Sys2Proof.Config

/-- The implementation parameters of R6.  "A model must take `MAX_TOTAL_BITS` and `MAX_OUTPUT_BITS` as arguments":
they are a field of the machine's state that no step changes (assumption 2), so every statement about a state holds
for every value of the two. -/
structure Params where
  /-- `MAX_TOTAL_BITS`: the largest number of bits absorbed, buffered or given as one string (D12). -/
  maxTotalBits : Nat
  /-- `MAX_OUTPUT_BITS`: the largest output length of a variable-length variant (D13). -/
  maxOutputBits : Nat
deriving DecidableEq, Repr

/-- The defaults of R6, D12 and D13: both 2^53 − 1. -/
def Params.default : Params := { maxTotalBits := 2 ^ 53 - 1, maxOutputBits := 2 ^ 53 - 1 }

/-- The range R6 gives the parameters: "with 8 ≤ `MAX_TOTAL_BITS` ≤ 2^64 − 4096 and 0 ≤ `MAX_OUTPUT_BITS` < 2^64". -/
def Params.legal (p : Params) : Bool :=
  decide (8 ≤ p.maxTotalBits) && decide (p.maxTotalBits ≤ 2 ^ 64 - 4096) && decide (p.maxOutputBits < 2 ^ 64)

/-- The identity string of R2 (D1).  No command reads it. -/
def identity : String := "jsSHA-CORE/sub000-v7"

/-- The largest repeated-hashing count, the width of `CTX.NUM_ROUNDS` (R6, D15). -/
def maxNumRounds : Nat := 2 ^ 32 - 1

/-- What the finalize of a SHA-3 state would read as its delimiter where `CTX.DELIM` holds no value.  R28 gives
`CTX.DELIM` a value in every F_SHA3 context, so no state that meets the machine's invariant reads it; it has no body, so
nothing can be proved of it (assumption 6). -/
opaque absentDelim : Byte

/-- What the length words of a ByteString result of 2^64 bits or more hold.  R77 has no Len64 for such a length and R6 says
none arises, but a BYTE_PAD under legal parameters reaches it.  A function of the result's bytes without a body (R193), so
nothing can be proved of it (DESIGN CHOICE, assumption 20). -/
opaque overlongLen : List Byte → DWord

end Sys2Proof.Config
end

