-- ==== Sys2Proof/Syntax.lean ====
section
/-! DEFINITION. The commands of the engine, one constructor per row of spec/opcode_table.json (spec 30_encoding.md
R92), with the fields of the command word each one uses (R90) as arguments.  Operand words are not part of a
command: they arrive on `DIN` (20_memory.md R77). -/

namespace Sys2Proof

/-- The fifteen variants of R2 and R94, in the order of their codes 0 to 14. -/
inductive Variant
  | sha1
  | sha224
  | sha256
  | sha384
  | sha512
  | sha3x224
  | sha3x256
  | sha3x384
  | sha3x512
  | shake128
  | shake256
  | cshake128
  | cshake256
  | kmac128
  | kmac256
deriving DecidableEq, Repr

/-- The families of R11. -/
inductive Family
  | sha1
  | sha256
  | sha512
  | sha3
deriving DecidableEq, Repr

/-- The byte order of packed words: `BE` (R73) or `LE` (R74). -/
inductive ByteOrder
  | be
  | le
deriving DecidableEq, Repr

/-- The 46 commands (R92).  `p`, `f`, `c` are the flags `P`, `F`, `S` of the command word; `n` is its field `N`; `d`
is `IMM8`.  INIT's variant is `none` for the code 15, "an unrecognized name" (R94). -/
inductive Instr
  -- context commands
  | init (v : Option Variant) (p f c : Bool)
  | update
  | setHmacKey
  | getHash (p : Bool)
  | getHmac
  | getMac (p : Bool)
  -- block operations of the test port
  | sha1Compress
  | sha1Finalize
  | sha256Compress
  | sha256Finalize (v : Variant)
  | sha512Compress
  | sha512Finalize (v : Variant)
  | keccakF
  | sha3Absorb (v : Variant)
  | sha3Finalize (v : Variant) (d : Byte)
  | leftEncode
  | rightEncode
  | encodeString
  | bytePad
  -- 32-bit word primitives
  | rotl32 (n : BitVec 6)
  | rotr32 (n : BitVec 6)
  | shr32 (n : BitVec 6)
  | ch32
  | parity32
  | maj32
  | sigma0x256
  | sigma1x256
  | gamma0x256
  | gamma1x256
  | add32x2
  | add32x4
  | add32x5
  -- 64-bit word primitives
  | rotl64 (n : BitVec 6)
  | rotr64 (n : BitVec 6)
  | shr64 (n : BitVec 6)
  | xor64x2
  | xor64x5
  | add64x2
  | add64x4
  | add64x5
  | ch64
  | maj64
  | sigma0x512
  | sigma1x512
  | gamma0x512
  | gamma1x512
deriving DecidableEq, Repr

/-- The two classes of command (R12): context commands, opcodes 0x01 to 0x06, and test-port operations, 0x10 to 0x3D. -/
inductive CommandClass
  | context
  | testPort
deriving DecidableEq, Repr

end Sys2Proof
end

