-- ==== Sys2Proof/Machine/State.lean ====
section
/-! DEFINITION. Everything one engine instance holds (spec 10_state.md R20, 20_memory.md R70): the context registers,
`STATUS`, the three word channels, and the instance's parameters; and the state after reset (R53, R330, R331). -/

namespace Sys2Proof.Machine

/-- The 5×5 matrix of lanes `A[x][y]` (R32, R260): the outer index is x, the inner one y. -/
abbrev Lanes := Five (Five DWord)

/-- `CTX.H`, the HashState, shaped by family (R32). -/
inductive HashState
  /-- F_SHA1: five 32-bit words. -/
  | sha1 (h : Five Word)
  /-- F_SHA256: eight 32-bit words. -/
  | sha256 (h : Eight Word)
  /-- F_SHA512: eight 64-bit words. -/
  | sha512 (h : Eight DWord)
  /-- F_SHA3: the lane matrix. -/
  | sha3 (a : Lanes)
deriving DecidableEq, Repr

/-- The registers INIT writes as one: the document's StreamingContext, "created at construction" (R20, R24 to R35). -/
structure Context where
  /-- `CTX.VARIANT` (R24). -/
  variant : Variant
  /-- `CTX.NUM_ROUNDS` (R25), 32 bits. -/
  numRounds : Word
  /-- `CTX.UPDATE_CALLED` (R26). -/
  updateCalled : Bool
  /-- `CTX.MAC_KEY_SET` (R27). -/
  macKeySet : Bool
  /-- `CTX.DELIM` (R28): "for the other families it has no value". -/
  delim : Option Byte
  /-- `CTX.H` (R32). -/
  h : HashState
  /-- `CTX.REM` (R33), held as bytes (D28); `CTX.REM_BITS` is 8 times its length. -/
  rem : List Byte
  /-- `CTX.PROCESSED_BITS` (R34), a natural below 2^64. -/
  processedBits : Nat
  /-- `CTX.IPAD` (R35): no value until an HMAC key is set up. -/
  ipad : Option (List Word)
  /-- `CTX.OPAD` (R35): no value until an HMAC key is set up. -/
  opad : Option (List Word)
deriving DecidableEq, Repr

/-- One engine instance.  The channels are queues, oldest word first: the host writes `cmd` and `din` and reads `dout`;
the engine takes from `cmd` and `din` and writes `dout` (R70, R80). -/
structure State where
  /-- `MAX_TOTAL_BITS` and `MAX_OUTPUT_BITS`, fixed for the instance (R6). -/
  params : Config.Params
  /-- `CTX.BOUND` (R22). -/
  bound : Bool
  /-- `CTX.POISONED` (R23). -/
  poisoned : Bool
  /-- `STATUS` (R29), 8 bits. -/
  status : BitVec 8
  /-- The registers of R24 to R35.  After reset they have "no value", which R53 and R331 ask a model to give as `none`,
  "never zero"; from the first INIT that completes on, they hold the values the commands write. -/
  ctx : Option Context
  /-- Command words not yet taken from `CMD`. -/
  cmd : List Word
  /-- Operand words not yet taken from `DIN`. -/
  din : List Word
  /-- Result words the host has not read from `DOUT`. -/
  dout : List Word
deriving DecidableEq, Repr

/-- Faults: there is none.  The engine takes no trap and has no halt (R312, R340); every error is a code in `STATUS`
after which the engine is ready for the next command (R301, R308). -/
inductive Fault
deriving DecidableEq, Repr

/-- Refusals. -/
inductive Refusal
  /-- A command whose meaning the model does not give.  No arm of the dispatch raises it (safe: it would stop a run). -/
  | notModelled (mnemonic : String)
deriving DecidableEq, Repr

/-- What a command answers. -/
abbrev Answer := Host.Outcome State Fault Refusal

/-- R53, R330, R331: after reset `CTX.BOUND`, `CTX.POISONED` and `STATUS` are 0, every other context register has no
value, and the channels are empty.  The parameters stand at their defaults (R6; assumption 2). -/
def State.reset : State where
  params := Config.Params.default
  bound := false
  poisoned := false
  status := 0
  ctx := none
  cmd := []
  din := []
  dout := []

end Sys2Proof.Machine
end

