-- ==== Sys2Proof/Machine/Rom.lean ====
section
/-! DEFINITION. The read-only tables every instance shares (spec 10_state.md R50): the variant descriptors (R30, R31), the
initial hash values (R38 to R43), the round constants (R44 to R47), the rho offsets (R48) and the HMAC pads (R49). No
command writes any of them. -/

namespace Sys2Proof.Machine

/-! ### The variant descriptor ROM (R30) -/

/-- `FAMILY` (R30). -/
def family : Variant → Family
  | .sha1 => .sha1
  | .sha224 | .sha256 => .sha256
  | .sha384 | .sha512 => .sha512
  | .sha3x224 | .sha3x256 | .sha3x384 | .sha3x512 | .shake128 | .shake256
  | .cshake128 | .cshake256 | .kmac128 | .kmac256 => .sha3

/-- `BLOCK_BITS` (R30); for F_SHA3 it is the rate (R31). -/
def blockBits : Variant → Nat
  | .sha1 => 512
  | .sha224 => 512
  | .sha256 => 512
  | .sha384 => 1024
  | .sha512 => 1024
  | .sha3x224 => 1152
  | .sha3x256 => 1088
  | .sha3x384 => 832
  | .sha3x512 => 576
  | .shake128 => 1344
  | .shake256 => 1088
  | .cshake128 => 1344
  | .cshake256 => 1088
  | .kmac128 => 1344
  | .kmac256 => 1088

/-- The block in bytes, `B` of R177, R178 and R182. -/
def blockBytes (v : Variant) : Nat := blockBits v / 8

/-- `OUT_BITS` (R30); none where it is "variable". -/
def outBits : Variant → Option Nat
  | .sha1 => some 160
  | .sha224 => some 224
  | .sha256 => some 256
  | .sha384 => some 384
  | .sha512 => some 512
  | .sha3x224 => some 224
  | .sha3x256 => some 256
  | .sha3x384 => some 384
  | .sha3x512 => some 512
  | .shake128 | .shake256 | .cshake128 | .cshake256 | .kmac128 | .kmac256 => none

/-- `ORDER` (R30, R75). -/
def orderOf (v : Variant) : ByteOrder :=
  match family v with
  | .sha1 | .sha256 | .sha512 => .be
  | .sha3 => .le

/-- `HMAC_OK` (R30, R175, R176). -/
def hmacOk : Variant → Bool
  | .sha1 | .sha224 | .sha256 | .sha384 | .sha512 | .sha3x224 | .sha3x256 | .sha3x384 | .sha3x512 => true
  | .shake128 | .shake256 | .cshake128 | .cshake256 | .kmac128 | .kmac256 => false

/-- `VARLEN` (R30). -/
def varLen : Variant → Bool
  | .sha1 | .sha224 | .sha256 | .sha384 | .sha512 | .sha3x224 | .sha3x256 | .sha3x384 | .sha3x512 => false
  | .shake128 | .shake256 | .cshake128 | .cshake256 | .kmac128 | .kmac256 => true

/-- The delimiter INIT sets before the cSHAKE strings are looked at (R28, R30, R180); none outside F_SHA3. -/
def initDelim : Variant → Option Byte
  | .sha1 | .sha224 | .sha256 | .sha384 | .sha512 => none
  | .sha3x224 | .sha3x256 | .sha3x384 | .sha3x512 => some 0x06
  | .shake128 | .shake256 | .cshake128 | .cshake256 => some 0x1F
  | .kmac128 | .kmac256 => some 0x04

/-- CSHAKE128 and CSHAKE256. -/
def isCshake (v : Variant) : Bool := decide (v = .cshake128 ∨ v = .cshake256)

/-- KMAC128 and KMAC256. -/
def isKmac (v : Variant) : Bool := decide (v = .kmac128 ∨ v = .kmac256)

/-- SHAKE128, SHAKE256, CSHAKE128 and CSHAKE256: the variants with no MAC at all (R175). -/
def hasNoMac (v : Variant) : Bool := decide (v = .shake128 ∨ v = .shake256) || isCshake v

/-! ### Initial hash values (R38 to R43) -/

/-- `IV_SHA1` (R38). -/
def ivSha1 : Five Word :=
  ⟨0x67452301, 0xefcdab89, 0x98badcfe, 0x10325476,
   0xc3d2e1f0⟩

/-- `IV_SHA224` (R39). -/
def ivSha224 : Eight Word :=
  ⟨0xc1059ed8, 0x367cd507, 0x3070dd17, 0xf70e5939,
   0xffc00b31, 0x68581511, 0x64f98fa7, 0xbefa4fa4⟩

/-- `IV_SHA256` (R40). -/
def ivSha256 : Eight Word :=
  ⟨0x6a09e667, 0xbb67ae85, 0x3c6ef372, 0xa54ff53a,
   0x510e527f, 0x9b05688c, 0x1f83d9ab, 0x5be0cd19⟩

/-- `IV_SHA384` (R41). -/
def ivSha384 : Eight DWord :=
  ⟨0xcbbb9d5dc1059ed8, 0x629a292a367cd507, 0x9159015a3070dd17, 0x152fecd8f70e5939,
   0x67332667ffc00b31, 0x8eb44a8768581511, 0xdb0c2e0d64f98fa7, 0x47b5481dbefa4fa4⟩

/-- `IV_SHA512` (R42). -/
def ivSha512 : Eight DWord :=
  ⟨0x6a09e667f3bcc908, 0xbb67ae8584caa73b, 0x3c6ef372fe94f82b, 0xa54ff53a5f1d36f1,
   0x510e527fade682d1, 0x9b05688c2b3e6c1f, 0x1f83d9abfb41bd6b, 0x5be0cd19137e2179⟩

/-- The all-zero lane matrix (R43). -/
def zeroLanes : Lanes := Five.ofFn fun _ => Five.ofFn fun _ => 0

/-! ### Round constants (R44 to R48) -/

/-- `K1`, one constant per 20 rounds of SHA-1 (R44). -/
def k1 (t : Nat) : Word :=
  if t < 20 then 0x5a827999 else if t < 40 then 0x6ed9eba1 else if t < 60 then 0x8f1bbcdc else 0xca62c1d6

/-- The rows of R45's table: row `t` holds `K256[t]` to `K256[t + 7]`. -/
def k256Rows : List (Eight Word) :=
  [⟨0x428a2f98, 0x71374491, 0xb5c0fbcf, 0xe9b5dba5, 0x3956c25b, 0x59f111f1, 0x923f82a4, 0xab1c5ed5⟩,
   ⟨0xd807aa98, 0x12835b01, 0x243185be, 0x550c7dc3, 0x72be5d74, 0x80deb1fe, 0x9bdc06a7, 0xc19bf174⟩,
   ⟨0xe49b69c1, 0xefbe4786, 0x0fc19dc6, 0x240ca1cc, 0x2de92c6f, 0x4a7484aa, 0x5cb0a9dc, 0x76f988da⟩,
   ⟨0x983e5152, 0xa831c66d, 0xb00327c8, 0xbf597fc7, 0xc6e00bf3, 0xd5a79147, 0x06ca6351, 0x14292967⟩,
   ⟨0x27b70a85, 0x2e1b2138, 0x4d2c6dfc, 0x53380d13, 0x650a7354, 0x766a0abb, 0x81c2c92e, 0x92722c85⟩,
   ⟨0xa2bfe8a1, 0xa81a664b, 0xc24b8b70, 0xc76c51a3, 0xd192e819, 0xd6990624, 0xf40e3585, 0x106aa070⟩,
   ⟨0x19a4c116, 0x1e376c08, 0x2748774c, 0x34b0bcb5, 0x391c0cb3, 0x4ed8aa4a, 0x5b9cca4f, 0x682e6ff3⟩,
   ⟨0x748f82ee, 0x78a5636f, 0x84c87814, 0x8cc70208, 0x90befffa, 0xa4506ceb, 0xbef9a3f7, 0xc67178f2⟩]

/-- `K256[0..63]` (R45). -/
def k256 : List Word := k256Rows.flatMap Eight.toList

/-- The rows of R46's table, two of its rows to an element. -/
def k512Rows : List (Eight DWord) :=
  [⟨0x428a2f98d728ae22, 0x7137449123ef65cd, 0xb5c0fbcfec4d3b2f, 0xe9b5dba58189dbbc,
    0x3956c25bf348b538, 0x59f111f1b605d019, 0x923f82a4af194f9b, 0xab1c5ed5da6d8118⟩,
   ⟨0xd807aa98a3030242, 0x12835b0145706fbe, 0x243185be4ee4b28c, 0x550c7dc3d5ffb4e2,
    0x72be5d74f27b896f, 0x80deb1fe3b1696b1, 0x9bdc06a725c71235, 0xc19bf174cf692694⟩,
   ⟨0xe49b69c19ef14ad2, 0xefbe4786384f25e3, 0x0fc19dc68b8cd5b5, 0x240ca1cc77ac9c65,
    0x2de92c6f592b0275, 0x4a7484aa6ea6e483, 0x5cb0a9dcbd41fbd4, 0x76f988da831153b5⟩,
   ⟨0x983e5152ee66dfab, 0xa831c66d2db43210, 0xb00327c898fb213f, 0xbf597fc7beef0ee4,
    0xc6e00bf33da88fc2, 0xd5a79147930aa725, 0x06ca6351e003826f, 0x142929670a0e6e70⟩,
   ⟨0x27b70a8546d22ffc, 0x2e1b21385c26c926, 0x4d2c6dfc5ac42aed, 0x53380d139d95b3df,
    0x650a73548baf63de, 0x766a0abb3c77b2a8, 0x81c2c92e47edaee6, 0x92722c851482353b⟩,
   ⟨0xa2bfe8a14cf10364, 0xa81a664bbc423001, 0xc24b8b70d0f89791, 0xc76c51a30654be30,
    0xd192e819d6ef5218, 0xd69906245565a910, 0xf40e35855771202a, 0x106aa07032bbd1b8⟩,
   ⟨0x19a4c116b8d2d0c8, 0x1e376c085141ab53, 0x2748774cdf8eeb99, 0x34b0bcb5e19b48a8,
    0x391c0cb3c5c95a63, 0x4ed8aa4ae3418acb, 0x5b9cca4f7763e373, 0x682e6ff3d6b2b8a3⟩,
   ⟨0x748f82ee5defb2fc, 0x78a5636f43172f60, 0x84c87814a1f0ab72, 0x8cc702081a6439ec,
    0x90befffa23631e28, 0xa4506cebde82bde9, 0xbef9a3f7b2c67915, 0xc67178f2e372532b⟩,
   ⟨0xca273eceea26619c, 0xd186b8c721c0c207, 0xeada7dd6cde0eb1e, 0xf57d4f7fee6ed178,
    0x06f067aa72176fba, 0x0a637dc5a2c898a6, 0x113f9804bef90dae, 0x1b710b35131c471b⟩,
   ⟨0x28db77f523047d84, 0x32caab7b40c72493, 0x3c9ebe0a15c9bebc, 0x431d67c49c100d4c,
    0x4cc5d4becb3e42b6, 0x597f299cfc657e2a, 0x5fcb6fab3ad6faec, 0x6c44198c4a475817⟩]

/-- `K512[0..79]` (R46). -/
def k512 : List DWord := k512Rows.flatMap Eight.toList

/-- The three columns of R47's table, eight rounds each. -/
def keccakRCColumns : List (Eight DWord) :=
  [⟨0x0000000000000001, 0x0000000000008082, 0x800000000000808a, 0x8000000080008000,
    0x000000000000808b, 0x0000000080000001, 0x8000000080008081, 0x8000000000008009⟩,
   ⟨0x000000000000008a, 0x0000000000000088, 0x0000000080008009, 0x000000008000000a,
    0x000000008000808b, 0x800000000000008b, 0x8000000000008089, 0x8000000000008003⟩,
   ⟨0x8000000000008002, 0x8000000000000080, 0x000000000000800a, 0x800000008000000a,
    0x8000000080008081, 0x8000000000008080, 0x0000000080000001, 0x8000000080008008⟩]

/-- `RC[0..23]` (R47). -/
def keccakRC : List DWord := keccakRCColumns.flatMap Eight.toList

/-- `ROT[x][y]` (R48): the outer index is x, the inner one y. -/
def keccakRot : Five (Five Nat) :=
  ⟨⟨0, 36, 3, 41, 18⟩,
   ⟨1, 44, 10, 45, 2⟩,
   ⟨62, 6, 43, 15, 61⟩,
   ⟨28, 55, 25, 21, 56⟩,
   ⟨27, 20, 39, 8, 14⟩⟩

/-! ### HMAC pads (R49) -/

/-- The byte of the inner pad; `IPAD_WORD` is four of them. -/
def ipadByte : Byte := 0x36

/-- The byte of the outer pad; `OPAD_WORD` is four of them. -/
def opadByte : Byte := 0x5c

end Sys2Proof.Machine
end

