-- ==== Sys2Proof/WellFormed.lean ====
section
/-! DEFINITION. Which commands exist: the admitted values of the fields `VAR`, `N` and `IMM8` (spec 30_encoding.md R95,
R96, R97) and the rule for INIT's flags `F` and `S` (R93 (e)). -/

namespace Sys2Proof

/-- The variants whose code stands in 5 to 14: the ten of F_SHA3 (R95). -/
def Variant.isSha3 : Variant → Bool
  | .sha1 | .sha224 | .sha256 | .sha384 | .sha512 => false
  | .sha3x224 | .sha3x256 | .sha3x384 | .sha3x512 | .shake128 | .shake256
  | .cshake128 | .cshake256 | .kmac128 | .kmac256 => true

/-- The variants that take a function name and a customization string: codes 11 to 14 (R93 (e)). -/
def Variant.takesStrings : Variant → Bool
  | .cshake128 | .cshake256 | .kmac128 | .kmac256 => true
  | .sha1 | .sha224 | .sha256 | .sha384 | .sha512 | .sha3x224 | .sha3x256 | .sha3x384 | .sha3x512
  | .shake128 | .shake256 => false

/-- The admitted amounts of R96, one list per opcode that uses `N`. -/
def rotl32Amounts : List (BitVec 6) := [1, 5, 30]

/-- ROTR32 (R96). -/
def rotr32Amounts : List (BitVec 6) := [2, 6, 7, 11, 13, 17, 18, 19, 22, 25]

/-- SHR32 (R96). -/
def shr32Amounts : List (BitVec 6) := [3, 10]

/-- ROTL64 (R96): 1 for theta and the offsets of rho. -/
def rotl64Amounts : List (BitVec 6) :=
  [0, 1, 2, 3, 6, 8, 10, 14, 15, 18, 20, 21, 25, 27, 28, 36, 39, 41, 43, 44, 45, 55, 56, 61, 62]

/-- ROTR64 (R96). -/
def rotr64Amounts : List (BitVec 6) := [1, 8, 14, 18, 19, 28, 34, 39, 41, 61]

/-- SHR64 (R96). -/
def shr64Amounts : List (BitVec 6) := [6, 7]

/-- The delimiters SHA3_FINALIZE admits (R97). -/
def sha3Delimiters : List Byte := [0x06, 0x1F, 0x04]

/-- A command some legal command word stands for (R93, R95, R96, R97). -/
def Instr.wellFormed : Instr → Bool
  | .init none _ f c => !f && !c
  | .init (some v) _ f c => v.takesStrings || (!f && !c)
  | .sha256Finalize v => decide (v = .sha224 ∨ v = .sha256)
  | .sha512Finalize v => decide (v = .sha384 ∨ v = .sha512)
  | .sha3Absorb v => v.isSha3
  | .sha3Finalize v d => v.isSha3 && sha3Delimiters.contains d
  | .rotl32 n => rotl32Amounts.contains n
  | .rotr32 n => rotr32Amounts.contains n
  | .shr32 n => shr32Amounts.contains n
  | .rotl64 n => rotl64Amounts.contains n
  | .rotr64 n => rotr64Amounts.contains n
  | .shr64 n => shr64Amounts.contains n
  | .update | .setHmacKey | .getHash _ | .getHmac | .getMac _
  | .sha1Compress | .sha1Finalize | .sha256Compress | .sha512Compress | .keccakF
  | .leftEncode | .rightEncode | .encodeString | .bytePad
  | .ch32 | .parity32 | .maj32 | .sigma0x256 | .sigma1x256 | .gamma0x256 | .gamma1x256
  | .add32x2 | .add32x4 | .add32x5
  | .xor64x2 | .xor64x5 | .add64x2 | .add64x4 | .add64x5 | .ch64 | .maj64
  | .sigma0x512 | .sigma1x512 | .gamma0x512 | .gamma1x512 => true

end Sys2Proof
end

