-- ==== Sys2Proof/Decode.lean ====
section
/-! DEFINITION. The command word (spec 30_encoding.md): its fields (R90, R91), the variant codes (R94), decoding, total on
every 32-bit word (R100), the encoder written from the same tables (R103), and how many operand words a command takes
when every operand word is zero (R92, R99). -/

namespace Sys2Proof

/-- The fields of a command word (R90). -/
structure Fields where
  opc : BitVec 8
  var : BitVec 4
  n : BitVec 6
  p : Bool
  f : Bool
  s : Bool
  rsv : BitVec 3
  imm8 : BitVec 8
deriving DecidableEq, Repr

/-- R91: every field is taken straight from its bits. -/
def Fields.ofWord (w : Word) : Fields where
  opc := w.extractLsb' 24 8
  var := w.extractLsb' 20 4
  n := w.extractLsb' 14 6
  p := w.getLsbD 13
  f := w.getLsbD 12
  s := w.getLsbD 11
  rsv := w.extractLsb' 8 3
  imm8 := w.extractLsb' 0 8

/-- The word whose fields these are, bits 31 to 0 in the order of R90's table. -/
def Fields.toWord (x : Fields) : Word :=
  x.opc ++ x.var ++ x.n ++ BitVec.ofBool x.p ++ BitVec.ofBool x.f ++ BitVec.ofBool x.s ++ x.rsv ++ x.imm8

/-- The fields of a word with this opcode and every other field zero (R103). -/
def Fields.bare (opc : BitVec 8) : Fields where
  opc := opc
  var := 0
  n := 0
  p := false
  f := false
  s := false
  rsv := 0
  imm8 := 0

/-- The code of a variant in `VAR` and in `CTX.VARIANT` (R94). -/
def Variant.code : Variant → BitVec 4
  | .sha1 => 0
  | .sha224 => 1
  | .sha256 => 2
  | .sha384 => 3
  | .sha512 => 4
  | .sha3x224 => 5
  | .sha3x256 => 6
  | .sha3x384 => 7
  | .sha3x512 => 8
  | .shake128 => 9
  | .shake256 => 10
  | .cshake128 => 11
  | .cshake256 => 12
  | .kmac128 => 13
  | .kmac256 => 14

/-- The variant a code names; 15 names none (R94). -/
def Variant.ofCode (c : BitVec 4) : Option Variant :=
  match c.toNat with
  | 0 => some .sha1
  | 1 => some .sha224
  | 2 => some .sha256
  | 3 => some .sha384
  | 4 => some .sha512
  | 5 => some .sha3x224
  | 6 => some .sha3x256
  | 7 => some .sha3x384
  | 8 => some .sha3x512
  | 9 => some .shake128
  | 10 => some .shake256
  | 11 => some .cshake128
  | 12 => some .cshake256
  | 13 => some .kmac128
  | 14 => some .kmac256
  | _ => none

/-- INIT's `VAR` field: the variant's code, or 15 for the unrecognized name (R94). -/
def variantField : Option Variant → BitVec 4
  | some v => v.code
  | none => 15

/-- Why a word is illegal: the five cases (a) to (e) of R93.  All of them raise `ILLEGAL_COMMAND`. -/
inductive Illegal
  /-- (a) `OPC` is not in the map of R92. -/
  | unassignedOpcode
  /-- (b) `RSV` is not 0. -/
  | reservedBits
  /-- (c) a field the opcode does not use is not zero. -/
  | unusedField
  /-- (d) `VAR`, `N` or `IMM8` of a test-port operation holds a value R95, R96 or R97 does not admit. -/
  | valueNotAdmitted
  /-- (e) INIT with `F` or `S` on a variant that takes no strings. -/
  | stringsNotTaken
deriving DecidableEq, Repr

/-- What decoding answers for a word: one legal command, or a named reason why there is none (R100). -/
inductive Decoded
  | instr (i : Instr)
  | illegal (r : Illegal)
deriving DecidableEq, Repr

/-- Which fields besides `OPC` an opcode reads (R92 "Fields used"). -/
structure Uses where
  var : Bool
  n : Bool
  p : Bool
  f : Bool
  s : Bool
  imm8 : Bool
deriving DecidableEq, Repr

/-- An opcode that uses no field. -/
def usesNone : Uses where
  var := false
  n := false
  p := false
  f := false
  s := false
  imm8 := false

/-- INIT uses VAR, P, F, S (R92). -/
def usesInit : Uses := { usesNone with var := true, p := true, f := true, s := true }

/-- GET_HASH and GET_MAC use P (R92). -/
def usesP : Uses := { usesNone with p := true }

/-- The rotates and shifts use N (R92). -/
def usesN : Uses := { usesNone with n := true }

/-- SHA256_FINALIZE, SHA512_FINALIZE and SHA3_ABSORB use VAR (R92). -/
def usesVar : Uses := { usesNone with var := true }

/-- SHA3_FINALIZE uses VAR and IMM8 (R92). -/
def usesVarImm : Uses := { usesNone with var := true, imm8 := true }

/-- Every field an opcode does not use is zero (R92, R93 (c)). -/
def Fields.unusedZero (x : Fields) (u : Uses) : Bool :=
  (u.var || x.var == 0) && (u.n || x.n == 0) && (u.p || !x.p) && (u.f || !x.f) && (u.s || !x.s)
    && (u.imm8 || x.imm8 == 0)

/-- What an assigned opcode decodes to, once the reserved bits and the unused fields are seen to be zero (R100). -/
def Fields.only (x : Fields) (u : Uses) (d : Decoded) : Decoded :=
  if x.rsv == 0 then (if x.unusedZero u then d else .illegal .unusedField) else .illegal .reservedBits

/-- The command, if its field values are admitted. -/
def ifAdmitted (i : Instr) (r : Illegal) : Decoded := if i.wellFormed then .instr i else .illegal r

/-- The command for the variant `VAR` names, if it names one and that variant is admitted (R95). -/
def Fields.withVariant (x : Fields) (mk : Variant → Instr) : Decoded :=
  match Variant.ofCode x.var with
  | some v => ifAdmitted (mk v) .valueNotAdmitted
  | none => .illegal .valueNotAdmitted

/-- Decoding by fields: the opcode map of R92, one line per opcode. -/
def decodeFields (f : Fields) : Decoded :=
  match f.opc.toNat with
  | 0x01 => f.only usesInit (ifAdmitted (.init (Variant.ofCode f.var) f.p f.f f.s) .stringsNotTaken)
  | 0x02 => f.only usesNone (.instr .update)
  | 0x03 => f.only usesNone (.instr .setHmacKey)
  | 0x04 => f.only usesP (.instr (.getHash f.p))
  | 0x05 => f.only usesNone (.instr .getHmac)
  | 0x06 => f.only usesP (.instr (.getMac f.p))
  | 0x10 => f.only usesNone (.instr .sha1Compress)
  | 0x11 => f.only usesNone (.instr .sha1Finalize)
  | 0x12 => f.only usesNone (.instr .sha256Compress)
  | 0x13 => f.only usesVar (f.withVariant fun v => .sha256Finalize v)
  | 0x14 => f.only usesNone (.instr .sha512Compress)
  | 0x15 => f.only usesVar (f.withVariant fun v => .sha512Finalize v)
  | 0x16 => f.only usesNone (.instr .keccakF)
  | 0x17 => f.only usesVar (f.withVariant fun v => .sha3Absorb v)
  | 0x18 => f.only usesVarImm (f.withVariant fun v => .sha3Finalize v f.imm8)
  | 0x19 => f.only usesNone (.instr .leftEncode)
  | 0x1A => f.only usesNone (.instr .rightEncode)
  | 0x1B => f.only usesNone (.instr .encodeString)
  | 0x1C => f.only usesNone (.instr .bytePad)
  | 0x20 => f.only usesN (ifAdmitted (.rotl32 f.n) .valueNotAdmitted)
  | 0x21 => f.only usesN (ifAdmitted (.rotr32 f.n) .valueNotAdmitted)
  | 0x22 => f.only usesN (ifAdmitted (.shr32 f.n) .valueNotAdmitted)
  | 0x23 => f.only usesNone (.instr .ch32)
  | 0x24 => f.only usesNone (.instr .parity32)
  | 0x25 => f.only usesNone (.instr .maj32)
  | 0x26 => f.only usesNone (.instr .sigma0x256)
  | 0x27 => f.only usesNone (.instr .sigma1x256)
  | 0x28 => f.only usesNone (.instr .gamma0x256)
  | 0x29 => f.only usesNone (.instr .gamma1x256)
  | 0x2A => f.only usesNone (.instr .add32x2)
  | 0x2B => f.only usesNone (.instr .add32x4)
  | 0x2C => f.only usesNone (.instr .add32x5)
  | 0x30 => f.only usesN (ifAdmitted (.rotl64 f.n) .valueNotAdmitted)
  | 0x31 => f.only usesN (ifAdmitted (.rotr64 f.n) .valueNotAdmitted)
  | 0x32 => f.only usesN (ifAdmitted (.shr64 f.n) .valueNotAdmitted)
  | 0x33 => f.only usesNone (.instr .xor64x2)
  | 0x34 => f.only usesNone (.instr .xor64x5)
  | 0x35 => f.only usesNone (.instr .add64x2)
  | 0x36 => f.only usesNone (.instr .add64x4)
  | 0x37 => f.only usesNone (.instr .add64x5)
  | 0x38 => f.only usesNone (.instr .ch64)
  | 0x39 => f.only usesNone (.instr .maj64)
  | 0x3A => f.only usesNone (.instr .sigma0x512)
  | 0x3B => f.only usesNone (.instr .sigma1x512)
  | 0x3C => f.only usesNone (.instr .gamma0x512)
  | 0x3D => f.only usesNone (.instr .gamma1x512)
  | _ => .illegal .unassignedOpcode

/-- R100: each 32-bit word is either one legal command of R92 or illegal. -/
def decode (w : Word) : Decoded := decodeFields (Fields.ofWord w)

/-- The fields of a command's word (R92, R103): every field the command does not use is zero. -/
def Instr.fields : Instr → Fields
  | .init v p f c => { Fields.bare 0x01 with var := variantField v, p := p, f := f, s := c }
  | .update => Fields.bare 0x02
  | .setHmacKey => Fields.bare 0x03
  | .getHash p => { Fields.bare 0x04 with p := p }
  | .getHmac => Fields.bare 0x05
  | .getMac p => { Fields.bare 0x06 with p := p }
  | .sha1Compress => Fields.bare 0x10
  | .sha1Finalize => Fields.bare 0x11
  | .sha256Compress => Fields.bare 0x12
  | .sha256Finalize v => { Fields.bare 0x13 with var := v.code }
  | .sha512Compress => Fields.bare 0x14
  | .sha512Finalize v => { Fields.bare 0x15 with var := v.code }
  | .keccakF => Fields.bare 0x16
  | .sha3Absorb v => { Fields.bare 0x17 with var := v.code }
  | .sha3Finalize v d => { Fields.bare 0x18 with var := v.code, imm8 := d }
  | .leftEncode => Fields.bare 0x19
  | .rightEncode => Fields.bare 0x1A
  | .encodeString => Fields.bare 0x1B
  | .bytePad => Fields.bare 0x1C
  | .rotl32 n => { Fields.bare 0x20 with n := n }
  | .rotr32 n => { Fields.bare 0x21 with n := n }
  | .shr32 n => { Fields.bare 0x22 with n := n }
  | .ch32 => Fields.bare 0x23
  | .parity32 => Fields.bare 0x24
  | .maj32 => Fields.bare 0x25
  | .sigma0x256 => Fields.bare 0x26
  | .sigma1x256 => Fields.bare 0x27
  | .gamma0x256 => Fields.bare 0x28
  | .gamma1x256 => Fields.bare 0x29
  | .add32x2 => Fields.bare 0x2A
  | .add32x4 => Fields.bare 0x2B
  | .add32x5 => Fields.bare 0x2C
  | .rotl64 n => { Fields.bare 0x30 with n := n }
  | .rotr64 n => { Fields.bare 0x31 with n := n }
  | .shr64 n => { Fields.bare 0x32 with n := n }
  | .xor64x2 => Fields.bare 0x33
  | .xor64x5 => Fields.bare 0x34
  | .add64x2 => Fields.bare 0x35
  | .add64x4 => Fields.bare 0x36
  | .add64x5 => Fields.bare 0x37
  | .ch64 => Fields.bare 0x38
  | .maj64 => Fields.bare 0x39
  | .sigma0x512 => Fields.bare 0x3A
  | .sigma1x512 => Fields.bare 0x3B
  | .gamma0x512 => Fields.bare 0x3C
  | .gamma1x512 => Fields.bare 0x3D

/-- R103: the command word of a command. -/
def encode (i : Instr) : Word := i.fields.toWord

/-- The class of a command (R12): a context command or a test-port operation. -/
def Instr.commandClass : Instr → CommandClass
  | .init .. | .update | .setHmacKey | .getHash _ | .getHmac | .getMac _ => .context
  | .sha1Compress | .sha1Finalize | .sha256Compress | .sha256Finalize _ | .sha512Compress | .sha512Finalize _
  | .keccakF | .sha3Absorb _ | .sha3Finalize .. | .leftEncode | .rightEncode | .encodeString | .bytePad
  | .rotl32 _ | .rotr32 _ | .shr32 _ | .ch32 | .parity32 | .maj32 | .sigma0x256 | .sigma1x256 | .gamma0x256
  | .gamma1x256 | .add32x2 | .add32x4 | .add32x5 | .rotl64 _ | .rotr64 _ | .shr64 _ | .xor64x2 | .xor64x5
  | .add64x2 | .add64x4 | .add64x5 | .ch64 | .maj64 | .sigma0x512 | .sigma1x512 | .gamma0x512 | .gamma1x512 => .testPort

/-- The class an opcode belongs to, read from its number (R92, R305): 0x01 to 0x06 are context commands. -/
def CommandClass.ofOpcode (opc : BitVec 8) : CommandClass :=
  if 1 ≤ opc.toNat ∧ opc.toNat ≤ 6 then .context else .testPort

/-- The rate in 32-bit words, `RATE/32`, of the block SHA3_ABSORB takes (R31, R92); SHA3_ABSORB admits the SHA-3
variants only. -/
def sha3BlockWords : Variant → Nat
  | .sha3x224 => 36
  | .sha3x256 | .shake256 | .cshake256 | .kmac256 => 34
  | .sha3x384 => 26
  | .sha3x512 => 18
  | .shake128 | .cshake128 | .kmac128 => 42
  | .sha1 | .sha224 | .sha256 | .sha384 | .sha512 => 0

/-- How many operand words a command takes from `DIN` when every one of them is zero, so that every byte string is
empty (R92, R77): a Word32 is one word, a Word64, a Len64 and an empty ByteString are two. -/
def Instr.zeroOperandWords : Instr → Nat
  | .init _ p f c => 1 + (if p then 2 else 0) + (if f then 2 else 0) + (if c then 2 else 0)
  | .update | .setHmacKey => 2
  | .getHash p | .getMac p => if p then 2 else 0
  | .getHmac => 0
  | .sha1Compress => 21
  | .sha1Finalize => 9
  | .sha256Compress => 24
  | .sha256Finalize _ => 12
  | .sha512Compress => 48
  | .sha512Finalize _ => 20
  | .keccakF => 50
  | .sha3Absorb v => 50 + sha3BlockWords v
  | .sha3Finalize .. => 54
  | .leftEncode | .rightEncode | .encodeString => 2
  | .bytePad => 3
  | .rotl32 _ | .rotr32 _ | .shr32 _ | .sigma0x256 | .sigma1x256 | .gamma0x256 | .gamma1x256 => 1
  | .add32x2 => 2
  | .ch32 | .parity32 | .maj32 => 3
  | .add32x4 => 4
  | .add32x5 => 5
  | .rotl64 _ | .rotr64 _ | .shr64 _ | .sigma0x512 | .sigma1x512 | .gamma0x512 | .gamma1x512 => 2
  | .xor64x2 | .add64x2 => 4
  | .ch64 | .maj64 => 6
  | .add64x4 => 8
  | .xor64x5 | .add64x5 => 10

/-- The command word of an instruction whose bits are `w`, of which `nbits` count: the first 32-bit word. -/
def tableCommandWord (nbits w : Nat) : Word := BitVec.ofNat 32 (w % 2 ^ nbits)

/-- The command the decoder reads from the opcode table's numbering of an instruction's bits. -/
def decodeTableWord (nbits w : Nat) : Option Instr :=
  match decode (tableCommandWord nbits w) with
  | .instr i => some i
  | .illegal _ => none

end Sys2Proof
end

