-- ==== Sys2Proof/Machine/Flags.lean ====
section
/-! DEFINITION. `STATUS` and the flags of the context: the error codes (spec 60_exceptions.md R303), the first error that
applies (R307), and the context phase derived from the flags (10_state.md R36).  The engine has no arithmetic flag:
no operation reports a carry or an overflow (40_word32.md R109). -/

namespace Sys2Proof.Machine

/-- The named errors of R303.  The three decoder errors are reserved and nothing raises them (R309). -/
inductive Error
  | invalidVariant
  | invalidNumRounds
  | roundsWithMac
  | roundsWithCshake
  | missingKey
  | malformedHex
  | malformedB64
  | unsupportedBuffer
  | unalignedLength
  | keyAlreadySet
  | keyAfterUpdate
  | hashOnKeyed
  | macWithoutKey
  | macUnsupported
  | outputLenMissing
  | outputLenNotByte
  | illegalCommand
  | notInitialised
  | contextPoisoned
  | lengthLimit
  | operandRange
deriving DecidableEq, Repr

/-- `STATUS` after a command that raised no error: 0x00 `OK` (R303). -/
def statusOk : BitVec 8 := 0x00

/-- The code an error leaves in `STATUS` (R303). -/
def Error.code : Error → BitVec 8
  | .invalidVariant => 0x01
  | .invalidNumRounds => 0x02
  | .roundsWithMac => 0x03
  | .roundsWithCshake => 0x04
  | .missingKey => 0x05
  | .malformedHex => 0x10
  | .malformedB64 => 0x11
  | .unsupportedBuffer => 0x12
  | .unalignedLength => 0x13
  | .keyAlreadySet => 0x20
  | .keyAfterUpdate => 0x21
  | .hashOnKeyed => 0x22
  | .macWithoutKey => 0x23
  | .macUnsupported => 0x24
  | .outputLenMissing => 0x30
  | .outputLenNotByte => 0x31
  | .illegalCommand => 0x40
  | .notInitialised => 0x41
  | .contextPoisoned => 0x42
  | .lengthLimit => 0x43
  | .operandRange => 0x44

/-- The classes of error: the document's four, and the spec's own class for its hardware framing (R300). -/
inductive ErrorClass
  | configuration
  | format
  | sequencing
  | output
  | engine
deriving DecidableEq, Repr

/-- The class of an error (R303). -/
def Error.errorClass : Error → ErrorClass
  | .invalidVariant | .invalidNumRounds | .roundsWithMac | .roundsWithCshake | .missingKey => .configuration
  | .malformedHex | .malformedB64 | .unsupportedBuffer | .unalignedLength => .format
  | .keyAlreadySet | .keyAfterUpdate | .hashOnKeyed | .macWithoutKey | .macUnsupported => .sequencing
  | .outputLenMissing | .outputLenNotByte => .output
  | .illegalCommand | .notInitialised | .contextPoisoned | .lengthLimit | .operandRange => .engine

/-- The errors only a decoder outside the block could raise (R303, R309). -/
def Error.reserved : Error → Bool
  | .malformedHex | .malformedB64 | .unsupportedBuffer => true
  | .invalidVariant | .invalidNumRounds | .roundsWithMac | .roundsWithCshake | .missingKey | .unalignedLength
  | .keyAlreadySet | .keyAfterUpdate | .hashOnKeyed | .macWithoutKey | .macUnsupported | .outputLenMissing
  | .outputLenNotByte | .illegalCommand | .notInitialised | .contextPoisoned | .lengthLimit | .operandRange => false

/-- The codes the block may leave in `STATUS`: `OK` and the codes of the errors it raises (R303). -/
def statusCodes : List (BitVec 8) :=
  [0x00, 0x01, 0x02, 0x03, 0x04, 0x05, 0x13, 0x20, 0x21, 0x22, 0x23, 0x24, 0x30, 0x31, 0x40, 0x41, 0x42, 0x43, 0x44]

/-- A command's checks, in the order of its list in R307: the condition, and the error it raises. -/
abbrev Checks := List (Bool × Error)

/-- R307: "A command raises exactly one error, the first that applies in its list". -/
def firstError : Checks → Option Error
  | [] => none
  | (applies, e) :: rest => if applies then some e else firstError rest

/-- The value, unless a check raises an error. -/
def checked {α : Type} (checks : Checks) (v : α) : Except Error α :=
  match firstError checks with
  | some e => .error e
  | none => .ok v

/-- The phases of R36. -/
inductive Phase
  | unbound
  | poisoned
  | fresh
  | finalizable
  | keyedFresh
  | keyedFinalizable
deriving DecidableEq, Repr

/-- The phase the two flags of a constructed context give (R36). -/
def Context.phase (c : Context) : Phase :=
  match c.macKeySet, c.updateCalled with
  | false, false => .fresh
  | false, true => .finalizable
  | true, false => .keyedFresh
  | true, true => .keyedFinalizable

/-- R36: the context phase, derived from the registers.  Where `CTX.BOUND` is 0 and `CTX.POISONED` is 1 both of R36's
first two names apply; the phase answered is `POISONED`, the one whose outcomes R191 gives that state (R179:
`CONTEXT_POISONED` takes priority; assumption 9). -/
def State.phase (s : State) : Phase :=
  if s.poisoned then .poisoned
  else if s.bound then
    match s.ctx with
    | some c => c.phase
    | none => .unbound
  else .unbound

end Sys2Proof.Machine
end

