-- ==== Sys2Proof/Machine/Operands.lean ====
section
/-! DEFINITION. Operands and results: the two packings of byte strings into words (spec 20_memory.md R73, R74), the wire
forms Word32, Word64, Len64 and ByteString in both directions (R77), and how a command takes them from `DIN`. -/

namespace Sys2Proof.Machine

/-! ### Packing -/

/-- `b(i)` of R73 and R74: byte `i` of the string, 0 beyond its end. -/
def byteAt (s : List Byte) (i : Nat) : Word := (s.getD i 0).setWidth 32

/-- R73: the word of four bytes, the first in bits 31 to 24. -/
def wordBE (s : List Byte) (i : Nat) : Word :=
  (byteAt s i <<< 24) ||| (byteAt s (i + 1) <<< 16) ||| (byteAt s (i + 2) <<< 8) ||| byteAt s (i + 3)

/-- R74: the word of four bytes, the first in bits 7 to 0. -/
def wordLE (s : List Byte) (i : Nat) : Word :=
  byteAt s i ||| (byteAt s (i + 1) <<< 8) ||| (byteAt s (i + 2) <<< 16) ||| (byteAt s (i + 3) <<< 24)

/-- R73: `PackBE(s)`, `ceil(n/4)` words. -/
def packBE (s : List Byte) : List Word := (List.range ((s.length + 3) / 4)).map fun j => wordBE s (4 * j)

/-- R74: `PackLE(s)`, `ceil(n/4)` words. -/
def packLE (s : List Byte) : List Word := (List.range ((s.length + 3) / 4)).map fun j => wordLE s (4 * j)

/-- R73: `UnpackBE(w, n)`: byte `i` is bits `31 − 8·(i mod 4)` to `24 − 8·(i mod 4)` of word `i div 4`. -/
def unpackBE (w : List Word) (n : Nat) : List Byte :=
  (List.range n).map fun i => (w.getD (i / 4) 0).extractLsb' (24 - 8 * (i % 4)) 8

/-- R74: `UnpackLE(w, n)`: byte `i` is bits `8·(i mod 4) + 7` to `8·(i mod 4)` of word `i div 4`. -/
def unpackLE (w : List Word) (n : Nat) : List Byte :=
  (List.range n).map fun i => (w.getD (i / 4) 0).extractLsb' (8 * (i % 4)) 8

/-- `Pack<order>`. -/
def pack : ByteOrder → List Byte → List Word
  | .be, s => packBE s
  | .le, s => packLE s

/-- `Unpack<order>`. -/
def unpack : ByteOrder → List Word → Nat → List Byte
  | .be, w, n => unpackBE w n
  | .le, w, n => unpackLE w n

/-! ### 64-bit values as words -/

/-- R77 Word64: the high word. -/
def hiWord (v : DWord) : Word := v.extractLsb' 32 32

/-- R77 Word64: the low word. -/
def loWord (v : DWord) : Word := v.extractLsb' 0 32

/-- R140: the 64-bit value of a (high, low) pair, `hi · 2^32 + lo`. -/
def dwordOf (hi lo : Word) : DWord := BitVec.ofNat 64 (hi.toNat * 2 ^ 32 + lo.toNat)

/-- Consecutive words as 64-bit values, the first of each pair high (R77, R242). -/
def dwordsOf : List Word → List DWord
  | hi :: lo :: rest => dwordOf hi lo :: dwordsOf rest
  | _ => []

/-- 64-bit values as words, high word first (R77). -/
def wordsOf (vs : List DWord) : List Word := vs.flatMap fun v => [hiWord v, loWord v]

/-! ### Results on `DOUT` -/

/-- Len64: a natural below 2^64 as two words, high first (R77).  No command's result passes a larger one: see
`stringLen`. -/
def lenWords (n : Nat) : List Word := [BitVec.ofNat 32 (n / 2 ^ 32), BitVec.ofNat 32 n]

/-- R77: the length words of a ByteString.  DESIGN CHOICE (assumption 20): a bit length of 2^64 or more, which only a result
of BYTE_PAD reaches (R283), has no Len64; its two words are a free value. -/
def stringLen (s : List Byte) : List Word :=
  if 8 * s.length < 2 ^ 64 then lenWords (8 * s.length) else wordsOf [Config.overlongLen s]

/-- R77: a ByteString result is its bit length, then its packed words. -/
def stringWords (order : ByteOrder) (s : List Byte) : List Word := stringLen s ++ pack order s

/-! ### Operands on `DIN` -/

/-- A ByteString operand as it stands on the wire: its bit length and its packed words (R77). -/
structure WireString where
  bitLen : Nat
  words : List Word
deriving DecidableEq, Repr

/-- R77, R79: only whole bytes are accepted. -/
def WireString.unaligned (w : WireString) : Bool := w.bitLen % 8 != 0

/-- R77: "the byte string is `Unpack<order>(words, ℓ / 8)`"; bits beyond the length are ignored. -/
def WireString.bytes (order : ByteOrder) (w : WireString) : List Byte := unpack order w.words (w.bitLen / 8)

/-- Taking an operand: from the words on `DIN`, the operand and the words after it, or none where the host has not
written enough words yet. -/
abbrev Din (α : Type) := List Word → Option (α × List Word)

/-- No operand. -/
def Din.pure {α : Type} (a : α) : Din α := fun din => some (a, din)

/-- One operand after another. -/
def Din.bind {α β : Type} (d : Din α) (f : α → Din β) : Din β := fun din =>
  match d din with
  | none => none
  | some (a, rest) => f a rest

/-- A value computed from an operand. -/
def Din.map {α β : Type} (f : α → β) (d : Din α) : Din β := d.bind fun a => Din.pure (f a)

/-- An operand that follows only where a flag of the command word says so (R98). -/
def Din.when {α : Type} (present : Bool) (d : Din α) : Din (Option α) :=
  if present then d.map some else Din.pure none

/-- `DinWord()` (R10, R77). -/
def dinWord : Din Word
  | [] => none
  | w :: rest => some (w, rest)

/-- The next `n` words. -/
def dinWords (n : Nat) : Din (List Word) := fun din =>
  if n ≤ din.length then some (din.take n, din.drop n) else none

/-- `DinU64()`: a Word64, high word first (R77). -/
def dinU64 : Din DWord := dinWord.bind fun hi => dinWord.bind fun lo => Din.pure (dwordOf hi lo)

/-- `DinLen()`: a Len64, high word first (R77). -/
def dinLen : Din Nat := dinU64.map BitVec.toNat

/-- `n` consecutive Word64. -/
def dinU64s (n : Nat) : Din (List DWord) := (dinWords (2 * n)).map dwordsOf

/-- `DinBytes`: a ByteString, a Len64 and then the `ceil(ℓ/32)` words it calls for (R77). -/
def dinString : Din WireString :=
  dinLen.bind fun l => (dinWords ((l + 31) / 32)).map fun ws => { bitLen := l, words := ws }

/-! ### Groups of operands -/

/-- Five values in order of index. -/
def fiveOf {α : Type} (zero : α) (l : List α) : Five α := Five.ofFn fun i => l.getD i zero

/-- Eight values in order of index. -/
def eightOf {α : Type} (zero : α) (l : List α) : Eight α := Eight.ofFn fun i => l.getD i zero

/-- The state words of SHA-1, 5 Word32. -/
def dinFive : Din (Five Word) := (dinWords 5).map (fiveOf 0)

/-- The state words of F_SHA256, 8 Word32. -/
def dinEight : Din (Eight Word) := (dinWords 8).map (eightOf 0)

/-- The state words of F_SHA512, 8 Word64. -/
def dinEightU64 : Din (Eight DWord) := (dinU64s 8).map (eightOf 0)

/-- R260: lane `i` of a list is `A[i mod 5][i div 5]`. -/
def lanesOf (l : List DWord) : Lanes := Five.ofFn fun x => Five.ofFn fun y => l.getD (x + 5 * y) 0

/-- R260: the 25 lanes in lane order i = 0 to 24. -/
def laneList (a : Lanes) : List DWord := (List.range 25).map fun i => (a.get (i % 5)).get (i / 5)

/-- 25 Word64 lanes in lane order (R260). -/
def dinLanes : Din Lanes := (dinU64s 25).map lanesOf

end Sys2Proof.Machine
end

