-- ==== Sys2Proof/Machine/Ops.lean ====
section
/-! DEFINITION. The operations every command shares: taking its words, completing, raising an error (the engine's only
exception, spec 60_exceptions.md R305), the two shapes of a command (42_engine_hmac.md R179, R194), and what the host may
do to the channels (20_memory.md R70, R80; 70_reset_and_hazards.md R330, R340). -/

namespace Sys2Proof.Machine

/-! ### Taking, completing, raising -/

/-- The command word at the head of `CMD` and the operand words before `din` have been taken (R302). -/
def State.take (s : State) (din : List Word) : State := { s with cmd := s.cmd.tail, din := din }

/-- R78: a command that completes writes its results to `DOUT`, then sets `STATUS` to 0x00. -/
def State.complete (out : List Word) (s : State) : State := { s with dout := s.dout ++ out, status := statusOk }

/-- R305: `Raise(E, cmd)`.  A context command's error poisons the context, unless it is `ILLEGAL_COMMAND`; `STATUS`
takes the code; nothing else changes.  This is all the engine does on an exception: there is no saved state, no
mode, no vector and no handler (R301, R312), and so no return from one (R308): the next command is simply taken, and
a poisoned context is left by an INIT that completes, or by reset. -/
def State.raise (k : CommandClass) (e : Error) (s : State) : State :=
  { s with
    poisoned := s.poisoned || (decide (k = .context) && decide (e ≠ .illegalCommand))
    status := e.code }

/-- R93, R305: an illegal word raises `ILLEGAL_COMMAND` at decode and takes no operand word. -/
def State.rejectCommand (w : Word) (s : State) : State :=
  State.raise (CommandClass.ofOpcode (Fields.ofWord w).opc) .illegalCommand (s.take s.din)

/-! ### The shapes of a command -/

/-- A test-port operation (R109, R155, R194): it takes its operands, makes its checks in order, and writes its results; it
reads and writes no context register.  Until the host has written every operand word it waits (assumption 4). -/
def portCommand {α : Type} (read : Din α) (checks : Config.Params → α → Checks) (result : α → List Word)
    (s : State) : Answer :=
  match read s.din with
  | none => .next s
  | some (x, rest) =>
    match firstError (checks s.params x) with
    | some e => .next (State.raise .testPort e (s.take rest))
    | none => .next (State.complete (result x) (s.take rest))

/-- An operation with no check of its own (R109). -/
def noChecks {α : Type} : Config.Params → α → Checks := fun _ _ => []

/-- R179: the common entry of a context command other than INIT: `CONTEXT_POISONED`, then `NOT_INITIALISED`, then the
context.  A bound context always has its registers; were they without value, it would not have been constructed. -/
def State.entry (s : State) : Except Error Context :=
  if s.poisoned then .error .contextPoisoned
  else if s.bound then
    match s.ctx with
    | some c => .ok c
    | none => .error .notInitialised
  else .error .notInitialised

/-- A context command other than INIT (R179): it takes its operands, passes the common entry, and then changes the
context and writes its results, or raises an error that poisons the context and changes nothing else. -/
def boundCommand {α : Type} (read : Din α)
    (run : Config.Params → Context → α → Except Error (Context × List Word)) (s : State) : Answer :=
  match read s.din with
  | none => .next s
  | some (x, rest) =>
    match s.entry with
    | .error e => .next (State.raise .context e (s.take rest))
    | .ok c =>
      match run s.params c x with
      | .error e => .next (State.raise .context e (s.take rest))
      | .ok (c', out) => .next (State.complete out { s.take rest with ctx := some c' })

/-- INIT's shape (R180): `CTX.BOUND` is cleared before the checks, so an INIT that errs leaves the context unbound and its
other registers as they were; one that completes replaces the whole context. -/
def constructCommand {α : Type} (read : Din α) (build : Config.Params → α → Except Error Context)
    (s : State) : Answer :=
  match read s.din with
  | none => .next s
  | some (x, rest) =>
    match build s.params x with
    | .error e => .next (State.raise .context e { s.take rest with bound := false })
    | .ok c => .next (State.complete [] { s.take rest with ctx := some c, poisoned := false, bound := true })

/-! ### Block by block -/

/-- A function applied once per block of `size` elements, `k` blocks in order. -/
def foldBlocks {σ α : Type} (size : Nat) (f : σ → List α → σ) : Nat → σ → List α → σ
  | 0, h, _ => h
  | k + 1, h, l => foldBlocks size f k (f h (l.take size)) (l.drop size)

/-- A list extended with `zero` to `n` elements. -/
def extendTo {α : Type} (zero : α) (n : Nat) (l : List α) : List α := l ++ List.replicate (n - l.length) zero

/-! ### The host's side of the channels -/

/-- The host writes a command word and its operand words (R70). -/
def State.issue (word : Word) (operands : List Word) (s : State) : State :=
  { s with cmd := s.cmd ++ [word], din := s.din ++ operands }

/-- The host reads one result word; taking it from `DOUT` is the only effect of the read (R80).  DESIGN CHOICE (assumption
10): R80 and R336 speak only of taking a word that is there; a read of an empty `DOUT` answers none here and changes
nothing. -/
def State.readResult (s : State) : Option (Word × State) :=
  match s.dout with
  | [] => none
  | w :: rest => some (w, { s with dout := rest })

/-- The host reads `STATUS`; nothing changes (R80). -/
def State.readStatus (s : State) : BitVec 8 := s.status

/-- R330: the reset event.  Everything but the instance's parameters goes to its reset value; words on the channels
are lost. -/
def State.hostReset (s : State) : State := { State.reset with params := s.params }

end Sys2Proof.Machine
end

