-- ==== Sys2Proof/Machine/Word32.lean ====
section
/-! DEFINITION. The 32-bit word primitives (spec 40_word32.md): the functions the compression steps are built from, and the
meaning of the test-port operation of each. -/

namespace Sys2Proof.Machine

/-! ### The functions -/

/-- R110: `((x << n) | (x >> (32 − n))) mod 2^32`. -/
def rotl32 (x : Word) (n : Nat) : Word := (x <<< n) ||| (x >>> (32 - n))

/-- R111: `((x >> n) | (x << (32 − n))) mod 2^32`. -/
def rotr32 (x : Word) (n : Nat) : Word := (x >>> n) ||| (x <<< (32 - n))

/-- R112: the logical shift right. -/
def shr32 (x : Word) (n : Nat) : Word := x >>> n

/-- R113: `(x & y) ^ (~x & z)`. -/
def ch32 (x y z : Word) : Word := (x &&& y) ^^^ (~~~x &&& z)

/-- R114: `x ^ y ^ z`. -/
def parity32 (x y z : Word) : Word := x ^^^ y ^^^ z

/-- R115: `(x & y) ^ (x & z) ^ (y & z)`. -/
def maj32 (x y z : Word) : Word := (x &&& y) ^^^ (x &&& z) ^^^ (y &&& z)

/-- R116. -/
def sigma0x256 (x : Word) : Word := rotr32 x 2 ^^^ rotr32 x 13 ^^^ rotr32 x 22

/-- R117. -/
def sigma1x256 (x : Word) : Word := rotr32 x 6 ^^^ rotr32 x 11 ^^^ rotr32 x 25

/-- R118. -/
def gamma0x256 (x : Word) : Word := rotr32 x 7 ^^^ rotr32 x 18 ^^^ shr32 x 3

/-- R119. -/
def gamma1x256 (x : Word) : Word := rotr32 x 17 ^^^ rotr32 x 19 ^^^ shr32 x 10

/-- R120: the sum over the naturals, reduced once modulo 2^32; carries are discarded. -/
def add32x2 (a b : Word) : Word := BitVec.ofNat 32 (a.toNat + b.toNat)

/-- R121: the sum of four, reduced once. -/
def add32x4 (a b c d : Word) : Word := BitVec.ofNat 32 (a.toNat + b.toNat + c.toNat + d.toNat)

/-- R122: the sum of five, reduced once. -/
def add32x5 (a b c d e : Word) : Word := BitVec.ofNat 32 (a.toNat + b.toNat + c.toNat + d.toNat + e.toNat)

/-! ### The shapes of the operations (R109): the operands in the listed order, one result -/

/-- One operand. -/
def unary32 (f : Word → Word) (s : State) : Answer :=
  portCommand (dinWord.map f) noChecks (fun r => [r]) s

/-- Two operands. -/
def binary32 (f : Word → Word → Word) (s : State) : Answer :=
  portCommand (dinWord.bind fun a => dinWord.map (f a)) noChecks (fun r => [r]) s

/-- Three operands. -/
def ternary32 (f : Word → Word → Word → Word) (s : State) : Answer :=
  portCommand (dinWord.bind fun a => dinWord.bind fun b => dinWord.map (f a b)) noChecks (fun r => [r]) s

/-- Four operands. -/
def quaternary32 (f : Word → Word → Word → Word → Word) (s : State) : Answer :=
  portCommand (dinWord.bind fun a => dinWord.bind fun b => dinWord.bind fun c => dinWord.map (f a b c)) noChecks
    (fun r => [r]) s

/-- Five operands. -/
def quinary32 (f : Word → Word → Word → Word → Word → Word) (s : State) : Answer :=
  portCommand (dinWord.bind fun a => dinWord.bind fun b => dinWord.bind fun c => dinWord.bind fun d => dinWord.map (f a b c d))
    noChecks (fun r => [r]) s

/-! ### The meanings -/

/-- ROTL32 (R110), the amount from the field `N`. -/
def execRotl32 (n : BitVec 6) (s : State) : Answer := unary32 (fun x => rotl32 x n.toNat) s

/-- ROTR32 (R111), the amount from the field `N`. -/
def execRotr32 (n : BitVec 6) (s : State) : Answer := unary32 (fun x => rotr32 x n.toNat) s

/-- SHR32 (R112), the amount from the field `N`. -/
def execShr32 (n : BitVec 6) (s : State) : Answer := unary32 (fun x => shr32 x n.toNat) s

/-- CH32 (R113). -/
def execCh32 (s : State) : Answer := ternary32 ch32 s

/-- PARITY32 (R114). -/
def execParity32 (s : State) : Answer := ternary32 parity32 s

/-- MAJ32 (R115). -/
def execMaj32 (s : State) : Answer := ternary32 maj32 s

/-- SIGMA0_256 (R116). -/
def execSigma0x256 (s : State) : Answer := unary32 sigma0x256 s

/-- SIGMA1_256 (R117). -/
def execSigma1x256 (s : State) : Answer := unary32 sigma1x256 s

/-- GAMMA0_256 (R118). -/
def execGamma0x256 (s : State) : Answer := unary32 gamma0x256 s

/-- GAMMA1_256 (R119). -/
def execGamma1x256 (s : State) : Answer := unary32 gamma1x256 s

/-- ADD32_2 (R120). -/
def execAdd32x2 (s : State) : Answer := binary32 add32x2 s

/-- ADD32_4 (R121). -/
def execAdd32x4 (s : State) : Answer := quaternary32 add32x4 s

/-- ADD32_5 (R122). -/
def execAdd32x5 (s : State) : Answer := quinary32 add32x5 s

end Sys2Proof.Machine
end

