-- ==== Sys2Proof/Machine/Sha1.lean ====
section
/-! DEFINITION. SHA-1 (spec 43_sha1.md): the schedule, the rounds, the compression, the padding and the finalize; the
padded buffer F_SHA256 shares (44_sha2.md R237); and the test-port operations SHA1_COMPRESS and SHA1_FINALIZE. -/

namespace Sys2Proof.Machine

/-! ### Compression -/

/-- R211: `k` more schedule words before the words `w`, which stand newest first, so that `W[t-3]`, `W[t-8]`,
`W[t-14]`, `W[t-16]` are elements 2, 7, 13 and 15. -/
def sha1Extend : Nat → List Word → List Word
  | 0, w => w
  | k + 1, w => sha1Extend k (rotl32 (w.getD 2 0 ^^^ w.getD 7 0 ^^^ w.getD 13 0 ^^^ w.getD 15 0) 1 :: w)

/-- R211: the schedule `W[0..79]` of a block of 16 words. -/
def sha1Schedule (blk : List Word) : List Word := (sha1Extend 64 blk.reverse).reverse

/-- R212: the mixing function of round `t`. -/
def sha1F (t : Nat) (b c d : Word) : Word :=
  if t < 20 then ch32 b c d else if t < 40 then parity32 b c d else if t < 60 then maj32 b c d else parity32 b c d

/-- R213: one round on the working variables (a, b, c, d, e). -/
def sha1Round (t : Nat) (w : Word) (v : Five Word) : Five Word where
  e0 := add32x5 (rotl32 v.e0 5) (sha1F t v.e1 v.e2 v.e3) v.e4 (k1 t) w
  e1 := v.e0
  e2 := rotl32 v.e1 30
  e3 := v.e2
  e4 := v.e3

/-- R213: the rounds from `t` on, one per schedule word. -/
def sha1Rounds (t : Nat) (v : Five Word) : List Word → Five Word
  | [] => v
  | w :: ws => sha1Rounds (t + 1) (sha1Round t w v) ws

/-- R213: the final addition. -/
def addFive (h v : Five Word) : Five Word :=
  ⟨add32x2 h.e0 v.e0, add32x2 h.e1 v.e1, add32x2 h.e2 v.e2, add32x2 h.e3 v.e3, add32x2 h.e4 v.e4⟩

/-- R213: `SHA1Compress(H, blk)`. -/
def sha1Compress (h : Five Word) (blk : List Word) : Five Word := addFive h (sha1Rounds 0 h (sha1Schedule blk))

/-! ### Padding -/

/-- R215, R247: `PackBE(M)` extended with zero words to `n` words, with the single 1 bit after the message. -/
def withOneBit (m : List Byte) (n : Nat) : List Word :=
  (extendTo 0 n (packBE m)).modify ((8 * m.length) >>> 5) (· ||| ((0x80 : Word) <<< (24 - 8 * m.length % 32)))

/-- R215, R237: the index of the last word of the padded buffer for 512-bit blocks, `((r + 65) >> 9) * 16 + 15`. -/
def padOff512 (r : Nat) : Nat := ((r + 65) >>> 9) * 16 + 15

/-- R215, R216: the padded buffer of F_SHA1 and F_SHA256: message, 1 bit, zeros, and the 64-bit total length. -/
def padBuffer512 (m : List Byte) (p : Nat) : List Word :=
  let off := padOff512 (8 * m.length)
  let l := 8 * m.length + p
  ((withOneBit m (off + 1)).set (off - 1) (BitVec.ofNat 32 (l / 2 ^ 32))).set off (BitVec.ofNat 32 (l % 2 ^ 32))

/-- R216: `SHA1Finalize(M, P, H)`. -/
def sha1Finalize (m : List Byte) (p : Nat) (h : Five Word) : Five Word :=
  foldBlocks 16 sha1Compress ((padOff512 (8 * m.length) + 1) / 16) h (padBuffer512 m p)

/-! ### The test port -/

/-- R194 (1), (2), (3): the checks of the finalize operations of SHA-1 and SHA-2. -/
def finalizeChecks (block : Nat) (params : Config.Params) (p : Nat) (m : WireString) : Checks :=
  [(m.unaligned, .unalignedLength),
   (decide (m.bitLen > params.maxTotalBits) || decide (p + m.bitLen > params.maxTotalBits), .lengthLimit),
   (p % block != 0, .operandRange)]

/-- SHA1_COMPRESS (R214). -/
def execSha1Compress (s : State) : Answer :=
  portCommand (dinFive.bind fun h => (dinWords 16).map (sha1Compress h)) noChecks Five.toList s

/-- The operands of a finalize operation: the state words, the processed length and the message (R217, R241, R248). -/
structure FinalizeOperands (σ : Type) where
  h : σ
  p : Nat
  m : WireString

/-- Taking them. -/
def dinFinalize {σ : Type} (dinH : Din σ) : Din (FinalizeOperands σ) :=
  dinH.bind fun h => dinLen.bind fun p => dinString.map fun m => { h := h, p := p, m := m }

/-- SHA1_FINALIZE (R217). -/
def execSha1Finalize (s : State) : Answer :=
  portCommand (dinFinalize dinFive) (fun params x => finalizeChecks 512 params x.p x.m)
    (fun x => (sha1Finalize (x.m.bytes .be) x.p x.h).toList) s

end Sys2Proof.Machine
end

