-- ==== Sys2Proof/Machine/Word64.lean ====
section
/-! DEFINITION. The 64-bit word primitives (spec 41_word64.md): the functions the compression steps are built from, and the
meaning of the test-port operation of each. -/

namespace Sys2Proof.Machine

/-! ### The functions -/

/-- R141: `((x << n) | (x >> (64 − n))) mod 2^64`. -/
def rotl64 (x : DWord) (n : Nat) : DWord := (x <<< n) ||| (x >>> (64 - n))

/-- R142: `((x >> n) | (x << (64 − n))) mod 2^64`. -/
def rotr64 (x : DWord) (n : Nat) : DWord := (x >>> n) ||| (x <<< (64 - n))

/-- R143: the logical shift right. -/
def shr64 (x : DWord) (n : Nat) : DWord := x >>> n

/-- R144: `a ^ b`. -/
def xor64x2 (a b : DWord) : DWord := a ^^^ b

/-- R145: `a ^ b ^ c ^ d ^ e`. -/
def xor64x5 (a b c d e : DWord) : DWord := a ^^^ b ^^^ c ^^^ d ^^^ e

/-- R149: `(x & y) ^ (~x & z)`. -/
def ch64 (x y z : DWord) : DWord := (x &&& y) ^^^ (~~~x &&& z)

/-- R150: `(x & y) ^ (x & z) ^ (y & z)`. -/
def maj64 (x y z : DWord) : DWord := (x &&& y) ^^^ (x &&& z) ^^^ (y &&& z)

/-- R151. -/
def sigma0x512 (x : DWord) : DWord := rotr64 x 28 ^^^ rotr64 x 34 ^^^ rotr64 x 39

/-- R152. -/
def sigma1x512 (x : DWord) : DWord := rotr64 x 14 ^^^ rotr64 x 18 ^^^ rotr64 x 41

/-- R153. -/
def gamma0x512 (x : DWord) : DWord := rotr64 x 1 ^^^ rotr64 x 8 ^^^ shr64 x 7

/-- R154. -/
def gamma1x512 (x : DWord) : DWord := rotr64 x 19 ^^^ rotr64 x 61 ^^^ shr64 x 6

/-- R146: the sum over the naturals, reduced once modulo 2^64; carries are discarded. -/
def add64x2 (a b : DWord) : DWord := BitVec.ofNat 64 (a.toNat + b.toNat)

/-- R147: the sum of four, reduced once. -/
def add64x4 (a b c d : DWord) : DWord := BitVec.ofNat 64 (a.toNat + b.toNat + c.toNat + d.toNat)

/-- R148: the sum of five, reduced once. -/
def add64x5 (a b c d e : DWord) : DWord := BitVec.ofNat 64 (a.toNat + b.toNat + c.toNat + d.toNat + e.toNat)

/-! ### The shapes of the operations (R155): the operands in the listed order, one result -/

/-- One operand. -/
def unary64 (f : DWord → DWord) (s : State) : Answer :=
  portCommand (dinU64.map f) noChecks (fun r => [hiWord r, loWord r]) s

/-- Two operands. -/
def binary64 (f : DWord → DWord → DWord) (s : State) : Answer :=
  portCommand (dinU64.bind fun a => dinU64.map (f a)) noChecks (fun r => [hiWord r, loWord r]) s

/-- Three operands. -/
def ternary64 (f : DWord → DWord → DWord → DWord) (s : State) : Answer :=
  portCommand (dinU64.bind fun a => dinU64.bind fun b => dinU64.map (f a b)) noChecks (fun r => [hiWord r, loWord r]) s

/-- Four operands. -/
def quaternary64 (f : DWord → DWord → DWord → DWord → DWord) (s : State) : Answer :=
  portCommand (dinU64.bind fun a => dinU64.bind fun b => dinU64.bind fun c => dinU64.map (f a b c)) noChecks
    (fun r => [hiWord r, loWord r]) s

/-- Five operands. -/
def quinary64 (f : DWord → DWord → DWord → DWord → DWord → DWord) (s : State) : Answer :=
  portCommand (dinU64.bind fun a => dinU64.bind fun b => dinU64.bind fun c => dinU64.bind fun d => dinU64.map (f a b c d))
    noChecks (fun r => [hiWord r, loWord r]) s

/-! ### The meanings -/

/-- ROTL64 (R141), the amount from the field `N`. -/
def execRotl64 (n : BitVec 6) (s : State) : Answer := unary64 (fun x => rotl64 x n.toNat) s

/-- ROTR64 (R142), the amount from the field `N`. -/
def execRotr64 (n : BitVec 6) (s : State) : Answer := unary64 (fun x => rotr64 x n.toNat) s

/-- SHR64 (R143), the amount from the field `N`. -/
def execShr64 (n : BitVec 6) (s : State) : Answer := unary64 (fun x => shr64 x n.toNat) s

/-- XOR64_2 (R144). -/
def execXor64x2 (s : State) : Answer := binary64 xor64x2 s

/-- XOR64_5 (R145). -/
def execXor64x5 (s : State) : Answer := quinary64 xor64x5 s

/-- CH64 (R149). -/
def execCh64 (s : State) : Answer := ternary64 ch64 s

/-- MAJ64 (R150). -/
def execMaj64 (s : State) : Answer := ternary64 maj64 s

/-- SIGMA0_512 (R151). -/
def execSigma0x512 (s : State) : Answer := unary64 sigma0x512 s

/-- SIGMA1_512 (R152). -/
def execSigma1x512 (s : State) : Answer := unary64 sigma1x512 s

/-- GAMMA0_512 (R153). -/
def execGamma0x512 (s : State) : Answer := unary64 gamma0x512 s

/-- GAMMA1_512 (R154). -/
def execGamma1x512 (s : State) : Answer := unary64 gamma1x512 s

/-- ADD64_2 (R146). -/
def execAdd64x2 (s : State) : Answer := binary64 add64x2 s

/-- ADD64_4 (R147). -/
def execAdd64x4 (s : State) : Answer := quaternary64 add64x4 s

/-- ADD64_5 (R148). -/
def execAdd64x5 (s : State) : Answer := quinary64 add64x5 s

end Sys2Proof.Machine
end

