-- ==== Sys2Proof/Machine/Sha2.lean ====
section
/-! DEFINITION. SHA-2 (spec 44_sha2.md): the schedules, rounds, compressions, paddings and finalizes of F_SHA256 and
F_SHA512, and the test-port operations SHA256_COMPRESS, SHA256_FINALIZE, SHA512_COMPRESS and SHA512_FINALIZE. -/

namespace Sys2Proof.Machine

/-! ### F_SHA256 -/

/-- R232: `k` more schedule words before the words `w`, which stand newest first, so that `W[t-2]`, `W[t-7]`,
`W[t-15]`, `W[t-16]` are elements 1, 6, 14 and 15. -/
def sha256Extend : Nat → List Word → List Word
  | 0, w => w
  | k + 1, w =>
    sha256Extend k (add32x4 (gamma1x256 (w.getD 1 0)) (w.getD 6 0) (gamma0x256 (w.getD 14 0)) (w.getD 15 0) :: w)

/-- R231, R232: the schedule `W[0..63]` of a block of 16 words. -/
def sha256Schedule (blk : List Word) : List Word := (sha256Extend 48 blk.reverse).reverse

/-- R233: one round on the working variables a to h, with its constant and schedule word. -/
def sha256Round (k w : Word) (v : Eight Word) : Eight Word :=
  let t1 := add32x5 v.e7 (sigma1x256 v.e4) (ch32 v.e4 v.e5 v.e6) k w
  let t2 := add32x2 (sigma0x256 v.e0) (maj32 v.e0 v.e1 v.e2)
  ⟨add32x2 t1 t2, v.e0, v.e1, v.e2, add32x2 v.e3 t1, v.e4, v.e5, v.e6⟩

/-- R234: the rounds, one per constant and schedule word. -/
def sha256Rounds (v : Eight Word) : List Word → List Word → Eight Word
  | k :: ks, w :: ws => sha256Rounds (sha256Round k w v) ks ws
  | _, _ => v

/-- R234: the final addition. -/
def addEight32 (h v : Eight Word) : Eight Word :=
  ⟨add32x2 h.e0 v.e0, add32x2 h.e1 v.e1, add32x2 h.e2 v.e2, add32x2 h.e3 v.e3,
   add32x2 h.e4 v.e4, add32x2 h.e5 v.e5, add32x2 h.e6 v.e6, add32x2 h.e7 v.e7⟩

/-- R234: `SHA256Compress(H, blk)`; SHA-224 uses it unchanged. -/
def sha256Compress (h : Eight Word) (blk : List Word) : Eight Word :=
  addEight32 h (sha256Rounds h k256 (sha256Schedule blk))

/-- R240: `SHA256Finalize(M, P, H)`, untruncated. -/
def sha256Finalize (m : List Byte) (p : Nat) (h : Eight Word) : Eight Word :=
  foldBlocks 16 sha256Compress ((padOff512 (8 * m.length) + 1) / 16) h (padBuffer512 m p)

/-! ### F_SHA512 -/

/-- R243: the schedule extended as in F_SHA256, at width 64. -/
def sha512Extend : Nat → List DWord → List DWord
  | 0, w => w
  | k + 1, w =>
    sha512Extend k (add64x4 (gamma1x512 (w.getD 1 0)) (w.getD 6 0) (gamma0x512 (w.getD 14 0)) (w.getD 15 0) :: w)

/-- R242, R243: the schedule `W[0..79]` of a block of 32 words, the first word of each pair high. -/
def sha512Schedule (blk : List Word) : List DWord := (sha512Extend 64 (dwordsOf blk).reverse).reverse

/-- R244: one round on the working variables a to h. -/
def sha512Round (k w : DWord) (v : Eight DWord) : Eight DWord :=
  let t1 := add64x5 v.e7 (sigma1x512 v.e4) (ch64 v.e4 v.e5 v.e6) k w
  let t2 := add64x2 (sigma0x512 v.e0) (maj64 v.e0 v.e1 v.e2)
  ⟨add64x2 t1 t2, v.e0, v.e1, v.e2, add64x2 v.e3 t1, v.e4, v.e5, v.e6⟩

/-- R244: the rounds, one per constant and schedule word. -/
def sha512Rounds (v : Eight DWord) : List DWord → List DWord → Eight DWord
  | k :: ks, w :: ws => sha512Rounds (sha512Round k w v) ks ws
  | _, _ => v

/-- R244: the final addition. -/
def addEight64 (h v : Eight DWord) : Eight DWord :=
  ⟨add64x2 h.e0 v.e0, add64x2 h.e1 v.e1, add64x2 h.e2 v.e2, add64x2 h.e3 v.e3,
   add64x2 h.e4 v.e4, add64x2 h.e5 v.e5, add64x2 h.e6 v.e6, add64x2 h.e7 v.e7⟩

/-- R244: `SHA512Compress(H, blk)`; SHA-384 uses it unchanged. -/
def sha512Compress (h : Eight DWord) (blk : List Word) : Eight DWord :=
  addEight64 h (sha512Rounds h k512 (sha512Schedule blk))

/-- R247: the index of the last word of the padded buffer for 1024-bit blocks, `((r + 129) >> 10) * 32 + 31`. -/
def padOff1024 (r : Nat) : Nat := ((r + 129) >>> 10) * 32 + 31

/-- R247: the padded buffer of F_SHA512: the length field has 128 bits, its upper 64 zero. -/
def padBuffer1024 (m : List Byte) (p : Nat) : List Word :=
  let off := padOff1024 (8 * m.length)
  let l := 8 * m.length + p
  ((((withOneBit m (off + 1)).set (off - 3) 0).set (off - 2) 0).set (off - 1) (BitVec.ofNat 32 (l / 2 ^ 32))).set off
    (BitVec.ofNat 32 (l % 2 ^ 32))

/-- R247: `SHA512Finalize(M, P, H)`, untruncated. -/
def sha512Finalize (m : List Byte) (p : Nat) (h : Eight DWord) : Eight DWord :=
  foldBlocks 32 sha512Compress ((padOff1024 (8 * m.length) + 1) / 32) h (padBuffer1024 m p)

/-! ### The test port -/

/-- SHA256_COMPRESS (R236). -/
def execSha256Compress (s : State) : Answer :=
  portCommand (dinEight.bind fun h => (dinWords 16).map (sha256Compress h)) noChecks Eight.toList s

/-- R235, R241: how many words of the state SHA256_FINALIZE writes: 7 for SHA-224, 8 for SHA-256. -/
def sha256OutWords (v : Variant) : Nat := if v = .sha224 then 7 else 8

/-- SHA256_FINALIZE (R241); VAR selects only the number of words written. -/
def execSha256Finalize (v : Variant) (s : State) : Answer :=
  portCommand (dinFinalize dinEight) (fun params x => finalizeChecks 512 params x.p x.m)
    (fun x => (sha256Finalize (x.m.bytes .be) x.p x.h).toList.take (sha256OutWords v)) s

/-- SHA512_COMPRESS (R245). -/
def execSha512Compress (s : State) : Answer :=
  portCommand (dinEightU64.bind fun h => (dinWords 32).map (sha512Compress h)) noChecks (fun h => wordsOf h.toList) s

/-- R246, R248: how many 64-bit words SHA512_FINALIZE writes: 6 for SHA-384, 8 for SHA-512. -/
def sha512OutWords (v : Variant) : Nat := if v = .sha384 then 6 else 8

/-- SHA512_FINALIZE (R248). -/
def execSha512Finalize (v : Variant) (s : State) : Answer :=
  portCommand (dinFinalize dinEightU64) (fun params x => finalizeChecks 1024 params x.p x.m)
    (fun x => wordsOf ((sha512Finalize (x.m.bytes .be) x.p x.h).toList.take (sha512OutWords v))) s

end Sys2Proof.Machine
end

