-- ==== Sys2Proof/Machine/Sha3.lean ====
section
/-! DEFINITION. SHA-3 (spec 45_sha3.md): Keccak-f[1600], absorb, squeeze and finalize, the SP 800-185 encoders, and the
test-port operations KECCAK_F, SHA3_ABSORB, SHA3_FINALIZE, LEFT_ENCODE, RIGHT_ENCODE, ENCODE_STRING and BYTE_PAD. -/

namespace Sys2Proof.Machine

/-! ### The permutation -/

/-- Lane `A[x][y]` (R260). -/
def laneAt (a : Lanes) (x y : Nat) : DWord := (a.get x).get y

/-- The matrix whose lane `[x][y]` is `f x y`. -/
def lanesFn (f : Nat → Nat → DWord) : Lanes := Five.ofFn fun x => Five.ofFn fun y => f x y

/-- R262: theta. -/
def theta (a : Lanes) : Lanes :=
  let c : Five DWord :=
    Five.ofFn fun x => xor64x5 (laneAt a x 0) (laneAt a x 1) (laneAt a x 2) (laneAt a x 3) (laneAt a x 4)
  let d : Five DWord := Five.ofFn fun x => c.get ((x + 4) % 5) ^^^ rotl64 (c.get ((x + 1) % 5)) 1
  lanesFn fun x y => laneAt a x y ^^^ d.get x

/-- R263: rho and pi.  The rule writes `B[y][(2x + 3y) mod 5]` from `A[x][y]`; read from the target, `B[x][y]` comes from
`A[(x + 3y) mod 5][x]`. -/
def rhoPi (a : Lanes) : Lanes :=
  lanesFn fun x y => rotl64 (laneAt a ((x + 3 * y) % 5) x) ((keccakRot.get ((x + 3 * y) % 5)).get x)

/-- R264: chi. -/
def chi (b : Lanes) : Lanes :=
  lanesFn fun x y => laneAt b x y ^^^ (~~~(laneAt b ((x + 1) % 5) y) &&& laneAt b ((x + 2) % 5) y)

/-- R265: iota, with the round's constant. -/
def iota (rc : DWord) (a : Lanes) : Lanes := { a with e0 := { a.e0 with e0 := a.e0.e0 ^^^ rc } }

/-- R261: one round. -/
def keccakRound (a : Lanes) (rc : DWord) : Lanes := iota rc (chi (rhoPi (theta a)))

/-- R261, R266: `KeccakF(A)`, 24 rounds. -/
def keccakF (a : Lanes) : Lanes := keccakRC.foldl keccakRound a

/-! ### Absorb and squeeze -/

/-- R267: lane `i` of a block, the first word of the pair low. -/
def blockLane (blk : List Word) (i : Nat) : DWord :=
  (blk.getD (2 * i) 0).setWidth 64 ||| ((blk.getD (2 * i + 1) 0).setWidth 64 <<< 32)

/-- R268: the block XORed into the lanes of index below `R/64`. -/
def xorBlock (a : Lanes) (blk : List Word) (rate : Nat) : Lanes :=
  lanesFn fun x y =>
    if x + 5 * y < rate / 64 then laneAt a x y ^^^ blockLane blk (x + 5 * y) else laneAt a x y

/-- R268: `Absorb(A, blk, R)`. -/
def absorb (rate : Nat) (a : Lanes) (blk : List Word) : Lanes := keccakF (xorBlock a blk rate)

/-- R269: the loop of `Squeeze`, with the words emitted so far and the lane offset; each turn emits a word or stops,
so `ob` bounds the number of turns. -/
def squeezeLoop (rate ob : Nat) : Nat → Lanes → List Word → Nat → List Word
  | 0, _, out, _ => out
  | fuel + 1, a, out, off =>
    if 32 * out.length < ob then
      let lane := laneAt a (off % 5) (off / 5)
      let out1 := out ++ [loWord lane]
      let out2 := if 32 * out1.length < ob then out1 ++ [hiWord lane] else out1
      if 64 * (off + 1) = rate ∧ 32 * out2.length < ob then squeezeLoop rate ob fuel (keccakF a) out2 0
      else squeezeLoop rate ob fuel a out2 (off + 1)
    else out

/-- R269: `Squeeze(A, R, ob)`, `ob / 8` bytes. -/
def squeeze (a : Lanes) (rate ob : Nat) : List Byte := unpackLE (squeezeLoop rate ob (ob / 32 + 1) a [] 0) (ob / 8)

/-! ### Padding and finalize -/

/-- R274: the last block: the message bytes left over, zeros, the delimiter at the first free byte, and 0x80 in the
last byte of the block. -/
def lastBlock (rest : List Word) (j : Nat) (d : Byte) (bw : Nat) : List Word :=
  ((extendTo 0 bw rest).modify (j >>> 2) (· ^^^ (d.setWidth 32 <<< (8 * (j % 4))))).modify (bw - 1)
    (· ^^^ (0x80000000 : Word))

/-- R276: `SHA3Finalize(A, M, d, R, ob)`. -/
def sha3Finalize (a : Lanes) (m : List Byte) (d : Byte) (rate ob : Nat) : List Byte :=
  let bw := rate / 32
  let full := 8 * m.length / rate
  let left := 8 * m.length - full * rate
  let a' := foldBlocks bw (absorb rate) full a (packLE m)
  squeeze (absorb rate a' (lastBlock ((packLE m).drop (full * bw)) (left >>> 3) d bw)) rate ob

/-! ### The encoders of SP 800-185 -/

/-- R279: `bits(x)`, the position of the highest 1 bit plus one. -/
def bitsOf (x : Nat) : Nat := if x = 0 then 0 else Nat.log2 x + 1

/-- R279: `nbytes(x) = max(1, ⌈bits(x)/8⌉)`. -/
def nbytesOf (x : Nat) : Nat := max 1 ((bitsOf x + 7) / 8)

/-- R279: `BE_n(x)`, the n-byte big-endian form. -/
def beBytes (n x : Nat) : List Byte := (List.range n).map fun i => BitVec.ofNat 8 (x / 2 ^ (8 * (n - 1 - i)))

/-- R280: `LeftEncode(x)`. -/
def leftEncode (x : Nat) : List Byte := BitVec.ofNat 8 (nbytesOf x) :: beBytes (nbytesOf x) x

/-- R281: `RightEncode(x)`. -/
def rightEncode (x : Nat) : List Byte := beBytes (nbytesOf x) x ++ [BitVec.ofNat 8 (nbytesOf x)]

/-- R282: `EncodeString(S) = LeftEncode(bitlen(S)) || S`. -/
def encodeString (s : List Byte) : List Byte := leftEncode (8 * s.length) ++ s

/-- R283: `BytePad(X, w)`: `LeftEncode(w) || X`, zero-filled to the next multiple of `w`. -/
def bytePad (x : List Byte) (w : Nat) : List Byte :=
  let z := leftEncode w ++ x
  z ++ List.replicate ((w - z.length % w) % w) 0

/-! ### The test port -/

/-- KECCAK_F (R270). -/
def execKeccakF (s : State) : Answer :=
  portCommand (dinLanes.map keccakF) noChecks (fun a => wordsOf (laneList a)) s

/-- SHA3_ABSORB (R272). -/
def execSha3Absorb (v : Variant) (s : State) : Answer :=
  portCommand (dinLanes.bind fun a => (dinWords (blockBits v / 32)).map (absorb (blockBits v) a)) noChecks
    (fun a => wordsOf (laneList a)) s

/-- The operands of SHA3_FINALIZE, in order (R278). -/
structure Sha3Operands where
  a : Lanes
  ob : Nat
  m : WireString

/-- Taking them. -/
def dinSha3 : Din Sha3Operands :=
  dinLanes.bind fun a => dinLen.bind fun ob => dinString.map fun m => { a := a, ob := ob, m := m }

/-- R278: the checks of SHA3_FINALIZE, in priority order. -/
def sha3Checks (params : Config.Params) (x : Sha3Operands) : Checks :=
  [(x.m.unaligned, .unalignedLength),
   (decide (x.m.bitLen > params.maxTotalBits), .lengthLimit),
   (x.ob % 8 != 0, .outputLenNotByte),
   (decide (x.ob > params.maxOutputBits), .lengthLimit)]

/-- SHA3_FINALIZE (R278); VAR selects the rate and IMM8 is the delimiter. -/
def execSha3Finalize (v : Variant) (d : Byte) (s : State) : Answer :=
  portCommand dinSha3 sha3Checks
    (fun x => stringWords .le (sha3Finalize x.a (x.m.bytes .le) d (blockBits v) x.ob)) s

/-- LEFT_ENCODE (R280). -/
def execLeftEncode (s : State) : Answer :=
  portCommand dinLen noChecks (fun x => stringWords .le (leftEncode x)) s

/-- RIGHT_ENCODE (R281). -/
def execRightEncode (s : State) : Answer :=
  portCommand dinLen noChecks (fun x => stringWords .le (rightEncode x)) s

/-- R194 (1), (2): the checks of a string operand. -/
def stringChecks (params : Config.Params) (x : WireString) : Checks :=
  [(x.unaligned, .unalignedLength), (decide (x.bitLen > params.maxTotalBits), .lengthLimit)]

/-- ENCODE_STRING (R282). -/
def execEncodeString (s : State) : Answer :=
  portCommand dinString stringChecks (fun x => stringWords .le (encodeString (x.bytes .le))) s

/-- BYTE_PAD (R283): `UNALIGNED_LENGTH`, `LENGTH_LIMIT`, then `OPERAND_RANGE` for w = 0.  No check bounds its result, which
may reach 2^64 bits: then the result's length words are a free value (`stringLen`, assumption 20). -/
def execBytePad (s : State) : Answer :=
  portCommand (dinWord.bind fun w => dinString.map fun x => (w, x))
    (fun params x => stringChecks params x.2 ++ [(x.1 == 0, .operandRange)])
    (fun x => stringWords .le (bytePad (x.2.bytes .le) x.1.toNat)) s

end Sys2Proof.Machine
end

