-- ==== Sys2Proof/Machine/Engine.lean ====
section
/-! DEFINITION. The streaming engine and the HMAC controller (spec 42_engine_hmac.md): the family dispatch (R170 to R172),
the key set-up (R177, R178), the cSHAKE and KMAC prefixes (45_sha3.md R284 to R289), and the six context commands. -/

namespace Sys2Proof.Machine

/-! ### Family dispatch -/

/-- R170: `NewState(v)`. -/
def newState : Variant → HashState
  | .sha1 => .sha1 ivSha1
  | .sha224 => .sha256 ivSha224
  | .sha256 => .sha256 ivSha256
  | .sha384 => .sha512 ivSha384
  | .sha512 => .sha512 ivSha512
  | .sha3x224 | .sha3x256 | .sha3x384 | .sha3x512 | .shake128 | .shake256
  | .cshake128 | .cshake256 | .kmac128 | .kmac256 => .sha3 zeroLanes

/-- R171: `Compress(v, H, blk)`.  The case on `FAMILY(v)` is made on the shape of `H`, which is the family's in every
context (R32; assumption 7). -/
def compress (v : Variant) (h : HashState) (blk : List Byte) : HashState :=
  match h with
  | .sha1 h => .sha1 (sha1Compress h (packBE blk))
  | .sha256 h => .sha256 (sha256Compress h (packBE blk))
  | .sha512 h => .sha512 (sha512Compress h (packBE blk))
  | .sha3 a => .sha3 (absorb (blockBits v) a (packLE blk))

/-- R172: `Finalize(v, M, P, H, ob, d)`; "For the fixed-output variants `ob = OUT_BITS(v)`". -/
def finalize (v : Variant) (m : List Byte) (p : Nat) (h : HashState) (ob : Nat) (d : Byte) : List Byte :=
  match h with
  | .sha1 h => unpackBE (sha1Finalize m p h).toList (ob / 8)
  | .sha256 h => unpackBE ((sha256Finalize m p h).toList.take (ob / 32)) (ob / 8)
  | .sha512 h => unpackBE ((wordsOf (sha512Finalize m p h).toList).take (ob / 32)) (ob / 8)
  | .sha3 a => sha3Finalize a m d (blockBits v) ob

/-- R173: `OutBits(v, p, L)`, `L` none where `p = 0`. -/
def outBitsOf (params : Config.Params) (v : Variant) (l : Option Nat) : Except Error Nat :=
  match outBits v with
  | some n => .ok n
  | none =>
    match l with
    | none => .error .outputLenMissing
    | some l => checked [(l % 8 != 0, .outputLenNotByte), (decide (l > params.maxOutputBits), .lengthLimit)] l

/-! ### HMAC key set-up -/

/-- R177: a key longer than a block is replaced by its own digest, from a fresh state with zero bits processed. -/
def shortenKey (v : Variant) (key : List Byte) : List Byte :=
  if key.length > blockBytes v then finalize v key 0 (newState v) ((outBits v).getD 0) 0x06 else key

/-- R177: `K = key' || 0^(B − len(key'))`. -/
def paddedKey (v : Variant) (key : List Byte) : List Byte := extendTo 0 (blockBytes v) (shortenKey v key)

/-- R178: a byte string with every byte XORed with the pad byte (R49). -/
def xorPad (pad : Byte) (k : List Byte) : List Byte := k.map (· ^^^ pad)

/-- R178: `ApplyHmacKey(key)`. -/
def applyHmacKey (key : List Byte) (c : Context) : Context :=
  let k := paddedKey c.variant key
  { c with
    ipad := some (pack (orderOf c.variant) (xorPad ipadByte k))
    opad := some (pack (orderOf c.variant) (xorPad opadByte k))
    h := compress c.variant c.h (xorPad ipadByte k)
    processedBits := blockBits c.variant
    macKeySet := true }

/-! ### cSHAKE and KMAC -/

/-- R284: `AbsorbPrefix(X)`. -/
def absorbPrefix (x : List Byte) (c : Context) : Context :=
  { c with
    h := foldBlocks (blockBytes c.variant) (compress c.variant) (x.length / blockBytes c.variant) c.h x
    processedBits := c.processedBits + 8 * x.length }

/-- R286: the prefix block(s) of cSHAKE. -/
def cshakePrefix (v : Variant) (fn cust : List Byte) : List Byte :=
  bytePad (encodeString fn ++ encodeString cust) (blockBytes v)

/-- R287: the key block(s) of KMAC. -/
def kmacKeyBlocks (v : Variant) (key : List Byte) : List Byte := bytePad (encodeString key) (blockBytes v)

/-- The four ASCII bytes "KMAC" (R9, R287). -/
def kmacName : List Byte := [0x4b, 0x4d, 0x41, 0x43]

/-- R286: `CShakeInit(fn, cust)`. -/
def cshakeInit (fn cust : List Byte) (c : Context) : Context :=
  if fn.isEmpty && cust.isEmpty then { c with delim := some 0x1F }
  else { absorbPrefix (cshakePrefix c.variant fn cust) c with delim := some 0x04 }

/-- R287: `KmacInit(key, cust)`. -/
def kmacInit (key cust : List Byte) (c : Context) : Context :=
  let c' := cshakeInit kmacName cust c
  { absorbPrefix (kmacKeyBlocks c.variant key) c' with macKeySet := true }

/-- R289: `KmacFinalize(A, REM, ob)`. -/
def kmacFinalize (c : Context) (ob : Nat) : List Byte :=
  finalize c.variant (c.rem ++ rightEncode ob) c.processedBits c.h ob (c.delim.getD Config.absentDelim)

/-! ### INIT -/

/-- The operands of INIT (R180). -/
structure InitOperands where
  nr : Word
  key : Option WireString
  fn : Option WireString
  cust : Option WireString

/-- Taking them, each string where its flag is set (R98, R180). -/
def dinInit (p f c : Bool) : Din InitOperands :=
  dinWord.bind fun nr => (dinString.when p).bind fun key => (dinString.when f).bind fun fn =>
    (dinString.when c).map fun cust => { nr := nr, key := key, fn := fn, cust := cust }

/-- The bytes of an optional string: absent, the empty string (R98). -/
def bytesOr (order : ByteOrder) (w : Option WireString) : List Byte :=
  match w with
  | some w => w.bytes order
  | none => []

/-- Some operand string has this property. -/
def InitOperands.anyString (x : InitOperands) (bad : WireString → Bool) : Bool :=
  x.key.any bad || x.fn.any bad || x.cust.any bad

/-- R174: `PrefixBits(v, key, fn, cust)`. -/
def prefixBits (v : Variant) (keyed : Bool) (key fn cust : List Byte) : Nat :=
  if isCshake v then
    if fn.isEmpty && cust.isEmpty then 0 else 8 * (cshakePrefix v fn cust).length
  else if isKmac v then 8 * (cshakePrefix v kmacName cust).length + 8 * (kmacKeyBlocks v key).length
  else if keyed && hmacOk v then blockBits v
  else 0

/-- R180, R307: the checks of INIT after `INVALID_VARIANT`, in order. -/
def initChecks (params : Config.Params) (v : Variant) (x : InitOperands) : Checks :=
  let order := orderOf v
  [(x.anyString WireString.unaligned, .unalignedLength),
   (x.nr == 0, .invalidNumRounds),
   (x.key.isSome && hasNoMac v, .macUnsupported),
   (x.key.isNone && isKmac v, .missingKey),
   (x.nr != 1 && isCshake v, .roundsWithCshake),
   (decide (x.nr.toNat > 1) && (x.key.isSome || isKmac v), .roundsWithMac),
   (x.anyString (fun w => decide (w.bitLen > params.maxTotalBits)) ||
      decide (prefixBits v x.key.isSome (bytesOr order x.key) (bytesOr order x.fn) (bytesOr order x.cust)
        > params.maxTotalBits), .lengthLimit)]

/-- R180: the registers INIT writes before any prefix or key. -/
def freshContext (v : Variant) (nr : Word) : Context where
  variant := v
  numRounds := nr
  updateCalled := false
  macKeySet := false
  delim := initDelim v
  h := newState v
  rem := []
  processedBits := 0
  ipad := none
  opad := none

/-- R180: the prefix and the key absorbed into a fresh context. -/
def keyContext (v : Variant) (key : Option (List Byte)) (fn cust : List Byte) (c : Context) : Context :=
  if isCshake v then cshakeInit fn cust c
  else if isKmac v then kmacInit (key.getD []) cust c
  else
    match key with
    | some k => if hmacOk v then applyHmacKey k c else c
    | none => c

/-- R180: the context INIT constructs, or the error it raises. -/
def buildContext (v : Option Variant) (params : Config.Params) (x : InitOperands) : Except Error Context :=
  match v with
  | none => .error .invalidVariant
  | some v =>
    checked (initChecks params v x)
      (keyContext v (x.key.map (WireString.bytes (orderOf v))) (bytesOr (orderOf v) x.fn) (bytesOr (orderOf v) x.cust)
        (freshContext v x.nr))

/-- INIT (R180). -/
def execInit (v : Option Variant) (p f c : Bool) (s : State) : Answer :=
  constructCommand (dinInit p f c) (buildContext v) s

/-! ### UPDATE and SET_HMAC_KEY -/

/-- R182: the checks of UPDATE after the common entry. -/
def updateChecks (params : Config.Params) (c : Context) (x : WireString) : Checks :=
  [(x.unaligned, .unalignedLength),
   (decide (c.processedBits + 8 * c.rem.length + x.bitLen > params.maxTotalBits), .lengthLimit)]

/-- R182: the context after absorbing `data`: every complete block compressed, the rest kept. -/
def absorbData (data : List Byte) (c : Context) : Context :=
  let b := blockBytes c.variant
  let buf := c.rem ++ data
  let nb := buf.length / b
  { c with
    h := foldBlocks b (compress c.variant) nb c.h buf
    processedBits := c.processedBits + nb * blockBits c.variant
    rem := buf.drop (nb * b)
    updateCalled := true }

/-- UPDATE (R182). -/
def execUpdate (s : State) : Answer :=
  boundCommand dinString
    (fun params c x => checked (updateChecks params c x) (absorbData (x.bytes (orderOf c.variant)) c, [])) s

/-- R184: the checks of SET_HMAC_KEY after the common entry, in order. -/
def setKeyChecks (params : Config.Params) (c : Context) (x : WireString) : Checks :=
  [(x.unaligned, .unalignedLength),
   (!hmacOk c.variant, .macUnsupported),
   (c.macKeySet, .keyAlreadySet),
   (c.updateCalled, .keyAfterUpdate),
   (decide (c.numRounds.toNat > 1), .roundsWithMac),
   (decide (x.bitLen > params.maxTotalBits) || decide (blockBits c.variant > params.maxTotalBits), .lengthLimit)]

/-- SET_HMAC_KEY (R184). -/
def execSetHmacKey (s : State) : Answer :=
  boundCommand dinString
    (fun params c x => checked (setKeyChecks params c x) (applyHmacKey (x.bytes (orderOf c.variant)) c, [])) s

/-! ### The GET commands: they compute on copies and write no register (R192) -/

/-- `f` applied `n` times. -/
def repeated {α : Type} (f : α → α) : Nat → α → α
  | 0, a => a
  | n + 1, a => repeated f n (f a)

/-- R186: the digest of the context, and of its digests in turn, `NUM_ROUNDS` rounds in all. -/
def digest (c : Context) (ob : Nat) : List Byte :=
  let d := c.delim.getD Config.absentDelim
  repeated (fun m => finalize c.variant m 0 (newState c.variant) ob d) (c.numRounds.toNat - 1)
    (finalize c.variant c.rem c.processedBits c.h ob d)

/-- R186: the result of GET_HASH. -/
def hashResult (params : Config.Params) (c : Context) (l : Option Nat) : Except Error (List Byte) :=
  if c.macKeySet then .error .hashOnKeyed
  else
    match outBitsOf params c.variant l with
    | .error e => .error e
    | .ok ob => .ok (digest c ob)

/-- R188: the outer hash over the inner one. -/
def hmacDigest (c : Context) (opad : List Word) : List Byte :=
  let v := c.variant
  let ob := (outBits v).getD 0
  let d := c.delim.getD Config.absentDelim
  let inner := finalize v c.rem c.processedBits c.h ob d
  let ho := compress v (newState v) (unpack (orderOf v) opad (blockBytes v))
  finalize v inner (blockBits v) ho ob d

/-- R188: the result of GET_HMAC.  `CTX.OPAD` has a value whenever an HMAC key is set (R35, R54 (d)). -/
def hmacResult (c : Context) : Except Error (List Byte) :=
  match firstError [(!hmacOk c.variant, .macUnsupported), (!c.macKeySet, .macWithoutKey)] with
  | some e => .error e
  | none =>
    match c.opad with
    | none => .error .macWithoutKey
    | some opad => .ok (hmacDigest c opad)

/-- R190: the result of GET_MAC. -/
def macResult (params : Config.Params) (c : Context) (l : Option Nat) : Except Error (List Byte) :=
  match firstError [(hasNoMac c.variant, .macUnsupported), (!c.macKeySet, .macWithoutKey)] with
  | some e => .error e
  | none =>
    if isKmac c.variant then
      match outBitsOf params c.variant l with
      | .error e => .error e
      | .ok ob => .ok (kmacFinalize c ob)
    else hmacResult c

/-- A GET: the context as it was, and the result string in the variant's order (R77, R192). -/
def getAnswer (c : Context) (r : Except Error (List Byte)) : Except Error (Context × List Word) :=
  match r with
  | .error e => .error e
  | .ok digest => .ok (c, stringWords (orderOf c.variant) digest)

/-- GET_HASH (R186). -/
def execGetHash (p : Bool) (s : State) : Answer :=
  boundCommand (dinLen.when p) (fun params c l => getAnswer c (hashResult params c l)) s

/-- GET_HMAC (R188). -/
def execGetHmac (s : State) : Answer :=
  boundCommand (Din.pure ()) (fun _ c _ => getAnswer c (hmacResult c)) s

/-- GET_MAC (R190). -/
def execGetMac (p : Bool) (s : State) : Answer :=
  boundCommand (dinLen.when p) (fun params c l => getAnswer c (macResult params c l)) s

end Sys2Proof.Machine
end

