-- ==== Sys2Proof/Machine/Dispatch.lean ====
section
/-! DEFINITION. The dispatch: one arm per command, each one call of its meaning (spec 30_encoding.md R92). -/

namespace Sys2Proof.Machine

def exec (i : Instr) (s : State) : Host.Outcome State Fault Refusal :=
  match i with
  | .init v p f c => Sys2Proof.Machine.execInit v p f c s
  | .update => Sys2Proof.Machine.execUpdate s
  | .setHmacKey => Sys2Proof.Machine.execSetHmacKey s
  | .getHash p => Sys2Proof.Machine.execGetHash p s
  | .getHmac => Sys2Proof.Machine.execGetHmac s
  | .getMac p => Sys2Proof.Machine.execGetMac p s
  | .sha1Compress => Sys2Proof.Machine.execSha1Compress s
  | .sha1Finalize => Sys2Proof.Machine.execSha1Finalize s
  | .sha256Compress => Sys2Proof.Machine.execSha256Compress s
  | .sha256Finalize v => Sys2Proof.Machine.execSha256Finalize v s
  | .sha512Compress => Sys2Proof.Machine.execSha512Compress s
  | .sha512Finalize v => Sys2Proof.Machine.execSha512Finalize v s
  | .keccakF => Sys2Proof.Machine.execKeccakF s
  | .sha3Absorb v => Sys2Proof.Machine.execSha3Absorb v s
  | .sha3Finalize v d => Sys2Proof.Machine.execSha3Finalize v d s
  | .leftEncode => Sys2Proof.Machine.execLeftEncode s
  | .rightEncode => Sys2Proof.Machine.execRightEncode s
  | .encodeString => Sys2Proof.Machine.execEncodeString s
  | .bytePad => Sys2Proof.Machine.execBytePad s
  | .rotl32 n => Sys2Proof.Machine.execRotl32 n s
  | .rotr32 n => Sys2Proof.Machine.execRotr32 n s
  | .shr32 n => Sys2Proof.Machine.execShr32 n s
  | .ch32 => Sys2Proof.Machine.execCh32 s
  | .parity32 => Sys2Proof.Machine.execParity32 s
  | .maj32 => Sys2Proof.Machine.execMaj32 s
  | .sigma0x256 => Sys2Proof.Machine.execSigma0x256 s
  | .sigma1x256 => Sys2Proof.Machine.execSigma1x256 s
  | .gamma0x256 => Sys2Proof.Machine.execGamma0x256 s
  | .gamma1x256 => Sys2Proof.Machine.execGamma1x256 s
  | .add32x2 => Sys2Proof.Machine.execAdd32x2 s
  | .add32x4 => Sys2Proof.Machine.execAdd32x4 s
  | .add32x5 => Sys2Proof.Machine.execAdd32x5 s
  | .rotl64 n => Sys2Proof.Machine.execRotl64 n s
  | .rotr64 n => Sys2Proof.Machine.execRotr64 n s
  | .shr64 n => Sys2Proof.Machine.execShr64 n s
  | .xor64x2 => Sys2Proof.Machine.execXor64x2 s
  | .xor64x5 => Sys2Proof.Machine.execXor64x5 s
  | .add64x2 => Sys2Proof.Machine.execAdd64x2 s
  | .add64x4 => Sys2Proof.Machine.execAdd64x4 s
  | .add64x5 => Sys2Proof.Machine.execAdd64x5 s
  | .ch64 => Sys2Proof.Machine.execCh64 s
  | .maj64 => Sys2Proof.Machine.execMaj64 s
  | .sigma0x512 => Sys2Proof.Machine.execSigma0x512 s
  | .sigma1x512 => Sys2Proof.Machine.execSigma1x512 s
  | .gamma0x512 => Sys2Proof.Machine.execGamma0x512 s
  | .gamma1x512 => Sys2Proof.Machine.execGamma1x512 s

end Sys2Proof.Machine
end

