-- ==== Sys2Proof/Machine/Step.lean ====
section
/-! DEFINITION. One step of the engine: it takes the next command word from `CMD` and runs its command to the end (spec
20_memory.md R80, 30_encoding.md R100, 70_reset_and_hazards.md R339, R340). -/

namespace Sys2Proof.Machine

/-- One step.  With no command word on `CMD` the engine is idle and nothing changes (R340).  An illegal word raises
`ILLEGAL_COMMAND` (R93, R305).  A legal one is run: the command word and its operand words are taken by the command's
meaning, which waits, changing nothing, while `DIN` does not yet hold all of them (assumption 4). -/
def step (s : State) : Host.Outcome State Fault Refusal :=
  match s.cmd with
  | [] => .next s
  | w :: _ =>
    match decode w with
    | .illegal _ => .next (s.rejectCommand w)
    | .instr i => exec i s

/-- The operand words of an instruction numbered as the opcode table numbers its bits: the 32-bit words after the
first, as many as the command takes when they are all zero. -/
def tableOperands (nbits w : Nat) : List Word :=
  match decodeTableWord nbits w with
  | none => []
  | some i => (List.range i.zeroOperandWords).map fun k => BitVec.ofNat 32 ((w % 2 ^ nbits) >>> (32 * (k + 1)))

/-- The host has written this instruction next: its command word at the head of `CMD`, its operand words at the head
of `DIN` (assumption 3). -/
def State.withFetchWord (s : State) (nbits w : Nat) : State :=
  { s with cmd := tableCommandWord nbits w :: s.cmd, din := tableOperands nbits w ++ s.din }

end Sys2Proof.Machine
end

