-- ==== Sys2Proof/Machine/Assembler.lean ====
section
/-! DEFINITION. The assembler of the engine (spec 30_encoding.md R101 to R103) and the run of a program (70_reset_and_hazards.md
R340): the lines as data, the words each line stands for, the pseudo-instructions and their expansions, the reader of a
line's text, and what a host observes of a run.  No rule of the machine depends on this file: it is how the host writes programs. -/

namespace Sys2Proof.Machine

/-! ### Lines as data -/

/-- An operand of a test-port line, in one of the four wire forms of R77. -/
inductive Operand
  | word32 (w : Word)
  | word64 (v : DWord)
  | len64 (n : Nat)
  | bytes (order : ByteOrder) (s : List Byte)
deriving DecidableEq, Repr

/-- The words an operand travels as (R77). -/
def Operand.words : Operand → List Word
  | .word32 w => [w]
  | .word64 v => [hiWord v, loWord v]
  | .len64 n => lenWords n
  | .bytes order s => stringWords order s

/-- One line of a program (R101).  The lines of the test port are one form: the command with the fields of its word, and
its operands in order. -/
inductive Line
  | init (v : Variant) (rounds : Word) (key fn cust : Option (List Byte))
  | update (data : List Byte)
  | setHmacKey (key : List Byte)
  | getHash (len : Option Nat)
  | getHmac
  | getMac (len : Option Nat)
  | port (i : Instr) (operands : List Operand)
deriving DecidableEq, Repr

/-- A command as the host issues it: the command word for `CMD` and the operand words for `DIN`. -/
structure Issue where
  word : Word
  operands : List Word
deriving DecidableEq, Repr

/-- An optional string operand: the words of the string where it is given (R98). -/
def optionWords (order : ByteOrder) : Option (List Byte) → List Word
  | some s => stringWords order s
  | none => []

/-- An optional length operand (R98). -/
def optionLen : Option Nat → List Word
  | some n => lenWords n
  | none => []

/-- R305, R336 (g): the host writes no operand words after a word that is not legal. -/
def issueOf (i : Instr) (operands : List Word) : Issue :=
  { word := encode i, operands := if i.wellFormed then operands else [] }

/-- R101, R103: the words of a line.  The strings of a context command are packed in the order of the variant the last
INIT of the program named (R75); `order` is that order. -/
def Line.issue (order : ByteOrder) : Line → Issue
  | .init v rounds key fn cust =>
    issueOf (.init (some v) key.isSome fn.isSome cust.isSome)
      (rounds :: optionWords (orderOf v) key ++ optionWords (orderOf v) fn ++ optionWords (orderOf v) cust)
  | .update data => issueOf .update (stringWords order data)
  | .setHmacKey key => issueOf .setHmacKey (stringWords order key)
  | .getHash len => issueOf (.getHash len.isSome) (optionLen len)
  | .getHmac => issueOf .getHmac []
  | .getMac len => issueOf (.getMac len.isSome) (optionLen len)
  | .port i operands => issueOf i (operands.flatMap Operand.words)

/-- The order in force after a line. -/
def Line.orderAfter (order : ByteOrder) : Line → ByteOrder
  | .init v _ _ _ _ => orderOf v
  | .update _ | .setHmacKey _ | .getHash _ | .getHmac | .getMac _ | .port .. => order

/-- The words of a program, line by line. -/
def assemble (order : ByteOrder) : List Line → List Issue
  | [] => []
  | l :: ls => l.issue order :: assemble (l.orderAfter order) ls

/-! ### Pseudo-instructions (R102) -/

/-- `HASH v, data [, len]`. -/
def pseudoHash (v : Variant) (data : List Byte) (len : Option Nat) : List Line :=
  [.init v 1 none none none, .update data, .getHash len]

/-- `HMAC v, key, data`. -/
def pseudoHmac (v : Variant) (key data : List Byte) : List Line :=
  [.init v 1 (some key) none none, .update data, .getHmac]

/-- `KMAC v, key, data, len [, cust]`. -/
def pseudoKmac (v : Variant) (key data : List Byte) (len : Nat) (cust : Option (List Byte)) : List Line :=
  [.init v 1 (some key) none cust, .update data, .getMac (some len)]

/-- `HASHN v, rounds, data`. -/
def pseudoHashN (v : Variant) (rounds : Word) (data : List Byte) : List Line :=
  [.init v rounds none none none, .update data, .getHash none]

/-! ### The run of a program (R340) -/

/-- What a host observes of one command: the `STATUS` it left and the result words it wrote (R340). -/
abbrev Observation := BitVec 8 × List Word

/-- The host issues a command, the engine runs it, and the host reads `STATUS` and every result word (R336, R340). -/
def State.perform (x : Issue) (s : State) : Observation × State :=
  match step (s.issue x.word x.operands) with
  | .next t => ((t.status, t.dout), { t with dout := [] })
  | .fault _ => ((s.status, []), s)
  | .refused _ => ((s.status, []), s)

/-- A run: one observation per command, and the state it leaves. -/
def State.runIssues : List Issue → State → List Observation × State
  | [], s => ([], s)
  | x :: xs, s =>
    let (o, s') := s.perform x
    let (os, s'') := s'.runIssues xs
    (o :: os, s'')

/-- The run of a program's lines from a state whose context, if it has one, fixes the byte order. -/
def State.runLines (ls : List Line) (s : State) : List Observation × State :=
  s.runIssues (assemble (match s.ctx with | some c => orderOf c.variant | none => .be) ls)

/-! ### Reading a line's text (R101) -/

/-- The value of a hexadecimal digit. -/
def hexDigit (c : Char) : Option Nat :=
  if '0' ≤ c ∧ c ≤ '9' then some (c.toNat - 48)
  else if 'a' ≤ c ∧ c ≤ 'f' then some (c.toNat - 87)
  else if 'A' ≤ c ∧ c ≤ 'F' then some (c.toNat - 55)
  else none

/-- Digits of a base read from the left, after the value read so far. -/
def readDigits (base acc : Nat) : List Char → Option Nat
  | [] => some acc
  | c :: cs =>
    match hexDigit c with
    | some d => if d < base then readDigits base (base * acc + d) cs else none
    | none => none

/-- Some digits, not none. -/
def readNumber (base : Nat) : List Char → Option Nat
  | [] => none
  | cs => readDigits base 0 cs

/-- `<n>`: a decimal or `0x` natural. -/
def readNat : List Char → Option Nat
  | '0' :: 'x' :: cs => readNumber 16 cs
  | cs => readNumber 10 cs

/-- A value of a word list: hexadecimal, with or without `0x`. -/
def readHex : List Char → Option Nat
  | '0' :: 'x' :: cs => readNumber 16 cs
  | cs => readNumber 16 cs

/-- Pairs of hexadecimal digits as bytes; an odd digit left over is no byte string. -/
def readHexBytes : List Char → Option (List Byte)
  | [] => some []
  | a :: b :: rest =>
    match hexDigit a, hexDigit b, readHexBytes rest with
    | some x, some y, some s => some (BitVec.ofNat 8 (16 * x + y) :: s)
    | _, _, _ => none
  | [_] => none

/-- The rest of a double-quoted ASCII string. -/
def readQuoted : List Char → Option (List Byte)
  | ['"'] => some []
  | [] => none
  | c :: cs => if c = '"' ∨ 128 ≤ c.toNat then none else (readQuoted cs).map (BitVec.ofNat 8 c.toNat :: ·)

/-- `<bytes>`. -/
def readBytes : List Char → Option (List Byte)
  | 'h' :: 'e' :: 'x' :: ':' :: cs => readHexBytes cs
  | '"' :: cs => readQuoted cs
  | _ => none

/-- `<variant>`: a name of R2, with cSHAKE in the spelling of R2 or of R11. -/
def readVariant (cs : List Char) : Option Variant :=
  match String.ofList cs with
  | "SHA-1" => some .sha1
  | "SHA-224" => some .sha224
  | "SHA-256" => some .sha256
  | "SHA-384" => some .sha384
  | "SHA-512" => some .sha512
  | "SHA3-224" => some .sha3x224
  | "SHA3-256" => some .sha3x256
  | "SHA3-384" => some .sha3x384
  | "SHA3-512" => some .sha3x512
  | "SHAKE128" => some .shake128
  | "SHAKE256" => some .shake256
  | "CSHAKE128" | "cSHAKE128" => some .cshake128
  | "CSHAKE256" | "cSHAKE256" => some .cshake256
  | "KMAC128" => some .kmac128
  | "KMAC256" => some .kmac256
  | _ => none

/-- The text after a prefix. -/
def afterPrefix : List Char → List Char → Option (List Char)
  | [], cs => some cs
  | p :: ps, c :: cs => if p = c then afterPrefix ps cs else none
  | _ :: _, [] => none

/-- Blanks at both ends dropped. -/
def trimBlanks (cs : List Char) : List Char := ((cs.dropWhile (· = ' ')).reverse.dropWhile (· = ' ')).reverse

/-- The pieces between the commas that stand outside quotes. -/
def splitCommas (quoted : Bool) (piece : List Char) : List Char → List (List Char)
  | [] => [piece.reverse]
  | c :: cs =>
    if c = ',' ∧ quoted = false then piece.reverse :: splitCommas quoted [] cs
    else splitCommas (if c = '"' then !quoted else quoted) (c :: piece) cs

/-- The arguments of a line: none where the rest of the line is blank. -/
def readArgs (cs : List Char) : List (List Char) :=
  match trimBlanks cs with
  | [] => []
  | cs => (splitCommas false [] cs).map trimBlanks

/-- A named argument `name=value` taken from the arguments, wherever it stands. -/
def takeNamed (name : String) : List (List Char) → Option (List Char) × List (List Char)
  | [] => (none, [])
  | a :: rest =>
    match afterPrefix name.toList a with
    | some v => (some v, rest)
    | none =>
      let (found, others) := takeNamed name rest
      (found, a :: others)

/-- A named argument, absent or read whole. -/
def optional {α : Type} (read : List Char → Option α) : Option (List Char) → Option (Option α)
  | none => some none
  | some cs => (read cs).map some

/-- The forms of a test-port line's operands (R92 "operands in"). -/
inductive Form
  | word
  | u64
  | natural
  | length
  | processed
  | outputLen
  | bytes (order : ByteOrder)
deriving DecidableEq, Repr

/-- The operands a test-port command takes, in order (R92). -/
def operandForms : Instr → List Form
  | .init .. | .update | .setHmacKey | .getHash _ | .getHmac | .getMac _ => []
  | .sha1Compress => List.replicate 21 .word
  | .sha1Finalize => List.replicate 5 .word ++ [.processed, .bytes .be]
  | .sha256Compress => List.replicate 24 .word
  | .sha256Finalize _ => List.replicate 8 .word ++ [.processed, .bytes .be]
  | .sha512Compress => List.replicate 8 .u64 ++ List.replicate 32 .word
  | .sha512Finalize _ => List.replicate 8 .u64 ++ [.processed, .bytes .be]
  | .keccakF => List.replicate 25 .u64
  | .sha3Absorb v => List.replicate 25 .u64 ++ List.replicate (sha3BlockWords v) .word
  | .sha3Finalize .. => List.replicate 25 .u64 ++ [.outputLen, .bytes .le]
  | .leftEncode | .rightEncode => [.length]
  | .encodeString => [.bytes .le]
  | .bytePad => [.natural, .bytes .le]
  | .rotl32 _ | .rotr32 _ | .shr32 _ | .sigma0x256 | .sigma1x256 | .gamma0x256 | .gamma1x256 => [.word]
  | .add32x2 => [.word, .word]
  | .ch32 | .parity32 | .maj32 => [.word, .word, .word]
  | .add32x4 => List.replicate 4 .word
  | .add32x5 => List.replicate 5 .word
  | .rotl64 _ | .rotr64 _ | .shr64 _ | .sigma0x512 | .sigma1x512 | .gamma0x512 | .gamma1x512 => [.u64]
  | .xor64x2 | .add64x2 => [.u64, .u64]
  | .ch64 | .maj64 => [.u64, .u64, .u64]
  | .add64x4 => List.replicate 4 .u64
  | .xor64x5 | .add64x5 => List.replicate 5 .u64

/-- A value that fits a width. -/
def fits (bits : Nat) (n : Option Nat) : Option Nat := n.filter (· < 2 ^ bits)

/-- One operand's text, read in its form. -/
def readOperand (form : Form) (cs : List Char) : Option Operand :=
  match form with
  | .word => (fits 32 (readHex cs)).map fun n => .word32 (BitVec.ofNat 32 n)
  | .u64 => (fits 64 (readHex cs)).map fun n => .word64 (BitVec.ofNat 64 n)
  | .natural => (fits 32 (readNat cs)).map fun n => .word32 (BitVec.ofNat 32 n)
  | .length => (fits 64 (readNat cs)).map .len64
  | .processed => (fits 64 ((afterPrefix "processed=".toList cs).bind readNat)).map .len64
  | .outputLen => (fits 64 ((afterPrefix "len=".toList cs).bind readNat)).map .len64
  | .bytes order => (readBytes cs).map (.bytes order)

/-- Operands read each in its form, as many as there are forms. -/
def readOperands : List Form → List (List Char) → Option (List Operand)
  | [], [] => some []
  | f :: fs, a :: rest =>
    match readOperand f a, readOperands fs rest with
    | some o, some os => some (o :: os)
    | _, _ => none
  | _, _ => none

/-- A test-port line of this command.  A field value R95 to R97 do not admit is no error here: the line stands for the
illegal word (R310's `ROTL32 #4`). -/
def readPort (i : Instr) (args : List (List Char)) : Option Line := (readOperands (operandForms i) args).map (.port i)

/-- A test-port line whose first argument is the amount `#n`. -/
def readAmount (mk : BitVec 6 → Instr) : List (List Char) → Option Line
  | ('#' :: n) :: args =>
    match fits 6 (readNat n) with
    | some n => readPort (mk (BitVec.ofNat 6 n)) args
    | none => none
  | _ => none

/-- A test-port line whose first argument is a variant. -/
def readWithVariant (mk : Variant → Instr) : List (List Char) → Option Line
  | v :: args =>
    match readVariant v with
    | some v => readPort (mk v) args
    | none => none
  | [] => none

/-- SHA3_FINALIZE: the variant, then the delimiter. -/
def readSha3Finalize : List (List Char) → Option Line
  | v :: d :: args =>
    match readVariant v, fits 8 ((afterPrefix "delim=".toList d).bind readNat) with
    | some v, some d => readPort (.sha3Finalize v (BitVec.ofNat 8 d)) args
    | _, _ => none
  | _ => none

/-- INIT: the variant, then its named arguments; `rounds` defaults to 1. -/
def readInit : List (List Char) → Option Line
  | v :: args =>
    let (rounds, args) := takeNamed "rounds=" args
    let (key, args) := takeNamed "key=" args
    let (fn, args) := takeNamed "fn=" args
    let (cust, args) := takeNamed "cust=" args
    match readVariant v, optional (fun cs => fits 32 (readNat cs)) rounds, optional readBytes key,
        optional readBytes fn, optional readBytes cust, args with
    | some v, some rounds, some key, some fn, some cust, [] =>
      some (.init v (BitVec.ofNat 32 (rounds.getD 1)) key fn cust)
    | _, _, _, _, _, _ => none
  | [] => none

/-- One byte string, and nothing else. -/
def readString (mk : List Byte → Line) : List (List Char) → Option Line
  | [s] => (readBytes s).map mk
  | _ => none

/-- An optional `len=`, and nothing else. -/
def readLen (mk : Option Nat → Line) (args : List (List Char)) : Option Line :=
  match takeNamed "len=" args with
  | (len, []) => (optional (fun cs => fits 64 (readNat cs)) len).map mk
  | _ => none

/-- The mnemonic of a line and the text after it. -/
def splitMnemonic : List Char → List Char × List Char
  | [] => ([], [])
  | c :: cs =>
    if c = ' ' then ([], cs)
    else
      let (m, rest) := splitMnemonic cs
      (c :: m, rest)

/-- R101: the line a text stands for, or none where it is not a line of the assembler. -/
def readLine (text : String) : Option Line :=
  let (mnemonic, rest) := splitMnemonic (trimBlanks text.toList)
  let args := readArgs rest
  match String.ofList mnemonic with
  | "INIT" => readInit args
  | "UPDATE" => readString .update args
  | "SET_HMAC_KEY" => readString .setHmacKey args
  | "GET_HASH" => readLen .getHash args
  | "GET_HMAC" => if args = [] then some .getHmac else none
  | "GET_MAC" => readLen .getMac args
  | "SHA1_COMPRESS" => readPort .sha1Compress args
  | "SHA1_FINALIZE" => readPort .sha1Finalize args
  | "SHA256_COMPRESS" => readPort .sha256Compress args
  | "SHA256_FINALIZE" => readWithVariant .sha256Finalize args
  | "SHA512_COMPRESS" => readPort .sha512Compress args
  | "SHA512_FINALIZE" => readWithVariant .sha512Finalize args
  | "KECCAK_F" => readPort .keccakF args
  | "SHA3_ABSORB" => readWithVariant .sha3Absorb args
  | "SHA3_FINALIZE" => readSha3Finalize args
  | "LEFT_ENCODE" => readPort .leftEncode args
  | "RIGHT_ENCODE" => readPort .rightEncode args
  | "ENCODE_STRING" => readPort .encodeString args
  | "BYTE_PAD" => readPort .bytePad args
  | "ROTL32" => readAmount .rotl32 args
  | "ROTR32" => readAmount .rotr32 args
  | "SHR32" => readAmount .shr32 args
  | "CH32" => readPort .ch32 args
  | "PARITY32" => readPort .parity32 args
  | "MAJ32" => readPort .maj32 args
  | "SIGMA0_256" => readPort .sigma0x256 args
  | "SIGMA1_256" => readPort .sigma1x256 args
  | "GAMMA0_256" => readPort .gamma0x256 args
  | "GAMMA1_256" => readPort .gamma1x256 args
  | "ADD32_2" => readPort .add32x2 args
  | "ADD32_4" => readPort .add32x4 args
  | "ADD32_5" => readPort .add32x5 args
  | "ROTL64" => readAmount .rotl64 args
  | "ROTR64" => readAmount .rotr64 args
  | "SHR64" => readAmount .shr64 args
  | "XOR64_2" => readPort .xor64x2 args
  | "XOR64_5" => readPort .xor64x5 args
  | "ADD64_2" => readPort .add64x2 args
  | "ADD64_4" => readPort .add64x4 args
  | "ADD64_5" => readPort .add64x5 args
  | "CH64" => readPort .ch64 args
  | "MAJ64" => readPort .maj64 args
  | "SIGMA0_512" => readPort .sigma0x512 args
  | "SIGMA1_512" => readPort .sigma1x512 args
  | "GAMMA0_512" => readPort .gamma0x512 args
  | "GAMMA1_512" => readPort .gamma1x512 args
  | _ => none

/-- R101, R102: the lines a text stands for: a command's own line, or the expansion of a pseudo-instruction. -/
def readLines (text : String) : Option (List Line) :=
  let (mnemonic, rest) := splitMnemonic (trimBlanks text.toList)
  let (len, args) := takeNamed "len=" (readArgs rest)
  match String.ofList mnemonic, args, optional (fun cs => fits 64 (readNat cs)) len with
  | "HASH", [v, data], some len =>
    match readVariant v, readBytes data with
    | some v, some data => some (pseudoHash v data len)
    | _, _ => none
  | "HMAC", [v, key, data], some none =>
    match readVariant v, readBytes key, readBytes data with
    | some v, some key, some data => some (pseudoHmac v key data)
    | _, _, _ => none
  | "KMAC", v :: key :: data :: cust, some (some len) =>
    match readVariant v, readBytes key, readBytes data, takeNamed "cust=" cust with
    | some v, some key, some data, (cust, []) =>
      (optional readBytes cust).map (pseudoKmac v key data len)
    | _, _, _, _ => none
  | "HASHN", [v, rounds, data], some none =>
    match readVariant v, fits 32 (readNat rounds), readBytes data with
    | some v, some rounds, some data => some (pseudoHashN v (BitVec.ofNat 32 rounds) data)
    | _, _, _ => none
  | _, _, _ => (readLine text).map fun l => [l]

end Sys2Proof.Machine
end

