-- ==== Sys2Proof/Safety.lean ====
section
/-! DEFINITION. What counts as a safe state, in the terms claims use: the invariants of spec 10_state.md R54, with the
register ranges of R24 to R35 and the status codes of 60_exceptions.md R303. -/

namespace Sys2Proof.Machine

/-- The family a hash state has the shape of (R32). -/
def HashState.family : HashState → Family
  | .sha1 _ => .sha1
  | .sha256 _ => .sha256
  | .sha512 _ => .sha512
  | .sha3 _ => .sha3

/-- R28, R30: the values `CTX.DELIM` may hold in a context of this variant. -/
def delimValues : Variant → List (Option Byte)
  | .sha1 | .sha224 | .sha256 | .sha384 | .sha512 => [none]
  | .sha3x224 | .sha3x256 | .sha3x384 | .sha3x512 => [some 0x06]
  | .shake128 | .shake256 => [some 0x1F]
  | .cshake128 | .cshake256 => [some 0x1F, some 0x04]
  | .kmac128 | .kmac256 => [some 0x04]

/-- R35, R54 (d): a pad register holds `BLOCK_BITS / 32` words exactly where an HMAC key is set. -/
def padOk (c : Context) (pad : Option (List Word)) : Prop :=
  match pad with
  | some ws => c.macKeySet = true ∧ hmacOk c.variant = true ∧ ws.length = blockBits c.variant / 32
  | none => (c.macKeySet && hmacOk c.variant) = false

/-- The registers of a constructed context (R54 and the ranges of R24 to R35). -/
structure Context.Inv (p : Config.Params) (c : Context) : Prop where
  /-- R32: `CTX.H` is shaped by the variant's family. -/
  shape : c.h.family = family c.variant
  /-- R54 (a). -/
  remShort : c.rem.length < blockBytes c.variant
  /-- R54 (b). -/
  wholeBlocks : c.processedBits % blockBits c.variant = 0
  /-- R54 (c). -/
  bounded : c.processedBits + 8 * c.rem.length ≤ p.maxTotalBits
  /-- R25: legal values are 1 to 2^32 − 1. -/
  rounds : c.numRounds ≠ 0
  /-- R28. -/
  delim : c.delim ∈ delimValues c.variant
  /-- R180, R184: `NUM_ROUNDS` is 1 on a keyed context and on cSHAKE. -/
  oneRound : c.macKeySet = true ∨ isCshake c.variant = true → c.numRounds = 1
  /-- R287: a KMAC context is keyed from INIT on; R175: SHAKE and cSHAKE are never keyed. -/
  keyed : (isKmac c.variant = true → c.macKeySet = true) ∧ (hasNoMac c.variant = true → c.macKeySet = false)
  /-- R35, R54 (d). -/
  ipad : padOk c c.ipad
  opad : padOk c c.opad
  /-- R36: before the first UPDATE nothing is buffered, and an unkeyed context of an HMAC-capable variant is as INIT
  left it (R178). -/
  untouched : c.updateCalled = false →
    c.rem = [] ∧ (hmacOk c.variant = true → c.macKeySet = false → c.h = newState c.variant ∧ c.processedBits = 0)

/-- The machine's invariant: legal parameters (R6), a context wherever `CTX.BOUND` is 1 and none before the first
INIT (R22, R53), registers as R54 says, and a `STATUS` code the block writes (R303). -/
structure State.Inv (s : State) : Prop where
  params : s.params.legal = true
  boundHasContext : s.bound = true → s.ctx.isSome = true
  freshHasNone : s.bound = false → s.poisoned = false → s.ctx = none
  context : ∀ c, s.ctx = some c → c.Inv s.params
  status : s.status ∈ statusCodes

end Sys2Proof.Machine
end

