-- ==== Sys2Proof/Certificates/Slice0/Obligations.lean ====
section
/-! DEFINITION. The statements for the provers, each formalising rules of spec/, with the few words they share. -/

namespace Sys2Proof.Claims

open Sys2Proof.Machine

/-- `ws` is a wire form of the byte string `b` (R77): its bit length, then as many words as that calls for, whose first
bytes in the given order are `b`.  The bits beyond the length may be anything. -/
def Wire (order : ByteOrder) (b : List Byte) (ws : List Word) : Prop :=
  8 * b.length < 2 ^ 64 ∧ ∃ packed : List Word, ws = lenWords (8 * b.length) ++ packed ∧
    packed.length = (8 * b.length + 31) / 32 ∧ unpack order packed b.length = b

/-- An optional string (R98): a wire form where the flag is set, nothing (the empty string) where it is not. -/
def WireIf (present : Bool) (order : ByteOrder) (b : List Byte) (ws : List Word) : Prop :=
  if present then Wire order b ws else b = [] ∧ ws = []

/-- `ws` is a `ByteString` operand of `n` bits on the wire, whole bytes or not (R77). -/
def WireBits (n : Nat) (ws : List Word) : Prop :=
  n < 2 ^ 64 ∧ ∃ packed : List Word, ws = lenWords n ++ packed ∧ packed.length = (n + 31) / 32

/-- The same, where a flag says whether the operand is there. -/
def WireBitsIf (present : Bool) (n : Nat) (ws : List Word) : Prop :=
  if present then WireBits n ws else n = 0 ∧ ws = []

/-- The state after a command that completed with results `out` and touched nothing else: its command word taken,
`rest` left on `DIN`, the results on `DOUT`, `STATUS` 0x00 (R78). -/
def done (s : State) (rest out : List Word) : State :=
  { s with cmd := s.cmd.tail, din := rest, dout := s.dout ++ out, status := 0x00 }

/-- A test-port command whose operand words are `ops` completes, in every state, with the results `out` and no other
effect. -/
def Completes (i : Instr) (ops out : List Word) : Prop :=
  ∀ (s : State) (rest : List Word), s.din = ops ++ rest → exec i s = .next (done s rest out)

/-- The same, in every state whose parameters meet a condition. -/
def CompletesIf (ok : Config.Params → Prop) (i : Instr) (ops out : List Word) : Prop :=
  ∀ (s : State) (rest : List Word), ok s.params → s.din = ops ++ rest → exec i s = .next (done s rest out)

/-- The state after a test-port command that raised an error. -/
def portError (s : State) (rest : List Word) (code : BitVec 8) : State :=
  { s with cmd := s.cmd.tail, din := rest, status := code }

/-- The state after a context command other than INIT that raised an error. -/
def contextError (s : State) (rest : List Word) (code : BitVec 8) : State :=
  { s with cmd := s.cmd.tail, din := rest, status := code, poisoned := true }

/-- The code of the first condition that holds, 0x00 where none does (R307). -/
def firstCode : List (Bool × BitVec 8) → BitVec 8
  | [] => 0x00
  | (applies, code) :: rest => if applies then code else firstCode rest

/-- The two words of a 64-bit value, high word first (R77). -/
def pair (v : BitVec 64) : List Word := [BitVec.ofNat 32 (v.toNat / 2 ^ 32), BitVec.ofNat 32 v.toNat]

/-- The words of 64-bit values in order. -/
def pairs (vs : List (BitVec 64)) : List Word := vs.flatMap pair

/-- The n-byte big-endian form of a natural (R279), of its low `8n` bits. -/
def bigEndian (n x : Nat) : List Byte := (List.range n).map fun i => BitVec.ofNat 8 (x / 256 ^ (n - 1 - i))

/-- The number big-endian bytes stand for. -/
def valueOf (bytes : List Byte) : Nat := bytes.foldl (fun a b => 256 * a + b.toNat) 0

/-- A context is ready for a context command other than INIT (R179). -/
def Ready (s : State) (c : Context) : Prop := s.poisoned = false ∧ s.bound = true ∧ s.ctx = some c

/-- The host has written nothing the engine has not taken, and has read every result. -/
def Idle (s : State) : Prop := s.cmd = [] ∧ s.din = [] ∧ s.dout = []

/-- The state after more blocks, one round function a block (R171): SHA-1 and SHA-2 take the block's big-endian words,
SHA-3 absorbs its little-endian words into the rate. -/
def absorbBlocks (v : Variant) (blks : List (List Byte)) : HashState → HashState
  | .sha1 h => .sha1 (blks.foldl (fun h b => sha1Compress h (packBE b)) h)
  | .sha256 h => .sha256 (blks.foldl (fun h b => sha256Compress h (packBE b)) h)
  | .sha512 h => .sha512 (blks.foldl (fun h b => sha512Compress h (packBE b)) h)
  | .sha3 a => .sha3 (blks.foldl (fun a b => absorb (blockBits v) a (packLE b)) a)

/-- The digest of a last message part `m` after `p` bits absorbed into `h` (R172): the bytes of the finalized state, all 20
of SHA-1's (R219), the first 28 or all 32 of F_SHA256's (R235, R239), the first 48 or all 64 of F_SHA512's (R246, R250),
or the sponge's output. -/
def digestBytes (v : Variant) (m : List Byte) (p : Nat) (h : HashState) (ob : Nat) (d : Byte) : List Byte :=
  match h with
  | .sha1 h => unpackBE (sha1Finalize m p h).toList 20
  | .sha256 h =>
    let n := if v = .sha224 then 7 else 8
    unpackBE ((sha256Finalize m p h).toList.take n) (4 * n)
  | .sha512 h => (unpackBE (pairs (sha512Finalize m p h).toList) 64).take (if v = .sha384 then 48 else 64)
  | .sha3 a => sha3Finalize a m d (blockBits v) ob

/-- The one-round digest of a whole message, from the variant's initial state with its own delimiter (R28, R170). -/
def digestOf (v : Variant) (ob : Nat) (m : List Byte) : List Byte :=
  digestBytes v m 0 (newState v) ob ((initDelim v).getD 0x06)

/-- The output length of GET_HASH: the variant's own, or the length given (R173). -/
def OutLength (p : Config.Params) (v : Variant) (len : Option Nat) (ob : Nat) : Prop :=
  outBits v = some ob ∨ (outBits v = none ∧ len = some ob ∧ ob % 8 = 0 ∧ ob ≤ p.maxOutputBits)

/-- The first 80 primes. -/
def primes : List Nat := (List.range 410).filter fun n => 2 ≤ n && (List.range n).all fun d => d < 2 || n % d != 0

/-- `word` is the first `bits` bits of the fractional part of the `deg`-th root of `n`, whose whole part is below 32. -/
def isRootFraction (deg n bits word : Nat) : Bool :=
  (List.range 32).any fun q =>
    (q * 2 ^ bits + word) ^ deg ≤ n * 2 ^ (deg * bits) && n * 2 ^ (deg * bits) < (q * 2 ^ bits + word + 1) ^ deg

/-- The walk (x, y) ← (y, 2x + 3y) from (1, 0), with the offset of each lane met (R48). -/
def rotWalk : Nat → Nat → Nat → Nat → List (Nat × Nat × Nat)
  | 0, _, _, _ => []
  | k + 1, t, x, y => (x, y, (t + 1) * (t + 2) / 2 % 64) :: rotWalk k (t + 1) y ((2 * x + 3 * y) % 5)

/-- The byte R of the rc(t) shift register, its bit i in place i (R47): one step shifts in a 0 and, where a 1 falls out,
adds it to bits 0, 4, 5 and 6. -/
def rcStep (r : Nat) : Nat := if r < 128 then 2 * r else (2 * r) ^^^ 0x171

/-- rc(t), for t below 255: bit 0 after t steps from 1. -/
def rcBit (t : Nat) : Bool := decide (rcStep^[t] 1 % 2 = 1)

/-- A row of the variant descriptor ROM as R30's table prints it. -/
structure Descriptor where
  code : Nat
  variant : Variant
  family : Family
  blockBits : Nat
  outBits : Option Nat
  order : ByteOrder
  hmacOk : Bool
  varLen : Bool
  initDelim : Option Byte

/-- R30's table, with the rates of R31. -/
def descriptors : List Descriptor :=
  [⟨0, .sha1, .sha1, 512, some 160, .be, true, false, none⟩,
   ⟨1, .sha224, .sha256, 512, some 224, .be, true, false, none⟩,
   ⟨2, .sha256, .sha256, 512, some 256, .be, true, false, none⟩,
   ⟨3, .sha384, .sha512, 1024, some 384, .be, true, false, none⟩,
   ⟨4, .sha512, .sha512, 1024, some 512, .be, true, false, none⟩,
   ⟨5, .sha3x224, .sha3, 1152, some 224, .le, true, false, some 0x06⟩,
   ⟨6, .sha3x256, .sha3, 1088, some 256, .le, true, false, some 0x06⟩,
   ⟨7, .sha3x384, .sha3, 832, some 384, .le, true, false, some 0x06⟩,
   ⟨8, .sha3x512, .sha3, 576, some 512, .le, true, false, some 0x06⟩,
   ⟨9, .shake128, .sha3, 1344, none, .le, false, true, some 0x1F⟩,
   ⟨10, .shake256, .sha3, 1088, none, .le, false, true, some 0x1F⟩,
   ⟨11, .cshake128, .sha3, 1344, none, .le, false, true, some 0x1F⟩,
   ⟨12, .cshake256, .sha3, 1088, none, .le, false, true, some 0x1F⟩,
   ⟨13, .kmac128, .sha3, 1344, none, .le, false, true, some 0x04⟩,
   ⟨14, .kmac256, .sha3, 1088, none, .le, false, true, some 0x04⟩]

end Sys2Proof.Claims

open Sys2Proof Sys2Proof.Machine Sys2Proof.Claims

/-! ### Encoding -/

/-- R103, R100: no bit of an encoding is dropped: the word of every command some legal word stands for decodes to that
command, with every field at every value it admits. -/
def Obligations.EncodedCommandDecodes : Prop :=
  ∀ i : Instr, i.wellFormed = true → decode (encode i) = .instr i

/-- R100: a legal word stands for one command, and is that command's word (R103). -/
def Obligations.LegalWordIsItsCommandsWord : Prop :=
  ∀ (w : Word) (i : Instr), decode w = .instr i → i.wellFormed = true ∧ encode i = w

/-- R93: a word is illegal exactly in the five cases (a) to (e), with the admitted values of R95 to R97; an illegal word
raises `ILLEGAL_COMMAND` and takes no operand word; an INIT word whose `VAR` is 15 is legal and raises
`INVALID_VARIANT`. -/
def Obligations.IllegalWords : Prop :=
  (∀ w : Word,
    let opc := w.toNat / 2 ^ 24
    let var := w.toNat / 2 ^ 20 % 16
    let n := w.toNat / 2 ^ 14 % 64
    let p := w.toNat / 2 ^ 13 % 2
    let f := w.toNat / 2 ^ 12 % 2
    let c := w.toNat / 2 ^ 11 % 2
    let rsv := w.toNat / 2 ^ 8 % 8
    let imm8 := w.toNat % 256
    (∃ r, decode w = .illegal r) ↔
      -- (a)
      (opc = 0x00 ∨ (0x07 ≤ opc ∧ opc ≤ 0x0F) ∨ (0x1D ≤ opc ∧ opc ≤ 0x1F) ∨ (0x2D ≤ opc ∧ opc ≤ 0x2F) ∨ 0x3E ≤ opc) ∨
      -- (b)
      rsv ≠ 0 ∨
      -- (c)
      (var ≠ 0 ∧ opc ∉ [0x01, 0x13, 0x15, 0x17, 0x18]) ∨ (n ≠ 0 ∧ opc ∉ [0x20, 0x21, 0x22, 0x30, 0x31, 0x32]) ∨
      (p ≠ 0 ∧ opc ∉ [0x01, 0x04, 0x06]) ∨ (f ≠ 0 ∧ opc ≠ 0x01) ∨ (c ≠ 0 ∧ opc ≠ 0x01) ∨ (imm8 ≠ 0 ∧ opc ≠ 0x18) ∨
      -- (d)
      (opc = 0x13 ∧ var ∉ [1, 2]) ∨ (opc = 0x15 ∧ var ∉ [3, 4]) ∨ (opc ∈ [0x17, 0x18] ∧ ¬(5 ≤ var ∧ var ≤ 14)) ∨
      (opc = 0x20 ∧ n ∉ [1, 5, 30]) ∨ (opc = 0x21 ∧ n ∉ [2, 6, 7, 11, 13, 17, 18, 19, 22, 25]) ∨
      (opc = 0x22 ∧ n ∉ [3, 10]) ∨
      (opc = 0x30 ∧ n ∉ [0, 1, 2, 3, 6, 8, 10, 14, 15, 18, 20, 21, 25, 27, 28, 36, 39, 41, 43, 44, 45, 55, 56, 61, 62]) ∨
      (opc = 0x31 ∧ n ∉ [1, 8, 14, 18, 19, 28, 34, 39, 41, 61]) ∨ (opc = 0x32 ∧ n ∉ [6, 7]) ∨
      (opc = 0x18 ∧ imm8 ∉ [0x06, 0x1F, 0x04]) ∨
      -- (e)
      (opc = 0x01 ∧ (f = 1 ∨ c = 1) ∧ var ∉ [11, 12, 13, 14])) ∧
  (∀ (s : State) (w : Word) (rest : List Word), s.cmd = w :: rest → (∃ r, decode w = .illegal r) →
    step s = .next { s with cmd := rest, status := 0x40 }) ∧
  (∀ (s t : State) (w : Word) (rest : List Word), s.cmd = w :: rest → (w = 0x01F00000 ∨ w = 0x01F02000) →
    step s = .next t → t.cmd = rest → t.status = 0x01)

/-- R103's examples: the words written out there decode to the commands it names. -/
def Obligations.ExampleWords : Prop :=
  decode 0x01000000 = .instr (.init (some .sha1) false false false) ∧
  decode 0x01202000 = .instr (.init (some .sha256) true false false) ∧
  decode 0x01B00800 = .instr (.init (some .cshake128) false false true) ∧
  decode 0x02000000 = .instr .update ∧
  decode 0x04000000 = .instr (.getHash false) ∧
  decode 0x04002000 = .instr (.getHash true) ∧
  decode 0x20014000 = .instr (.rotl32 5) ∧
  decode 0x31070000 = .instr (.rotr64 28) ∧
  decode 0x1890001F = .instr (.sha3Finalize .shake128 0x1F)

/-! ### The step -/

/-- R80, R99, R340: with a legal word at the head of `CMD` a step is that command's meaning, which takes the word and its
operands itself (the model's own split of the work, assumption 4); with no word on `CMD` the engine is idle. -/
def Obligations.StepRunsDecodedCommand : Prop :=
  (∀ (s : State) (w : Word) (rest : List Word) (i : Instr), s.cmd = w :: rest → decode w = .instr i →
    step s = exec i s) ∧
  (∀ s : State, s.cmd = [] → step s = .next s)

/-- R77, R78, R302: a step that does something takes one command word and some words from the front of `DIN`, appends its
results to `DOUT`, none where it raises an error, and never changes the parameters; an illegal word takes no operand.  A
step that leaves the state as it was is an idle engine or a command that waits for its operand words (the model's choice,
assumption 4). -/
def Obligations.CommandTakesItsWords : Prop :=
  ∀ s t : State, step s = .next t → t = s ∨
    ∃ (w : Word) (taken out : List Word), s.cmd = w :: t.cmd ∧ s.din = taken ++ t.din ∧ t.dout = s.dout ++ out ∧
      t.params = s.params ∧ (t.status ≠ 0x00 → out = []) ∧ ((∃ r, decode w = .illegal r) → taken = [])

/-- R308, R312: there is no trap and no halt: every step of every state answers a next state. -/
def Obligations.EveryStepAnswersNext : Prop :=
  ∀ s : State, ∃ t : State, step s = .next t

/-! ### The invariant and reset -/

/-- R54, with the register ranges of R24 to R35 and the codes of R303: every step keeps the invariant, from every state
that meets it. -/
def Obligations.StepKeepsInvariant : Prop :=
  ∀ s t : State, s.Inv → step s = .next t → t.Inv

/-- The state after reset meets the invariant. -/
def Obligations.ResetMeetsInvariant : Prop := State.reset.Inv ∧ ∀ s : State, s.params.legal = true → s.hostReset.Inv

/-- R53, R330, R331: what reset leaves, whatever the state before it: the three registers at 0, every other context
register without a value, the channels empty, the phase `UNBOUND`. -/
def Obligations.ResetLeaves : Prop :=
  ∀ s : State, (s = State.reset ∨ ∃ s' : State, s = s'.hostReset) →
    s.bound = false ∧ s.poisoned = false ∧ s.status = 0x00 ∧ s.ctx = none ∧ s.cmd = [] ∧ s.din = [] ∧ s.dout = [] ∧
    s.phase = .unbound

/-! ### Whole-machine rules -/

/-- R22, R304: `CTX.BOUND` is written only by INIT, which leaves it 1 where it completes and 0 where it raises an error
(the context then poisoned), and by reset; while it is 0 every context command but INIT raises `NOT_INITIALISED`, or
`CONTEXT_POISONED` where the context is poisoned, and is poisoned after it. -/
def Obligations.UnboundContextRefuses : Prop :=
  (∀ s t : State, step s = .next t →
    (∀ (w : Word) (rest : List Word), s.cmd = w :: rest → ∀ v p f c, decode w ≠ .instr (.init v p f c)) →
    t.bound = s.bound) ∧
  (∀ (s t : State) (w : Word) (v : Option Variant) (p f c : Bool), exec (.init v p f c) s = .next t →
    s.cmd = w :: t.cmd → t.bound = decide (t.status = 0x00) ∧ t.poisoned = decide (t.status ≠ 0x00)) ∧
  (∀ s : State, s.hostReset.bound = false ∧ s.hostReset.poisoned = false) ∧
  (∀ (s t : State) (w : Word) (i : Instr), i.commandClass = .context → (∀ v p f c, i ≠ .init v p f c) →
    exec i s = .next t → s.cmd = w :: t.cmd → s.bound = false →
    t.status = (if s.poisoned then 0x42 else 0x41) ∧ t.poisoned = true)

/-- R306: an error of a context command poisons, one of the test port or of decode does not; a poisoned context answers
every context command but INIT with `CONTEXT_POISONED`; an INIT that completes clears the bit; a test-port operation
reads and writes no context register, so it works alike in every context state. -/
def Obligations.ErrorsPoison : Prop :=
  (∀ (s t : State) (w : Word) (i : Instr), i.commandClass = .context → exec i s = .next t → s.cmd = w :: t.cmd →
    t.status ≠ 0x00 → t.poisoned = true) ∧
  (∀ (s : State) (w : Word) (rest : List Word) (r : Illegal), s.cmd = w :: rest → decode w = .illegal r →
    ∃ t, step s = .next t ∧ t.poisoned = s.poisoned) ∧
  (∀ (s t : State) (w : Word) (i : Instr), i.commandClass = .context → (∀ v p f c, i ≠ .init v p f c) →
    exec i s = .next t → s.cmd = w :: t.cmd → s.poisoned = true → t.status = 0x42) ∧
  (∀ (s t : State) (w : Word) (v : Option Variant) (p f c : Bool), exec (.init v p f c) s = .next t →
    s.cmd = w :: t.cmd → t.status = 0x00 → t.poisoned = false) ∧
  (∀ (s t : State) (i : Instr), i.commandClass = .testPort → exec i s = .next t →
    t.bound = s.bound ∧ t.poisoned = s.poisoned ∧ t.ctx = s.ctx ∧
    ∀ (b p : Bool) (c : Option Context), exec i { s with bound := b, poisoned := p, ctx := c } =
      .next { t with bound := b, poisoned := p, ctx := c })

/-- R305: a command that raises an error leaves everything but its words, `CTX.POISONED` and `STATUS` as it was (an INIT
also leaves `CTX.BOUND` 0); it poisons exactly where it is a context command and the error is not `ILLEGAL_COMMAND`,
which takes no operand word. -/
def Obligations.RaisingChangesNothingElse : Prop :=
  ∀ (s t : State) (w : Word), step s = .next t → s.cmd = w :: t.cmd → t.status ≠ 0x00 →
    let opc := w.toNat / 2 ^ 24
    t = { s with
      cmd := t.cmd
      din := t.din
      status := t.status
      poisoned := s.poisoned || decide (1 ≤ opc ∧ opc ≤ 6 ∧ t.status ≠ 0x40)
      bound := s.bound && !decide (opc = 1 ∧ t.status ≠ 0x40) } ∧
    (t.status = 0x40 → t.din = s.din)

/-- R193: a command's results and its effect on the context depend on the context registers, the command word, its
operands and the parameters, and on nothing else: not on what is on `DOUT`, nor on later words, nor on `STATUS`. -/
def Obligations.ResultsDependOnContextAndOperands : Prop :=
  ∀ (s s' t : State) (w : Word) (ops out later : List Word),
    s'.params = s.params → s'.bound = s.bound → s'.poisoned = s.poisoned → s'.ctx = s.ctx →
    step s = .next t → s.cmd = w :: t.cmd → s.din = ops ++ t.din → t.dout = s.dout ++ out →
    s'.cmd = w :: s'.cmd.tail → s'.din = ops ++ later →
    step s' = .next { s' with
      cmd := s'.cmd.tail, din := later, dout := s'.dout ++ out
      bound := t.bound, poisoned := t.poisoned, ctx := t.ctx, status := t.status }

/-! ### Packing -/

/-- R73, R74: a byte string of n bytes packs into ceil(n/4) words; byte i of the string is bits 31−8·(i mod 4) down to
24−8·(i mod 4) of word i div 4 in BE order and bits 8·(i mod 4)+7 down to 8·(i mod 4) in LE order; the bytes beyond the
string are zero; unpacking reads n bytes at the same places, and gives a packed string back.  A string below 2^64 bits stands
on a channel as its bit length, high word first, and its packed words. -/
def Obligations.PackedBytes : Prop :=
  ∀ b : List Byte,
    (packBE b).length = (b.length + 3) / 4 ∧ (packLE b).length = (b.length + 3) / 4 ∧
    (∀ i, i < 4 * ((b.length + 3) / 4) →
      ((packBE b).getD (i / 4) 0).toNat / 2 ^ (24 - 8 * (i % 4)) % 256 = (b.getD i 0).toNat ∧
      ((packLE b).getD (i / 4) 0).toNat / 2 ^ (8 * (i % 4)) % 256 = (b.getD i 0).toNat) ∧
    unpackBE (packBE b) b.length = b ∧ unpackLE (packLE b) b.length = b ∧
    (∀ (ws : List Word) (n : Nat), (unpackBE ws n).length = n ∧ (unpackLE ws n).length = n ∧
      ∀ i, i < n →
        ((unpackBE ws n).getD i 0).toNat = (ws.getD (i / 4) 0).toNat / 2 ^ (24 - 8 * (i % 4)) % 256 ∧
        ((unpackLE ws n).getD i 0).toNat = (ws.getD (i / 4) 0).toNat / 2 ^ (8 * (i % 4)) % 256) ∧
    (8 * b.length < 2 ^ 64 → ∀ order, stringWords order b =
      [BitVec.ofNat 32 (8 * b.length / 2 ^ 32), BitVec.ofNat 32 (8 * b.length)] ++ pack order b)

/-! ### INIT -/

/-- R180: INIT of a fixed-output variant or SHAKE without a key constructs the fresh context, in every phase. -/
def Obligations.InitConstructsFreshContext : Prop :=
  ∀ (s : State) (rest : List Word) (v : Variant) (nr : Word),
    v ∉ [.cshake128, .cshake256, .kmac128, .kmac256] → nr ≠ 0 → s.din = nr :: rest →
    exec (.init (some v) false false false) s = .next
      { done s rest [] with
        bound := true, poisoned := false
        ctx := some
          { variant := v, numRounds := nr, updateCalled := false, macKeySet := false
            delim := if v ∈ [.shake128, .shake256] then some 0x1F
                     else if v.isSha3 then some 0x06 else none
            h := newState v, rem := [], processedBits := 0, ipad := none, opad := none } }

/-- R178, R180: INIT with an HMAC key, in every phase.  The key, hashed first where it is longer than a block and
zero-filled to a block, is absorbed XORed with 0x36 as the first block; the pad registers hold the packed key words XORed
with 36363636 and 5c5c5c5c. -/
def Obligations.InitAppliesHmacKey : Prop :=
  ∀ (s : State) (rest kw : List Word) (v : Variant) (key k0 : List Byte),
    hmacOk v = true → Wire (orderOf v) key kw →
    8 * key.length ≤ s.params.maxTotalBits → blockBits v ≤ s.params.maxTotalBits →
    (∃ k : List Byte, k = (if key.length > blockBits v / 8 then digestOf v ((outBits v).getD 0) key else key) ∧
      k0 = k ++ List.replicate (blockBits v / 8 - k.length) 0) →
    s.din = 1 :: (kw ++ rest) →
    exec (.init (some v) true false false) s = .next
      { done s rest [] with
        bound := true, poisoned := false
        ctx := some
          { variant := v, numRounds := 1, updateCalled := false, macKeySet := true
            delim := initDelim v
            h := absorbBlocks v [k0.map (· ^^^ 0x36)] (newState v), rem := [], processedBits := blockBits v
            ipad := some ((pack (orderOf v) k0).map (· ^^^ 0x36363636))
            opad := some ((pack (orderOf v) k0).map (· ^^^ 0x5c5c5c5c)) } }

/-- R180, R284, R286: INIT of cSHAKE, in every phase.  With both strings empty it is SHAKE's context; otherwise the padded
encoding of the two strings is absorbed, block by block, and counted as processed. -/
def Obligations.InitCshake : Prop :=
  ∀ (s : State) (rest fw cw : List Word) (v : Variant) (f c : Bool) (fn cust : List Byte),
    v ∈ [.cshake128, .cshake256] → WireIf f .le fn fw → WireIf c .le cust cw →
    8 * fn.length ≤ s.params.maxTotalBits → 8 * cust.length ≤ s.params.maxTotalBits →
    s.din = 1 :: (fw ++ (cw ++ rest)) →
    ∃ blks : List (List Byte),
      (∀ b ∈ blks, b.length = blockBits v / 8) ∧
      blks.flatten = (if fn = [] ∧ cust = [] then []
        else bytePad (encodeString fn ++ encodeString cust) (blockBits v / 8)) ∧
      (blks.length * blockBits v ≤ s.params.maxTotalBits →
        exec (.init (some v) false f c) s = .next
          { done s rest [] with
            bound := true, poisoned := false
            ctx := some
              { variant := v, numRounds := 1, updateCalled := false, macKeySet := false
                delim := some (if fn = [] ∧ cust = [] then 0x1F else 0x04)
                h := absorbBlocks v blks (newState v), rem := []
                processedBits := blks.length * blockBits v, ipad := none, opad := none } })

/-- R180, R287, R288: INIT of KMAC, in every phase: the cSHAKE prefix with the name "KMAC" and then the padded key are
absorbed; the context is keyed; the caller's function name, if given, is ignored; no pad register has a value. -/
def Obligations.InitKmac : Prop :=
  ∀ (s : State) (rest kw fw cw : List Word) (v : Variant) (f c : Bool) (key fn cust : List Byte),
    v ∈ [.kmac128, .kmac256] → Wire .le key kw → WireIf f .le fn fw → WireIf c .le cust cw →
    8 * key.length ≤ s.params.maxTotalBits → 8 * fn.length ≤ s.params.maxTotalBits →
    8 * cust.length ≤ s.params.maxTotalBits →
    s.din = 1 :: (kw ++ (fw ++ (cw ++ rest))) →
    ∃ blks : List (List Byte),
      (∀ b ∈ blks, b.length = blockBits v / 8) ∧
      blks.flatten = bytePad (encodeString [0x4b, 0x4d, 0x41, 0x43] ++ encodeString cust) (blockBits v / 8) ++
        bytePad (encodeString key) (blockBits v / 8) ∧
      (blks.length * blockBits v ≤ s.params.maxTotalBits →
        exec (.init (some v) true f c) s = .next
          { done s rest [] with
            bound := true, poisoned := false
            ctx := some
              { variant := v, numRounds := 1, updateCalled := false, macKeySet := true
                delim := some 0x04
                h := absorbBlocks v blks (newState v), rem := []
                processedBits := blks.length * blockBits v, ipad := none, opad := none } })

/-- R180, R181, R307: the errors of INIT in their order, in every phase; an INIT that errs leaves the context unbound and
poisoned and its other registers as they were. -/
def Obligations.InitErrors : Prop :=
  ∀ (s : State) (rest kw fw cw : List Word) (vo : Option Variant) (p f c : Bool) (nr : Word) (kl fl cl : Nat),
    WireBitsIf p kl kw → WireBitsIf f fl fw → WireBitsIf c cl cw →
    s.din = nr :: (kw ++ (fw ++ (cw ++ rest))) →
    let code := match vo with
      | none => 0x01
      | some v =>
        let order := orderOf v
        let key := unpack order (kw.drop 2) (kl / 8)
        let fn := unpack order (fw.drop 2) (fl / 8)
        let cust := unpack order (cw.drop 2) (cl / 8)
        let rate := blockBits v / 8
        let isC := decide (v = .cshake128 ∨ v = .cshake256)
        let isK := decide (v = .kmac128 ∨ v = .kmac256)
        let prefixed :=
          if isC then (if fn = [] ∧ cust = [] then 0 else 8 * (bytePad (encodeString fn ++ encodeString cust) rate).length)
          else if isK then 8 * (bytePad (encodeString [0x4b, 0x4d, 0x41, 0x43] ++ encodeString cust) rate).length +
            8 * (bytePad (encodeString key) rate).length
          else if p && hmacOk v then blockBits v else 0
        firstCode
          [(decide (kl % 8 ≠ 0 ∨ fl % 8 ≠ 0 ∨ cl % 8 ≠ 0), 0x13),
           (decide (nr = 0), 0x02),
           (p && decide (v = .shake128 ∨ v = .shake256 ∨ v = .cshake128 ∨ v = .cshake256), 0x24),
           (!p && isK, 0x05),
           (decide (nr ≠ 1) && isC, 0x04),
           (decide (1 < nr.toNat) && (p || isK), 0x03),
           (decide (s.params.maxTotalBits < kl ∨ s.params.maxTotalBits < fl ∨ s.params.maxTotalBits < cl ∨
             s.params.maxTotalBits < prefixed), 0x43)]
    code ≠ 0x00 → exec (.init vo p f c) s = .next { contextError s rest code with bound := false }

/-! ### The other context commands -/

/-- R171, R182: UPDATE absorbs every complete block of the remainder and the data, in order, by the round function of the
family, and keeps the rest; the flag `UPDATE_CALLED` is set even where the data is empty. -/
def Obligations.UpdateAbsorbs : Prop :=
  ∀ (s : State) (rest dw : List Word) (c : Context) (data : List Byte),
    Ready s c → Wire (orderOf c.variant) data dw →
    c.processedBits + 8 * c.rem.length + 8 * data.length ≤ s.params.maxTotalBits → s.din = dw ++ rest →
    ∃ (blks : List (List Byte)) (r : List Byte),
      c.rem ++ data = blks.flatten ++ r ∧ (∀ b ∈ blks, b.length = blockBits c.variant / 8) ∧
      r.length < blockBits c.variant / 8 ∧
      exec .update s = .next
        { done s rest [] with
          ctx := some
            { c with
              h := absorbBlocks c.variant blks c.h
              processedBits := c.processedBits + blks.length * blockBits c.variant
              rem := r, updateCalled := true } }

/-- R183: two UPDATEs leave the context one UPDATE of the concatenation leaves, so every later command does the same. -/
def Obligations.UpdateIsIncremental : Prop :=
  ∀ (s : State) (rest aw bw abw : List Word) (c : Context) (a b : List Byte),
    Ready s c → Wire (orderOf c.variant) a aw → Wire (orderOf c.variant) b bw → Wire (orderOf c.variant) (a ++ b) abw →
    c.processedBits + 8 * c.rem.length + 8 * (a ++ b).length ≤ s.params.maxTotalBits → s.din = aw ++ (bw ++ rest) →
    ∃ t₁ t₂ t₃ : State, exec .update s = .next t₁ ∧ exec .update t₁ = .next t₂ ∧
      exec .update { s with din := abw ++ rest } = .next t₃ ∧
      t₂.status = 0x00 ∧ t₃.status = 0x00 ∧ t₂.ctx = t₃.ctx ∧ t₂ = { t₃ with cmd := t₂.cmd }

/-- R178, R184: SET_HMAC_KEY on an unkeyed HMAC-capable context before any UPDATE. -/
def Obligations.SetHmacKeyAppliesKey : Prop :=
  ∀ (s : State) (rest kw : List Word) (c : Context) (key k0 : List Byte),
    Ready s c → hmacOk c.variant = true → c.macKeySet = false → c.updateCalled = false → c.numRounds.toNat ≤ 1 →
    Wire (orderOf c.variant) key kw →
    8 * key.length ≤ s.params.maxTotalBits → blockBits c.variant ≤ s.params.maxTotalBits →
    (∃ k : List Byte, k = (if key.length > blockBits c.variant / 8
        then digestOf c.variant ((outBits c.variant).getD 0) key else key) ∧
      k0 = k ++ List.replicate (blockBits c.variant / 8 - k.length) 0) →
    s.din = kw ++ rest →
    exec .setHmacKey s = .next
      { done s rest [] with
        ctx := some
          { c with
            ipad := some ((pack (orderOf c.variant) k0).map (· ^^^ 0x36363636))
            opad := some ((pack (orderOf c.variant) k0).map (· ^^^ 0x5c5c5c5c))
            h := absorbBlocks c.variant [k0.map (· ^^^ 0x36)] c.h
            processedBits := blockBits c.variant, macKeySet := true } }

/-- R185: `INIT v, key=K` and `INIT v; SET_HMAC_KEY K` leave the same context whenever both complete. -/
def Obligations.KeyPathsAgree : Prop :=
  ∀ (s s₁ s₂ s₃ : State) (v : Variant) (nr : Word) (key : List Byte) (kw rest : List Word),
    Wire (orderOf v) key kw → s.din = nr :: (kw ++ rest) →
    exec (.init (some v) true false false) s = .next s₁ → s₁.status = 0x00 →
    exec (.init (some v) false false false) s = .next s₂ → s₂.status = 0x00 →
    exec .setHmacKey s₂ = .next s₃ → s₃.status = 0x00 →
    s₁.din = rest ∧ s₃.din = rest ∧ s₁.ctx = s₃.ctx ∧ s₁.bound = s₃.bound ∧ s₁.poisoned = s₃.poisoned

/-- R172, R186, R219, R239, R250: GET_HASH on an unkeyed context writes the digest of the context, finalized again as often
as `NUM_ROUNDS` says, and changes no context register.  In a context whose `CTX.H` has its variant's shape (`StepKeepsInvariant`)
the digest is, family by family, the bytes of SHA1Finalize, of SHA256Finalize cut to 28 bytes for SHA-224, of SHA512Finalize
cut to 48 for SHA-384, or the output of SHA3Finalize, each further round from the variant's initial state. -/
def Obligations.GetHashWritesDigest : Prop :=
  ∀ (s : State) (rest lw : List Word) (c : Context) (len : Option Nat) (ob : Nat) (d : Byte),
    Ready s c → c.macKeySet = false → OutLength s.params c.variant len ob →
    (c.h.family = .sha3 ∨ family c.variant = .sha3 → c.delim = some d) →
    (∀ n, len = some n → n < 2 ^ 64) → lw = (match len with | some n => lenWords n | none => []) →
    s.din = lw ++ rest →
    ∃ out : List Byte,
      exec (.getHash len.isSome) s = .next (done s rest (stringWords (orderOf c.variant) out)) ∧
      out = (fun m => finalize c.variant m 0 (newState c.variant) ob d)^[c.numRounds.toNat - 1]
        (finalize c.variant c.rem c.processedBits c.h ob d) ∧
      (c.h.family = family c.variant →
        out = (fun m => digestBytes c.variant m 0 (newState c.variant) ob d)^[c.numRounds.toNat - 1]
          (digestBytes c.variant c.rem c.processedBits c.h ob d)) ∧
      (∀ h, c.variant = .sha1 → c.h = .sha1 h → c.numRounds = 1 →
        out = unpackBE (sha1Finalize c.rem c.processedBits h).toList 20) ∧
      (∀ h, c.variant = .sha224 → c.h = .sha256 h → c.numRounds = 1 →
        out = unpackBE ((sha256Finalize c.rem c.processedBits h).toList.take 7) 28) ∧
      (∀ h, c.variant = .sha256 → c.h = .sha256 h → c.numRounds = 1 →
        out = unpackBE (sha256Finalize c.rem c.processedBits h).toList 32) ∧
      (∀ h, c.variant = .sha384 → c.h = .sha512 h → c.numRounds = 1 →
        out = (unpackBE (pairs (sha512Finalize c.rem c.processedBits h).toList) 64).take 48) ∧
      (∀ h, c.variant = .sha512 → c.h = .sha512 h → c.numRounds = 1 →
        out = unpackBE (pairs (sha512Finalize c.rem c.processedBits h).toList) 64) ∧
      (∀ a, c.h = .sha3 a → c.numRounds = 1 →
        out = sha3Finalize a c.rem d (blockBits c.variant) ob)

/-- R172, R188: GET_HMAC on a keyed context writes the outer hash of the inner one, and changes no context register; in a
context whose `CTX.H` has its variant's shape (`StepKeepsInvariant`) both are the family's, as in `GetHashWritesDigest`. -/
def Obligations.GetHmacWritesOuterHash : Prop :=
  ∀ (s : State) (c : Context) (opad : List Word) (d : Byte),
    Ready s c → hmacOk c.variant = true → c.macKeySet = true → c.opad = some opad →
    (c.h.family = .sha3 ∨ family c.variant = .sha3 → c.delim = some d) →
    let v := c.variant
    let ob := (outBits v).getD 0
    let outer := absorbBlocks v [unpack (orderOf v) opad (blockBits v / 8)] (newState v)
    ∃ out : List Byte,
      exec .getHmac s = .next (done s s.din (stringWords (orderOf v) out)) ∧
      out = finalize v (finalize v c.rem c.processedBits c.h ob d) (blockBits v) outer ob d ∧
      (c.h.family = family v →
        out = digestBytes v (digestBytes v c.rem c.processedBits c.h ob d) (blockBits v) outer ob d)

/-- R190, R289: GET_MAC on an HMAC-capable keyed context does what GET_HMAC does, whatever length it is given; on a KMAC
context it finalizes the remainder with the encoded output length appended. -/
def Obligations.GetMacFollowsVariant : Prop :=
  (∀ (s : State) (rest lw : List Word) (c : Context) (len : Option Nat),
    Ready s c → hmacOk c.variant = true → c.macKeySet = true → c.opad ≠ none →
    (∀ n, len = some n → n < 2 ^ 64) → lw = (match len with | some n => lenWords n | none => []) →
    s.din = lw ++ rest →
    ∃ out : List Word, exec .getHmac { s with din := rest } = .next (done s rest out) ∧
      exec (.getMac len.isSome) s = .next (done s rest out)) ∧
  (∀ (s : State) (rest : List Word) (c : Context) (a : Lanes) (d : Byte) (n : Nat),
    Ready s c → c.variant ∈ [.kmac128, .kmac256] → c.macKeySet = true → c.h = .sha3 a → c.delim = some d →
    n % 8 = 0 → n ≤ s.params.maxOutputBits → n < 2 ^ 64 → s.din = lenWords n ++ rest →
    exec (.getMac true) s = .next
      (done s rest (stringWords .le (sha3Finalize a (c.rem ++ rightEncode n) d (blockBits c.variant) n))))

/-- R179, R307: the errors of the five context commands other than INIT, in their order; each poisons and changes nothing
else. -/
def Obligations.ContextCommandErrors : Prop :=
  ∀ (s : State) (rest : List Word) (c : Context), (s.poisoned = false → s.bound = true → s.ctx = some c) →
    let entry := [(s.poisoned, (0x42 : BitVec 8)), (!s.bound, 0x41)]
    let v := c.variant
    let noMac := decide (v = .shake128 ∨ v = .shake256 ∨ v = .cshake128 ∨ v = .cshake256)
    let isK := decide (v = .kmac128 ∨ v = .kmac256)
    (∀ (dw : List Word) (n : Nat), WireBits n dw → s.din = dw ++ rest →
      (let code := firstCode (entry ++
        [(decide (n % 8 ≠ 0), 0x13), (decide (s.params.maxTotalBits < c.processedBits + 8 * c.rem.length + n), 0x43)])
       code ≠ 0x00 → exec .update s = .next (contextError s rest code)) ∧
      (let code := firstCode (entry ++
        [(decide (n % 8 ≠ 0), 0x13), (!hmacOk v, 0x24), (c.macKeySet, 0x20), (c.updateCalled, 0x21),
         (decide (1 < c.numRounds.toNat), 0x03),
         (decide (s.params.maxTotalBits < n ∨ s.params.maxTotalBits < blockBits v), 0x43)])
       code ≠ 0x00 → exec .setHmacKey s = .next (contextError s rest code))) ∧
    (∀ (p : Bool) (n : Nat), n < 2 ^ 64 → s.din = (if p then lenWords n else []) ++ rest →
      (let code := firstCode (entry ++
        [(c.macKeySet, 0x22), (!p && varLen v, 0x30), (decide (n % 8 ≠ 0) && varLen v, 0x31),
         (decide (s.params.maxOutputBits < n) && varLen v, 0x43)])
       code ≠ 0x00 → exec (.getHash p) s = .next (contextError s rest code)) ∧
      (let code := firstCode (entry ++
        [(noMac, 0x24), (!c.macKeySet, 0x23), (!p && isK, 0x30), (decide (n % 8 ≠ 0) && isK, 0x31),
         (decide (s.params.maxOutputBits < n) && isK, 0x43)])
       code ≠ 0x00 → exec (.getMac p) s = .next (contextError s rest code))) ∧
    (s.din = rest →
      (let code := firstCode (entry ++ [(!hmacOk v, 0x24), (!c.macKeySet, 0x23)])
       code ≠ 0x00 → exec .getHmac s = .next (contextError s rest code)))

/-- R192: GET_HASH, GET_HMAC and GET_MAC change no context register, whether they complete or not, except that an error
poisons the context; repeated with the same operand, a GET that completed gives the same result. -/
def Obligations.ReadsDoNotMutate : Prop :=
  ∀ (s t : State) (i : Instr), (∃ p, i = .getHash p ∨ i = .getMac p) ∨ i = .getHmac → exec i s = .next t →
    t.ctx = s.ctx ∧ t.bound = s.bound ∧ (t.status = 0x00 → t.poisoned = s.poisoned) ∧
    (∀ (w : Word) (ops out : List Word), s.cmd = w :: t.cmd → t.status = 0x00 → s.din = ops ++ t.din →
      t.dout = s.dout ++ out →
      exec i { t with cmd := w :: t.cmd, din := ops ++ t.din } = .next { t with dout := t.dout ++ out })

/-- R191: the phase each context command leaves and the error it raises in each phase; every error leaves `POISONED`.  Two
points are the model's, not R191's: a state with `CTX.BOUND` 0 and `CTX.POISONED` 1, for which R36 gives two names, is in the
phase `POISONED` (assumption 9), and a bound state without a context, which no run reaches, is in the phase `UNBOUND` and
answers 0x41 (assumption 8). -/
def Obligations.PhaseTable : Prop :=
  ∀ (s t : State) (w : Word) (i : Instr), i.commandClass = .context → exec i s = .next t → s.cmd = w :: t.cmd →
    (t.status ≠ 0x00 → t.phase = .poisoned) ∧
    match i with
    | .init v p _ _ => t.status = 0x00 →
        t.phase = (if (p = true ∧ v.any hmacOk = true) ∨ v.any isKmac = true then .keyedFresh else .fresh)
    | .update =>
        match s.phase with
        | .unbound => t.status = 0x41
        | .poisoned => t.status = 0x42
        | .fresh | .finalizable => t.status = 0x00 → t.phase = .finalizable
        | .keyedFresh | .keyedFinalizable => t.status = 0x00 → t.phase = .keyedFinalizable
    | .setHmacKey =>
        match s.phase with
        | .unbound => t.status = 0x41
        | .poisoned => t.status = 0x42
        | .fresh => (∀ c, s.ctx = some c → hmacOk c.variant = false → t.status = 0x13 ∨ t.status = 0x24) ∧
            (t.status = 0x00 → t.phase = .keyedFresh)
        | .finalizable => ∀ c, s.ctx = some c →
            t.status = 0x13 ∨ t.status = (if hmacOk c.variant then 0x21 else 0x24)
        | .keyedFresh | .keyedFinalizable => ∀ c, s.ctx = some c →
            t.status = 0x13 ∨ t.status = (if hmacOk c.variant then 0x20 else 0x24)
    | .getHash _ =>
        match s.phase with
        | .unbound => t.status = 0x41
        | .poisoned => t.status = 0x42
        | .fresh | .finalizable => t.status = 0x00 → t.phase = s.phase
        | .keyedFresh | .keyedFinalizable => t.status = 0x22
    | .getHmac =>
        match s.phase with
        | .unbound => t.status = 0x41
        | .poisoned => t.status = 0x42
        | .fresh | .finalizable => ∀ c, s.ctx = some c → t.status = (if hmacOk c.variant then 0x23 else 0x24)
        | .keyedFresh | .keyedFinalizable => (t.status = 0x00 → t.phase = s.phase) ∧
            ∀ c, s.ctx = some c → hmacOk c.variant = false → t.status = 0x24
    | .getMac _ =>
        match s.phase with
        | .unbound => t.status = 0x41
        | .poisoned => t.status = 0x42
        | .fresh | .finalizable => ∀ c, s.ctx = some c → t.status = (if hasNoMac c.variant then 0x24 else 0x23)
        | .keyedFresh | .keyedFinalizable => (t.status = 0x00 → t.phase = s.phase) ∧
            ∀ c, s.ctx = some c → hasNoMac c.variant = true → t.status = 0x24
    | _ => True

/-! ### Whole runs (30_encoding.md R102, 70_reset_and_hazards.md R340) -/

/-- R102, R183, R187: `INIT v, rounds=r; UPDATE data; GET_HASH [len]`, from any state, writes the one-round digest of the
whole message applied r times. -/
def Obligations.HashRun : Prop :=
  ∀ (s : State) (v : Variant) (nr : Word) (data : List Byte) (len : Option Nat) (ob : Nat),
    Idle s → s.params.legal = true → v ∉ [.kmac128, .kmac256] → nr ≠ 0 →
    (v ∈ [.cshake128, .cshake256] → nr = 1) →
    8 * data.length ≤ s.params.maxTotalBits → OutLength s.params v len ob → (∀ n, len = some n → n < 2 ^ 64) →
    (s.runLines [.init v nr none none none, .update data, .getHash len]).1 =
      [(0x00, []), (0x00, []), (0x00, stringWords (orderOf v) ((digestOf v ob)^[nr.toNat] data))]

/-- R102, R188, R189: `HMAC v, key, data`, from any state, writes H((K0 ^ opad) || H((K0 ^ ipad) || data)). -/
def Obligations.HmacRun : Prop :=
  ∀ (s : State) (v : Variant) (key k0 data : List Byte) (ob : Nat),
    Idle s → s.params.legal = true → hmacOk v = true → outBits v = some ob →
    8 * key.length ≤ s.params.maxTotalBits → blockBits v + 8 * data.length ≤ s.params.maxTotalBits →
    (∃ k : List Byte, k = (if key.length > blockBits v / 8 then digestOf v ob key else key) ∧
      k0 = k ++ List.replicate (blockBits v / 8 - k.length) 0) →
    (s.runLines (pseudoHmac v key data)).1 =
      [(0x00, []), (0x00, []), (0x00, stringWords (orderOf v)
        (digestOf v ob (k0.map (· ^^^ 0x5c) ++ digestOf v ob (k0.map (· ^^^ 0x36) ++ data))))]

/-- R285, R286, R290: `INIT cSHAKE, fn, cust; UPDATE data; GET_HASH len`, from any state, writes the sponge's output over the
padded strings and the data with delimiter 0x04, and exactly SHAKE's output where both strings are empty. -/
def Obligations.CshakeRun : Prop :=
  ∀ (s : State) (v : Variant) (fn cust : Option (List Byte)) (data : List Byte) (n : Nat),
    Idle s → s.params.legal = true → v ∈ [.cshake128, .cshake256] →
    let rate := blockBits v / 8
    let empty := fn.getD [] = [] ∧ cust.getD [] = []
    let x := if empty then [] else bytePad (encodeString (fn.getD []) ++ encodeString (cust.getD [])) rate
    8 * (fn.getD []).length ≤ s.params.maxTotalBits → 8 * (cust.getD []).length ≤ s.params.maxTotalBits →
    8 * (x ++ data).length ≤ s.params.maxTotalBits → n % 8 = 0 → n ≤ s.params.maxOutputBits →
    (s.runLines [.init v 1 none fn cust, .update data, .getHash (some n)]).1 =
      [(0x00, []), (0x00, []), (0x00, stringWords .le
        (sha3Finalize zeroLanes (x ++ data) (if empty then 0x1F else 0x04) (blockBits v) n))] ∧
    (empty → (s.runLines [.init v 1 none fn cust, .update data, .getHash (some n)]).1 =
      (s.runLines (pseudoHash (if v = .cshake128 then .shake128 else .shake256) data (some n))).1)

/-- R102, R287, R289, R290: `KMAC v, key, data, len [, cust]`, from any state, writes the sponge's output over the cSHAKE
prefix of "KMAC" and the customization, the padded key, the data and the encoded length, with delimiter 0x04. -/
def Obligations.KmacRun : Prop :=
  ∀ (s : State) (v : Variant) (key data : List Byte) (cust : Option (List Byte)) (n : Nat),
    Idle s → s.params.legal = true → v ∈ [.kmac128, .kmac256] →
    let rate := blockBits v / 8
    let x := bytePad (encodeString [0x4b, 0x4d, 0x41, 0x43] ++ encodeString (cust.getD [])) rate ++
      bytePad (encodeString key) rate
    8 * (x ++ data).length ≤ s.params.maxTotalBits → n % 8 = 0 → n ≤ s.params.maxOutputBits →
    (s.runLines (pseudoKmac v key data n cust)).1 =
      [(0x00, []), (0x00, []), (0x00, stringWords .le
        (sha3Finalize zeroLanes (x ++ data ++ rightEncode n) 0x04 (blockBits v) n))]

/-! ### The block operations of the test port -/

/-- R194, R307: the errors of the test port's block operations in their order; none poisons, none changes anything else. -/
def Obligations.BlockOperationErrors : Prop :=
  ∀ (s : State) (rest mw : List Word) (n : Nat), WireBits n mw →
    (∀ (hw : List Word) (p : Nat), p < 2 ^ 64 →
      let code := fun block : Nat => firstCode
        [(decide (n % 8 ≠ 0), 0x13), (decide (s.params.maxTotalBits < n ∨ s.params.maxTotalBits < p + n), 0x43),
         (decide (p % block ≠ 0), 0x44)]
      s.din = hw ++ (lenWords p ++ (mw ++ rest)) →
      (hw.length = 5 → code 512 ≠ 0x00 → exec .sha1Finalize s = .next (portError s rest (code 512))) ∧
      (hw.length = 8 → code 512 ≠ 0x00 → ∀ v, exec (.sha256Finalize v) s = .next (portError s rest (code 512))) ∧
      (hw.length = 16 → code 1024 ≠ 0x00 → ∀ v, exec (.sha512Finalize v) s = .next (portError s rest (code 1024)))) ∧
    (∀ (aw : List Word) (ob : Nat) (v : Variant) (d : Byte), aw.length = 50 → ob < 2 ^ 64 →
      let code := firstCode
        [(decide (n % 8 ≠ 0), 0x13), (decide (s.params.maxTotalBits < n), 0x43), (decide (ob % 8 ≠ 0), 0x31),
         (decide (s.params.maxOutputBits < ob), 0x43)]
      s.din = aw ++ (lenWords ob ++ (mw ++ rest)) → code ≠ 0x00 →
      exec (.sha3Finalize v d) s = .next (portError s rest code)) ∧
    (let code := firstCode [(decide (n % 8 ≠ 0), 0x13), (decide (s.params.maxTotalBits < n), 0x43)]
     s.din = mw ++ rest → code ≠ 0x00 → exec .encodeString s = .next (portError s rest code)) ∧
    (∀ w : Word,
      let code := firstCode
        [(decide (n % 8 ≠ 0), 0x13), (decide (s.params.maxTotalBits < n), 0x43), (decide (w = 0), 0x44)]
      s.din = w :: (mw ++ rest) → code ≠ 0x00 → exec .bytePad s = .next (portError s rest code))

/-- R211 to R214: SHA1_COMPRESS computes the schedule W, the working variables V through the 80 rounds, and the final
addition. -/
def Obligations.Sha1CompressRounds : Prop :=
  encode .sha1Compress = 0x10000000 ∧
  ∀ (h : Five Word) (blk : List Word), blk.length = 16 →
    ∃ (W : Nat → Word) (V : Nat → Five Word),
      (∀ t, t < 16 → W t = blk.getD t 0) ∧
      (∀ t, 16 ≤ t → t < 80 → W t = (W (t - 3) ^^^ W (t - 8) ^^^ W (t - 14) ^^^ W (t - 16)).rotateLeft 1) ∧
      V 0 = h ∧
      (∀ t, t < 80 →
        let b := (V t).e1
        let c := (V t).e2
        let d := (V t).e3
        let f := if t < 20 then (b &&& c) ^^^ (~~~b &&& d)
                 else if t < 40 then b ^^^ c ^^^ d
                 else if t < 60 then (b &&& c) ^^^ (b &&& d) ^^^ (c &&& d)
                 else b ^^^ c ^^^ d
        let k : Word := if t < 20 then 0x5a827999 else if t < 40 then 0x6ed9eba1 else if t < 60 then 0x8f1bbcdc else 0xca62c1d6
        V (t + 1) = ⟨(V t).e0.rotateLeft 5 + f + (V t).e4 + k + W t, (V t).e0, b.rotateLeft 30, c, d⟩) ∧
      Completes .sha1Compress ([h.e0, h.e1, h.e2, h.e3, h.e4] ++ blk)
        [h.e0 + (V 80).e0, h.e1 + (V 80).e1, h.e2 + (V 80).e2, h.e3 + (V 80).e3, h.e4 + (V 80).e4]

/-- R231 to R234, R236: SHA256_COMPRESS. -/
def Obligations.Sha256CompressRounds : Prop :=
  encode .sha256Compress = 0x12000000 ∧
  ∀ (h : Eight Word) (blk : List Word), blk.length = 16 →
    ∃ (W : Nat → Word) (V : Nat → Eight Word),
      (∀ t, t < 16 → W t = blk.getD t 0) ∧
      (∀ t, 16 ≤ t → t < 64 →
        let x := W (t - 2)
        let y := W (t - 15)
        W t = (x.rotateRight 17 ^^^ x.rotateRight 19 ^^^ (x >>> 10)) + W (t - 7) +
          (y.rotateRight 7 ^^^ y.rotateRight 18 ^^^ (y >>> 3)) + W (t - 16)) ∧
      V 0 = h ∧
      (∀ t, t < 64 →
        let ⟨a, b, c, d, e, f, g, hh⟩ := V t
        let t1 := hh + (e.rotateRight 6 ^^^ e.rotateRight 11 ^^^ e.rotateRight 25) + ((e &&& f) ^^^ (~~~e &&& g)) +
          k256.getD t 0 + W t
        let t2 := (a.rotateRight 2 ^^^ a.rotateRight 13 ^^^ a.rotateRight 22) + ((a &&& b) ^^^ (a &&& c) ^^^ (b &&& c))
        V (t + 1) = ⟨t1 + t2, a, b, c, d + t1, e, f, g⟩) ∧
      Completes .sha256Compress (h.toList ++ blk)
        [h.e0 + (V 64).e0, h.e1 + (V 64).e1, h.e2 + (V 64).e2, h.e3 + (V 64).e3,
         h.e4 + (V 64).e4, h.e5 + (V 64).e5, h.e6 + (V 64).e6, h.e7 + (V 64).e7]

/-- R242 to R245: SHA512_COMPRESS; the first word of each block pair is the high half of its schedule word. -/
def Obligations.Sha512CompressRounds : Prop :=
  encode .sha512Compress = 0x14000000 ∧
  ∀ (h : Eight DWord) (blk : List Word), blk.length = 32 →
    ∃ (W : Nat → DWord) (V : Nat → Eight DWord),
      (∀ t, t < 16 → W t = blk.getD (2 * t) 0 ++ blk.getD (2 * t + 1) 0) ∧
      (∀ t, 16 ≤ t → t < 80 →
        let x := W (t - 2)
        let y := W (t - 15)
        W t = (x.rotateRight 19 ^^^ x.rotateRight 61 ^^^ (x >>> 6)) + W (t - 7) +
          (y.rotateRight 1 ^^^ y.rotateRight 8 ^^^ (y >>> 7)) + W (t - 16)) ∧
      V 0 = h ∧
      (∀ t, t < 80 →
        let ⟨a, b, c, d, e, f, g, hh⟩ := V t
        let t1 := hh + (e.rotateRight 14 ^^^ e.rotateRight 18 ^^^ e.rotateRight 41) + ((e &&& f) ^^^ (~~~e &&& g)) +
          k512.getD t 0 + W t
        let t2 := (a.rotateRight 28 ^^^ a.rotateRight 34 ^^^ a.rotateRight 39) + ((a &&& b) ^^^ (a &&& c) ^^^ (b &&& c))
        V (t + 1) = ⟨t1 + t2, a, b, c, d + t1, e, f, g⟩) ∧
      Completes .sha512Compress (pairs h.toList ++ blk)
        (pairs [h.e0 + (V 80).e0, h.e1 + (V 80).e1, h.e2 + (V 80).e2, h.e3 + (V 80).e3,
                h.e4 + (V 80).e4, h.e5 + (V 80).e5, h.e6 + (V 80).e6, h.e7 + (V 80).e7])

/-- R260 to R266, R270: KECCAK_F, the 24 rounds of theta, rho and pi, chi and iota on the lanes A[x][y], lane i of the
operands being A[i mod 5][i div 5]. -/
def Obligations.KeccakFRounds : Prop :=
  encode .keccakF = 0x16000000 ∧
  ∀ lanes : Nat → Nat → DWord,
    ∃ A : Nat → Nat → Nat → DWord,
      A 0 = lanes ∧
      (∀ r, r < 24 → ∃ (C D : Nat → DWord) (B : Nat → Nat → DWord),
        (∀ x, x < 5 → C x = A r x 0 ^^^ A r x 1 ^^^ A r x 2 ^^^ A r x 3 ^^^ A r x 4) ∧
        (∀ x, x < 5 → D x = C ((x + 4) % 5) ^^^ (C ((x + 1) % 5)).rotateLeft 1) ∧
        (∀ x y, x < 5 → y < 5 →
          B y ((2 * x + 3 * y) % 5) = (A r x y ^^^ D x).rotateLeft ((keccakRot.get x).get y)) ∧
        (∀ x y, x < 5 → y < 5 →
          A (r + 1) x y = (B x y ^^^ (~~~(B ((x + 1) % 5) y) &&& B ((x + 2) % 5) y)) ^^^
            (if x = 0 ∧ y = 0 then keccakRC.getD r 0 else 0))) ∧
      Completes .keccakF (pairs ((List.range 25).map fun i => lanes (i % 5) (i / 5)))
        (pairs ((List.range 25).map fun i => A 24 (i % 5) (i / 5)))

/-- R267, R268, R272: SHA3_ABSORB XORs the rate block into the lanes below R/64, two little-endian words to a lane, leaves
the capacity lanes, and permutes. -/
def Obligations.Sha3AbsorbBlock : Prop :=
  ∀ (v : Variant) (lanes : List DWord) (blk : List Word), v.isSha3 = true → lanes.length = 25 →
    blk.length = blockBits v / 32 →
    Completes (.sha3Absorb v) (pairs lanes ++ blk)
      (pairs (laneList (keccakF (lanesOf ((List.range 25).map fun i =>
        if i < blockBits v / 64 then lanes.getD i 0 ^^^ (blk.getD (2 * i + 1) 0 ++ blk.getD (2 * i) 0)
        else lanes.getD i 0)))))

/-- R215 to R217: SHA1_FINALIZE compresses the blocks of M || 0x80 || 0^k || BE64(total bits), with the least k that makes
whole blocks. -/
def Obligations.Sha1FinalizePads : Prop :=
  ∀ (h : Five Word) (p : Nat) (m : List Byte) (mw : List Word),
    p % 512 = 0 → p < 2 ^ 64 → Wire .be m mw →
    ∃ (k : Nat) (blks : List (List Byte)), k < 64 ∧ (∀ b ∈ blks, b.length = 64) ∧
      blks.flatten = m ++ [0x80] ++ List.replicate k 0 ++ bigEndian 8 (p + 8 * m.length) ∧
      CompletesIf (fun params => 8 * m.length ≤ params.maxTotalBits ∧ p + 8 * m.length ≤ params.maxTotalBits)
        .sha1Finalize (h.toList ++ (lenWords p ++ mw))
        (blks.foldl (fun h b => sha1Compress h (packBE b)) h).toList

/-- R237, R240, R241: SHA256_FINALIZE pads as SHA-1 does; SHA-224 drops the last word. -/
def Obligations.Sha256FinalizePads : Prop :=
  ∀ (v : Variant) (h : Eight Word) (p : Nat) (m : List Byte) (mw : List Word),
    v ∈ [.sha224, .sha256] → p % 512 = 0 → p < 2 ^ 64 → Wire .be m mw →
    ∃ (k : Nat) (blks : List (List Byte)), k < 64 ∧ (∀ b ∈ blks, b.length = 64) ∧
      blks.flatten = m ++ [0x80] ++ List.replicate k 0 ++ bigEndian 8 (p + 8 * m.length) ∧
      CompletesIf (fun params => 8 * m.length ≤ params.maxTotalBits ∧ p + 8 * m.length ≤ params.maxTotalBits)
        (.sha256Finalize v) (h.toList ++ (lenWords p ++ mw))
        ((blks.foldl (fun h b => sha256Compress h (packBE b)) h).toList.take (if v = .sha224 then 7 else 8))

/-- R246 to R248: SHA512_FINALIZE pads to 1024-bit blocks with a 128-bit length whose upper half is zero; SHA-384 drops the
last two words. -/
def Obligations.Sha512FinalizePads : Prop :=
  ∀ (v : Variant) (h : Eight DWord) (p : Nat) (m : List Byte) (mw : List Word),
    v ∈ [.sha384, .sha512] → p % 1024 = 0 → p < 2 ^ 64 → Wire .be m mw →
    ∃ (k : Nat) (blks : List (List Byte)), k < 128 ∧ (∀ b ∈ blks, b.length = 128) ∧
      blks.flatten = m ++ [0x80] ++ List.replicate k 0 ++ List.replicate 8 0 ++ bigEndian 8 (p + 8 * m.length) ∧
      CompletesIf (fun params => 8 * m.length ≤ params.maxTotalBits ∧ p + 8 * m.length ≤ params.maxTotalBits)
        (.sha512Finalize v) (pairs h.toList ++ (lenWords p ++ mw))
        (pairs ((blks.foldl (fun h b => sha512Compress h (packBE b)) h).toList.take (if v = .sha384 then 6 else 8)))

/-- R269, R274 to R276, R278: SHA3_FINALIZE absorbs the blocks of the message padded with the delimiter at the first free
byte and 0x80 at the last byte of the block, the two sharing a byte where one is left, and writes the output stream: byte
j is byte j mod R/8 of the lanes after j div R/8 further permutations. -/
def Obligations.Sha3FinalizeSponge : Prop :=
  ∀ (v : Variant) (d : Byte) (lanes : List DWord) (n : Nat) (m : List Byte) (mw : List Word),
    v.isSha3 = true → d ∈ [0x06, 0x1F, 0x04] → lanes.length = 25 → n % 8 = 0 → n < 2 ^ 64 → Wire .le m mw →
    let rate := blockBits v / 8
    ∃ (q : Nat) (blks : List (List Byte)) (a : Lanes), q < rate ∧ (∀ b ∈ blks, b.length = rate) ∧
      blks.flatten = m ++ (if q = 0 then [d ^^^ 0x80] else [d] ++ List.replicate (q - 1) 0 ++ [0x80]) ∧
      a = blks.foldl (fun a b => absorb (blockBits v) a (packLE b)) (lanesOf lanes) ∧
      CompletesIf (fun params => 8 * m.length ≤ params.maxTotalBits ∧ n ≤ params.maxOutputBits)
        (.sha3Finalize v d) (pairs lanes ++ (lenWords n ++ mw))
        (stringWords .le ((List.range (n / 8)).map fun j =>
          ((laneList (keccakF^[j / rate] a)).getD (j % rate / 8) 0).extractLsb' (8 * (j % 8)) 8))

/-- R279 to R281: LEFT_ENCODE and RIGHT_ENCODE write the shortest big-endian form of x, of at least one byte, with the byte
count before or after it. -/
def Obligations.LeftAndRightEncode : Prop :=
  encode .leftEncode = 0x19000000 ∧ encode .rightEncode = 0x1A000000 ∧
  ∀ x : Nat, x < 2 ^ 64 →
    ∃ digits : List Byte, 1 ≤ digits.length ∧ digits.length ≤ 8 ∧ valueOf digits = x ∧
      (digits.length = 1 ∨ digits.head? ≠ some 0) ∧
      Completes .leftEncode (lenWords x) (stringWords .le (BitVec.ofNat 8 digits.length :: digits)) ∧
      Completes .rightEncode (lenWords x) (stringWords .le (digits ++ [BitVec.ofNat 8 digits.length]))

/-- R282, R283: ENCODE_STRING writes left_encode of the bit length and the string; BYTE_PAD writes left_encode(w), the
string, and the fewest zero bytes that make a multiple of w.  It completes so at every size of the result; the two length
words of one of 2^64 bits or more are a free value, of which nothing is claimed (the model's choice, assumption 20). -/
def Obligations.EncodeStringAndBytePad : Prop :=
  ∀ (b : List Byte) (bw : List Word), Wire .le b bw →
    CompletesIf (fun params => 8 * b.length ≤ params.maxTotalBits) .encodeString bw
      (stringWords .le (leftEncode (8 * b.length) ++ b)) ∧
    ∀ w : Word, w ≠ 0 → ∃ k : Nat,
      ((leftEncode w.toNat ++ b).length + k) % w.toNat = 0 ∧
      (∀ j, j < k → ((leftEncode w.toNat ++ b).length + j) % w.toNat ≠ 0) ∧
      CompletesIf (fun params => 8 * b.length ≤ params.maxTotalBits) .bytePad (w :: bw)
        (stringWords .le (leftEncode w.toNat ++ b ++ List.replicate k 0))

/-! ### The 32-bit word primitives -/

/-- R110 to R112: ROTL32, ROTR32 and SHR32 with each admitted amount, and no other amount is legal. -/
def Obligations.Rotates32 : Prop :=
  ∀ n : BitVec 6,
    (if n.toNat ∈ [1, 5, 30] then
      decode (0x20#8 ++ 0#4 ++ n ++ 0#14) = .instr (.rotl32 n) ∧ ∀ x : Word, Completes (.rotl32 n) [x]
        [BitVec.ofNat 32 (((x.toNat <<< n.toNat) ||| (x.toNat >>> (32 - n.toNat))) % 2 ^ 32)]
     else ∃ r, decode (0x20#8 ++ 0#4 ++ n ++ 0#14) = .illegal r) ∧
    (if n.toNat ∈ [2, 6, 7, 11, 13, 17, 18, 19, 22, 25] then
      decode (0x21#8 ++ 0#4 ++ n ++ 0#14) = .instr (.rotr32 n) ∧ ∀ x : Word, Completes (.rotr32 n) [x]
        [BitVec.ofNat 32 (((x.toNat >>> n.toNat) ||| (x.toNat <<< (32 - n.toNat))) % 2 ^ 32)]
     else ∃ r, decode (0x21#8 ++ 0#4 ++ n ++ 0#14) = .illegal r) ∧
    (if n.toNat ∈ [3, 10] then
      decode (0x22#8 ++ 0#4 ++ n ++ 0#14) = .instr (.shr32 n) ∧ ∀ x : Word, Completes (.shr32 n) [x]
        [BitVec.ofNat 32 (x.toNat / 2 ^ n.toNat)]
     else ∃ r, decode (0x22#8 ++ 0#4 ++ n ++ 0#14) = .illegal r)

/-- R113 to R115: CH32 takes each bit from y where x has a 1 and from z where it has a 0; PARITY32 is the sum of the three
bits modulo 2; MAJ32 is their majority. -/
def Obligations.ChoiceParityMajority32 : Prop :=
  encode .ch32 = 0x23000000 ∧ encode .parity32 = 0x24000000 ∧ encode .maj32 = 0x25000000 ∧
  ∀ x y z : Word, ∃ ch parity maj : Word,
    (∀ j, j < 32 → ch.getLsbD j = (if x.getLsbD j then y.getLsbD j else z.getLsbD j)) ∧
    (∀ j, j < 32 → parity.getLsbD j =
      decide (((x.getLsbD j).toNat + (y.getLsbD j).toNat + (z.getLsbD j).toNat) % 2 = 1)) ∧
    (∀ j, j < 32 → maj.getLsbD j =
      decide (2 ≤ (x.getLsbD j).toNat + (y.getLsbD j).toNat + (z.getLsbD j).toNat)) ∧
    Completes .ch32 [x, y, z] [ch] ∧ Completes .parity32 [x, y, z] [parity] ∧ Completes .maj32 [x, y, z] [maj]

/-- R116 to R119: the four mixing functions of SHA-256, bit by bit: bit j of a rotate right by n is bit j+n mod 32, bit j
of a shift right by n is bit j+n, or 0 from bit 32 on. -/
def Obligations.SigmaGamma256 : Prop :=
  encode .sigma0x256 = 0x26000000 ∧ encode .sigma1x256 = 0x27000000 ∧ encode .gamma0x256 = 0x28000000 ∧
  encode .gamma1x256 = 0x29000000 ∧
  ∀ x : Word, ∃ s0 s1 g0 g1 : Word,
    (∀ j, j < 32 →
      s0.getLsbD j = (x.getLsbD ((j + 2) % 32) ^^ x.getLsbD ((j + 13) % 32) ^^ x.getLsbD ((j + 22) % 32)) ∧
      s1.getLsbD j = (x.getLsbD ((j + 6) % 32) ^^ x.getLsbD ((j + 11) % 32) ^^ x.getLsbD ((j + 25) % 32)) ∧
      g0.getLsbD j = (x.getLsbD ((j + 7) % 32) ^^ x.getLsbD ((j + 18) % 32) ^^ (decide (j + 3 < 32) && x.getLsbD (j + 3))) ∧
      g1.getLsbD j = (x.getLsbD ((j + 17) % 32) ^^ x.getLsbD ((j + 19) % 32) ^^
        (decide (j + 10 < 32) && x.getLsbD (j + 10)))) ∧
    Completes .sigma0x256 [x] [s0] ∧ Completes .sigma1x256 [x] [s1] ∧
    Completes .gamma0x256 [x] [g0] ∧ Completes .gamma1x256 [x] [g1]

/-- R120 to R123: the additions are sums modulo 2^32, and the 16-bit-limb procedure computes the same words. -/
def Obligations.Additions32 : Prop :=
  encode .add32x2 = 0x2A000000 ∧ encode .add32x4 = 0x2B000000 ∧ encode .add32x5 = 0x2C000000 ∧
  ∀ (i : Instr) (ops : List Word),
    (i = .add32x2 ∧ ops.length = 2) ∨ (i = .add32x4 ∧ ops.length = 4) ∨ (i = .add32x5 ∧ ops.length = 5) →
    Completes i ops [BitVec.ofNat 32 ((ops.map BitVec.toNat).sum % 2 ^ 32)] ∧
    (let lo := (ops.map fun a => a.toNat &&& 0xffff).sum
     let hi := (ops.map fun a => a.toNat >>> 16).sum + (lo >>> 16)
     Completes i ops [BitVec.ofNat 32 (((hi &&& 0xffff) <<< 16) ||| (lo &&& 0xffff))])

/-! ### The 64-bit word primitives -/

/-- R141 to R143: ROTL64, ROTR64 and SHR64 with each admitted amount, in the (high, low) pair form with its case split at 32,
and no other amount is legal. -/
def Obligations.Rotates64 : Prop :=
  ∀ n : BitVec 6,
    (if n.toNat ∈ [0, 1, 2, 3, 6, 8, 10, 14, 15, 18, 20, 21, 25, 27, 28, 36, 39, 41, 43, 44, 45, 55, 56, 61, 62] then
      decode (0x30#8 ++ 0#4 ++ n ++ 0#14) = .instr (.rotl64 n) ∧ ∀ hi lo : Word, Completes (.rotl64 n) [hi, lo]
        (if n.toNat < 32 then
          [(hi <<< n.toNat) ||| (lo >>> (32 - n.toNat)), (lo <<< n.toNat) ||| (hi >>> (32 - n.toNat))]
         else
          [(lo <<< (n.toNat - 32)) ||| (hi >>> (64 - n.toNat)), (hi <<< (n.toNat - 32)) ||| (lo >>> (64 - n.toNat))])
     else ∃ r, decode (0x30#8 ++ 0#4 ++ n ++ 0#14) = .illegal r) ∧
    (if n.toNat ∈ [1, 8, 14, 18, 19, 28, 34, 39, 41, 61] then
      decode (0x31#8 ++ 0#4 ++ n ++ 0#14) = .instr (.rotr64 n) ∧ ∀ x : DWord, Completes (.rotr64 n) (pair x)
        (pair (BitVec.ofNat 64 (((x.toNat >>> n.toNat) ||| (x.toNat <<< (64 - n.toNat))) % 2 ^ 64)))
     else ∃ r, decode (0x31#8 ++ 0#4 ++ n ++ 0#14) = .illegal r) ∧
    (if n.toNat ∈ [6, 7] then
      decode (0x32#8 ++ 0#4 ++ n ++ 0#14) = .instr (.shr64 n) ∧ ∀ hi lo : Word, Completes (.shr64 n) [hi, lo]
        [hi >>> n.toNat, (lo >>> n.toNat) ||| (hi <<< (32 - n.toNat))]
     else ∃ r, decode (0x32#8 ++ 0#4 ++ n ++ 0#14) = .illegal r)

/-- R144, R145, R149, R150: the XORs, the choice and the majority work on each half separately. -/
def Obligations.BitwiseOperations64 : Prop :=
  encode .xor64x2 = 0x33000000 ∧ encode .xor64x5 = 0x34000000 ∧ encode .ch64 = 0x38000000 ∧
  encode .maj64 = 0x39000000 ∧
  ∀ ah al bh bl ch cl dh dl eh el : Word,
    Completes .xor64x2 [ah, al, bh, bl] [ah ^^^ bh, al ^^^ bl] ∧
    Completes .xor64x5 [ah, al, bh, bl, ch, cl, dh, dl, eh, el]
      [ah ^^^ bh ^^^ ch ^^^ dh ^^^ eh, al ^^^ bl ^^^ cl ^^^ dl ^^^ el] ∧
    Completes .ch64 [ah, al, bh, bl, ch, cl] [(ah &&& bh) ^^^ (~~~ah &&& ch), (al &&& bl) ^^^ (~~~al &&& cl)] ∧
    Completes .maj64 [ah, al, bh, bl, ch, cl]
      [(ah &&& bh) ^^^ (ah &&& ch) ^^^ (bh &&& ch), (al &&& bl) ^^^ (al &&& cl) ^^^ (bl &&& cl)]

/-- R151 to R154: the four mixing functions of SHA-512, bit by bit. -/
def Obligations.SigmaGamma512 : Prop :=
  encode .sigma0x512 = 0x3A000000 ∧ encode .sigma1x512 = 0x3B000000 ∧ encode .gamma0x512 = 0x3C000000 ∧
  encode .gamma1x512 = 0x3D000000 ∧
  ∀ x : DWord, ∃ s0 s1 g0 g1 : DWord,
    (∀ j, j < 64 →
      s0.getLsbD j = (x.getLsbD ((j + 28) % 64) ^^ x.getLsbD ((j + 34) % 64) ^^ x.getLsbD ((j + 39) % 64)) ∧
      s1.getLsbD j = (x.getLsbD ((j + 14) % 64) ^^ x.getLsbD ((j + 18) % 64) ^^ x.getLsbD ((j + 41) % 64)) ∧
      g0.getLsbD j = (x.getLsbD ((j + 1) % 64) ^^ x.getLsbD ((j + 8) % 64) ^^ (decide (j + 7 < 64) && x.getLsbD (j + 7))) ∧
      g1.getLsbD j = (x.getLsbD ((j + 19) % 64) ^^ x.getLsbD ((j + 61) % 64) ^^
        (decide (j + 6 < 64) && x.getLsbD (j + 6)))) ∧
    Completes .sigma0x512 (pair x) (pair s0) ∧ Completes .sigma1x512 (pair x) (pair s1) ∧
    Completes .gamma0x512 (pair x) (pair g0) ∧ Completes .gamma1x512 (pair x) (pair g1)

/-- R146 to R148: the 64-bit additions are sums modulo 2^64; the pair form, with the carries of the low halves added into the
high ones, computes the same words. -/
def Obligations.Additions64 : Prop :=
  encode .add64x2 = 0x35000000 ∧ encode .add64x4 = 0x36000000 ∧ encode .add64x5 = 0x37000000 ∧
  ∀ (i : Instr) (his los : List Word),
    (i = .add64x2 ∧ his.length = 2) ∨ (i = .add64x4 ∧ his.length = 4) ∨ (i = .add64x5 ∧ his.length = 5) →
    los.length = his.length →
    let ops := (his.zip los).flatMap fun x => [x.1, x.2]
    Completes i ops (pair (BitVec.ofNat 64
      (((his.zip los).map fun x => x.1.toNat * 2 ^ 32 + x.2.toNat).sum % 2 ^ 64))) ∧
    (let l := (los.map BitVec.toNat).sum
     let h := ((his.map BitVec.toNat).sum + (l >>> 32)) % 2 ^ 32
     Completes i ops [BitVec.ofNat 32 h, BitVec.ofNat 32 (l % 2 ^ 32)])

/-! ### The constant tables -/

/-- R38 to R43, R45 to R48, R170: the tables agree with the definitions the spec recomputed them from: the round constants
of SHA-2 are fractional parts of cube roots of the first primes, the initial values of SHA-2 fractional parts of square roots
(those of SHA-224 the low halves of SHA-384's), bit j of the Keccak round constant i is rc(k + 7i) where j is 2^k − 1 and 0
elsewhere, and the rho offsets are (t+1)(t+2)/2 along their walk; SHA-1's initial value is R38's; and each variant starts
from its own table's value, the SHA-3 ones from zero lanes. -/
def Obligations.ConstantTables : Prop :=
  k256.length = 64 ∧ k512.length = 80 ∧ keccakRC.length = 24 ∧ primes.length = 80 ∧
  (∀ t, t < 64 → isRootFraction 3 (primes.getD t 0) 32 (k256.getD t 0).toNat = true) ∧
  (∀ t, t < 80 → isRootFraction 3 (primes.getD t 0) 64 (k512.getD t 0).toNat = true) ∧
  (∀ i, i < 8 → isRootFraction 2 (primes.getD i 0) 32 (ivSha256.get i).toNat = true ∧
    isRootFraction 2 (primes.getD i 0) 64 (ivSha512.get i).toNat = true ∧
    isRootFraction 2 (primes.getD (i + 8) 0) 64 (ivSha384.get i).toNat = true ∧
    (ivSha224.get i).toNat = (ivSha384.get i).toNat % 2 ^ 32) ∧
  (∀ i, i < 24 → ∀ j, j < 64 → (keccakRC.getD i 0).getLsbD j =
    (List.range 7).any fun k => j == 2 ^ k - 1 && rcBit (k + 7 * i)) ∧
  (∀ x ∈ rotWalk 24 0 1 0, (keccakRot.get x.1).get x.2.1 = x.2.2) ∧ (keccakRot.get 0).get 0 = 0 ∧
  newState .sha1 = .sha1 ⟨0x67452301, 0xefcdab89, 0x98badcfe, 0x10325476, 0xc3d2e1f0⟩ ∧
  newState .sha224 = .sha256 ivSha224 ∧ newState .sha256 = .sha256 ivSha256 ∧
  newState .sha384 = .sha512 ivSha384 ∧ newState .sha512 = .sha512 ivSha512 ∧
  (∀ v : Variant, v.isSha3 = true → ∃ a, newState v = .sha3 a ∧ ∀ x, x < 5 → ∀ y, y < 5 → (a.get x).get y = 0)

/-- R30, R31, R94: the descriptor of every variant is its row of R30's table, and its code in an INIT word selects it; which
variants are cSHAKE, KMAC, or without any MAC.  A cSHAKE context starts from delimiter 0x1F; `InitCshake` says where 0x04
takes its place. -/
def Obligations.VariantDescriptors : Prop :=
  (∀ v : Variant, ∃ r ∈ descriptors, r.variant = v) ∧
  ∀ r ∈ descriptors, let v := r.variant
    decode (BitVec.ofNat 32 (0x01000000 + r.code * 2 ^ 20)) = .instr (.init (some v) false false false) ∧
    family v = r.family ∧ blockBits v = r.blockBits ∧ outBits v = r.outBits ∧ orderOf v = r.order ∧ hmacOk v = r.hmacOk ∧
    varLen v = r.varLen ∧ initDelim v = r.initDelim ∧ v.isSha3 = decide (5 ≤ r.code) ∧
    isCshake v = decide (r.code ∈ [11, 12]) ∧ isKmac v = decide (r.code ∈ [13, 14]) ∧
    hasNoMac v = decide (r.code ∈ [9, 10, 11, 12])
end

