-- ==== Sys2Proof/Laws/Decode.lean ====
section
/-! SUPPORT. The command word's fields: that they are taken straight from its bits, both ways, and that a variant's code
names the variant. -/

namespace Sys2Proof

/-- R91: the fields of the word made of them are those fields. -/
@[simp] theorem Fields.ofWord_toWord (x : Fields) : Fields.ofWord x.toWord = x := by
  obtain ⟨opc, var, n, p, f, s, rsv, imm8⟩ := x
  simp only [Fields.ofWord, Fields.toWord, Fields.mk.injEq]
  refine ⟨?_, ?_, ?_, ?_, ?_, ?_, ?_, ?_⟩
  all_goals first
    | (apply BitVec.eq_of_getLsbD_eq; intro i hi
       simp only [BitVec.getLsbD_extractLsb', BitVec.getLsbD_append, hi, decide_true, Bool.true_and]
       repeat (first | rw [if_pos (by omega)] | rw [if_neg (by omega)])
       congr 1; omega)
    | (simp only [BitVec.getLsbD_append]
       repeat (first | rw [if_pos (by omega)] | rw [if_neg (by omega)])
       simp)

/-- R91: a word is made of its fields. -/
@[simp] theorem Fields.toWord_ofWord (w : Word) : (Fields.ofWord w).toWord = w := by
  simp only [Fields.ofWord, Fields.toWord]
  apply BitVec.eq_of_getLsbD_eq
  intro i hi
  simp only [BitVec.getLsbD_append, BitVec.getLsbD_extractLsb', BitVec.getLsbD_ofBool]
  have : i < 32 := hi
  interval_cases i <;> simp

/-- R94: a variant's code names it. -/
@[simp] theorem Variant.ofCode_code (v : Variant) : Variant.ofCode v.code = some v := by cases v <;> rfl

/-- R94: a code that names a variant is that variant's. -/
theorem Variant.code_ofCode {c : BitVec 4} {v : Variant} (h : Variant.ofCode c = some v) : v.code = c := by
  revert v; revert c; decide

/-- R93 (b), (c): what a word that decodes through `only` has zero. -/
theorem Fields.only_instr {x : Fields} {u : Uses} {d : Decoded} {i : Instr} (h : x.only u d = .instr i) :
    x.rsv = 0 ∧ x.unusedZero u = true ∧ d = .instr i := by
  unfold Fields.only at h
  split at h
  · split at h
    · exact ⟨by simpa using ‹(x.rsv == 0) = true›, ‹_›, h⟩
    · cases h
  · cases h

theorem ifAdmitted_instr {i j : Instr} {r : Illegal} (h : ifAdmitted i r = .instr j) : i.wellFormed = true ∧ j = i := by
  unfold ifAdmitted at h
  split at h
  · cases h; exact ⟨‹_›, rfl⟩
  · cases h

theorem Fields.withVariant_instr {x : Fields} {mk : Variant → Instr} {j : Instr} (h : x.withVariant mk = .instr j) :
    ∃ v, v.code = x.var ∧ (mk v).wellFormed = true ∧ j = mk v := by
  unfold Fields.withVariant at h
  split at h
  · next v hv =>
    obtain ⟨hw, rfl⟩ := ifAdmitted_instr h
    exact ⟨v, Variant.code_ofCode hv, hw, rfl⟩
  · cases h

end Sys2Proof
end

