-- ==== Sys2Proof/Laws/State.lean ====
section
/-! SUPPORT. One lemma per field of the state for each shared update of it, so that no later proof unfolds a record update. -/

namespace Sys2Proof.Machine

/-! ### `State.take` -/

@[simp] theorem State.take_params (s : State) (d : List Word) : (s.take d).params = s.params := rfl
@[simp] theorem State.take_bound (s : State) (d : List Word) : (s.take d).bound = s.bound := rfl
@[simp] theorem State.take_poisoned (s : State) (d : List Word) : (s.take d).poisoned = s.poisoned := rfl
@[simp] theorem State.take_status (s : State) (d : List Word) : (s.take d).status = s.status := rfl
@[simp] theorem State.take_ctx (s : State) (d : List Word) : (s.take d).ctx = s.ctx := rfl
@[simp] theorem State.take_cmd (s : State) (d : List Word) : (s.take d).cmd = s.cmd.tail := rfl
@[simp] theorem State.take_din (s : State) (d : List Word) : (s.take d).din = d := rfl
@[simp] theorem State.take_dout (s : State) (d : List Word) : (s.take d).dout = s.dout := rfl

/-! ### `State.complete` -/

@[simp] theorem State.complete_params (s : State) (out : List Word) : (State.complete out s).params = s.params := rfl
@[simp] theorem State.complete_bound (s : State) (out : List Word) : (State.complete out s).bound = s.bound := rfl
@[simp] theorem State.complete_poisoned (s : State) (out : List Word) : (State.complete out s).poisoned = s.poisoned := rfl
@[simp] theorem State.complete_status (s : State) (out : List Word) : (State.complete out s).status = 0x00#8 := rfl
@[simp] theorem State.complete_ctx (s : State) (out : List Word) : (State.complete out s).ctx = s.ctx := rfl
@[simp] theorem State.complete_cmd (s : State) (out : List Word) : (State.complete out s).cmd = s.cmd := rfl
@[simp] theorem State.complete_din (s : State) (out : List Word) : (State.complete out s).din = s.din := rfl
@[simp] theorem State.complete_dout (s : State) (out : List Word) : (State.complete out s).dout = s.dout ++ out := rfl

/-! ### `State.raise` -/

@[simp] theorem State.raise_params (s : State) (k : CommandClass) (e : Error) : (State.raise k e s).params = s.params := rfl
@[simp] theorem State.raise_bound (s : State) (k : CommandClass) (e : Error) : (State.raise k e s).bound = s.bound := rfl
@[simp] theorem State.raise_poisoned (s : State) (k : CommandClass) (e : Error) : (State.raise k e s).poisoned = (s.poisoned || (decide (k = .context) && decide (e ≠ .illegalCommand))) := rfl
@[simp] theorem State.raise_status (s : State) (k : CommandClass) (e : Error) : (State.raise k e s).status = e.code := rfl
@[simp] theorem State.raise_ctx (s : State) (k : CommandClass) (e : Error) : (State.raise k e s).ctx = s.ctx := rfl
@[simp] theorem State.raise_cmd (s : State) (k : CommandClass) (e : Error) : (State.raise k e s).cmd = s.cmd := rfl
@[simp] theorem State.raise_din (s : State) (k : CommandClass) (e : Error) : (State.raise k e s).din = s.din := rfl
@[simp] theorem State.raise_dout (s : State) (k : CommandClass) (e : Error) : (State.raise k e s).dout = s.dout := rfl

/-! ### `State.issue` -/

@[simp] theorem State.issue_params (s : State) (w : Word) (ops : List Word) : (State.issue w ops s).params = s.params := rfl
@[simp] theorem State.issue_bound (s : State) (w : Word) (ops : List Word) : (State.issue w ops s).bound = s.bound := rfl
@[simp] theorem State.issue_poisoned (s : State) (w : Word) (ops : List Word) : (State.issue w ops s).poisoned = s.poisoned := rfl
@[simp] theorem State.issue_status (s : State) (w : Word) (ops : List Word) : (State.issue w ops s).status = s.status := rfl
@[simp] theorem State.issue_ctx (s : State) (w : Word) (ops : List Word) : (State.issue w ops s).ctx = s.ctx := rfl
@[simp] theorem State.issue_cmd (s : State) (w : Word) (ops : List Word) : (State.issue w ops s).cmd = s.cmd ++ [w] := rfl
@[simp] theorem State.issue_din (s : State) (w : Word) (ops : List Word) : (State.issue w ops s).din = s.din ++ ops := rfl
@[simp] theorem State.issue_dout (s : State) (w : Word) (ops : List Word) : (State.issue w ops s).dout = s.dout := rfl

/-! ### `State.hostReset` -/

@[simp] theorem State.hostReset_params (s : State) : (s.hostReset).params = s.params := rfl
@[simp] theorem State.hostReset_bound (s : State) : (s.hostReset).bound = false := rfl
@[simp] theorem State.hostReset_poisoned (s : State) : (s.hostReset).poisoned = false := rfl
@[simp] theorem State.hostReset_status (s : State) : (s.hostReset).status = 0x00#8 := rfl
@[simp] theorem State.hostReset_ctx (s : State) : (s.hostReset).ctx = none := rfl
@[simp] theorem State.hostReset_cmd (s : State) : (s.hostReset).cmd = [] := rfl
@[simp] theorem State.hostReset_din (s : State) : (s.hostReset).din = [] := rfl
@[simp] theorem State.hostReset_dout (s : State) : (s.hostReset).dout = [] := rfl

/-! ### `State.withFetchWord` -/

@[simp] theorem State.withFetchWord_params (s : State) (nbits w : Nat) : (s.withFetchWord nbits w).params = s.params := rfl
@[simp] theorem State.withFetchWord_bound (s : State) (nbits w : Nat) : (s.withFetchWord nbits w).bound = s.bound := rfl
@[simp] theorem State.withFetchWord_poisoned (s : State) (nbits w : Nat) : (s.withFetchWord nbits w).poisoned = s.poisoned := rfl
@[simp] theorem State.withFetchWord_status (s : State) (nbits w : Nat) : (s.withFetchWord nbits w).status = s.status := rfl
@[simp] theorem State.withFetchWord_ctx (s : State) (nbits w : Nat) : (s.withFetchWord nbits w).ctx = s.ctx := rfl
@[simp] theorem State.withFetchWord_cmd (s : State) (nbits w : Nat) : (s.withFetchWord nbits w).cmd = tableCommandWord nbits w :: s.cmd := rfl
@[simp] theorem State.withFetchWord_din (s : State) (nbits w : Nat) : (s.withFetchWord nbits w).din = tableOperands nbits w ++ s.din := rfl
@[simp] theorem State.withFetchWord_dout (s : State) (nbits w : Nat) : (s.withFetchWord nbits w).dout = s.dout := rfl

/-- Rejecting an illegal word drops that word and sets `STATUS`; nothing else changes. -/
theorem State.rejectCommand_eq (s : State) (w : Word) :
    s.rejectCommand w = { s with cmd := s.cmd.tail, status := 0x40 } := by
  simp [State.rejectCommand, State.raise, State.take, Error.code]

end Sys2Proof.Machine
end

