-- ==== Sys2Proof/Laws/Ops.lean ====
section
/-! SUPPORT. What each shared operation can do, said once: taking operands, the three shapes of a command, and the
first error of a list of checks.  Later proofs cite these and do not unfold the operations. -/

namespace Sys2Proof.Machine

/-! ### Checks -/

@[simp] theorem firstError_nil : firstError [] = none := rfl

@[simp] theorem firstError_cons (b : Bool) (e : Error) (rest : Checks) :
    firstError ((b, e) :: rest) = if b then some e else firstError rest := rfl

/-- No error is raised exactly where no check applies. -/
theorem firstError_eq_none {l : Checks} : firstError l = none ↔ ∀ x ∈ l, x.1 = false := by
  induction l with
  | nil => simp
  | cons x rest ih => obtain ⟨b, e⟩ := x; cases b <;> simp [ih]

/-- The error raised is one of the list's. -/
theorem firstError_mem {l : Checks} {e : Error} (h : firstError l = some e) : (true, e) ∈ l := by
  induction l with
  | nil => simp at h
  | cons x rest ih =>
    obtain ⟨b, e'⟩ := x
    cases b
    · simp at h; simp [ih h]
    · simp at h; simp [h]

/-- What holds of every error a list of checks names holds of the one it raises. -/
theorem firstError_sat {P : Error → Prop} {l : Checks} {e : Error} (h : firstError l = some e)
    (hl : ∀ c ∈ l, P c.2) : P e := hl _ (firstError_mem h)

theorem checked_ok {α : Type} {l : Checks} {v w : α} (h : checked l v = .ok w) : firstError l = none ∧ w = v := by
  unfold checked at h
  split at h
  · cases h
  · exact ⟨‹_›, by cases h; rfl⟩

theorem checked_error {α : Type} {l : Checks} {v : α} {e : Error} (h : checked l v = .error e) :
    firstError l = some e := by
  unfold checked at h
  split at h
  · cases h; assumption
  · cases h

theorem checked_of_none {α : Type} {l : Checks} {v : α} (h : firstError l = none) : checked l v = .ok v := by
  unfold checked; rw [h]

theorem checked_of_some {α : Type} {l : Checks} {v : α} {e : Error} (h : firstError l = some e) :
    checked l v = .error e := by
  unfold checked; rw [h]

/-! ### Taking operands -/

@[simp] theorem Din.pure_apply {α : Type} (a : α) (din : List Word) : Din.pure a din = some (a, din) := rfl

@[simp] theorem dinWord_cons (w : Word) (rest : List Word) : dinWord (w :: rest) = some (w, rest) := rfl

theorem Din.bind_some {α β : Type} {d : Din α} {f : α → Din β} {din rest : List Word} {a : α}
    (h : d din = some (a, rest)) : d.bind f din = f a rest := by
  simp [Din.bind, h]

theorem Din.map_some {α β : Type} {d : Din α} {f : α → β} {din rest : List Word} {a : α}
    (h : d din = some (a, rest)) : d.map f din = some (f a, rest) := by
  simp [Din.map, Din.bind, h]

theorem Din.bind_eq_some {α β : Type} {d : Din α} {f : α → Din β} {din rest : List Word} {b : β} :
    d.bind f din = some (b, rest) ↔ ∃ a mid, d din = some (a, mid) ∧ f a mid = some (b, rest) := by
  unfold Din.bind
  cases h : d din with
  | none => simp
  | some x => obtain ⟨a, mid⟩ := x; simp

theorem Din.map_eq_some {α β : Type} {d : Din α} {f : α → β} {din rest : List Word} {b : β} :
    d.map f din = some (b, rest) ↔ ∃ a, d din = some (a, rest) ∧ f a = b := by
  simp [Din.map, Din.bind_eq_some]

/-- Exactly `n` words are taken. -/
theorem dinWords_append (ws rest : List Word) (n : Nat) (h : ws.length = n) :
    dinWords n (ws ++ rest) = some (ws, rest) := by
  subst h
  simp [dinWords]

theorem dinWords_eq_some {n : Nat} {din ws rest : List Word} (h : dinWords n din = some (ws, rest)) :
    ws.length = n ∧ din = ws ++ rest := by
  unfold dinWords at h
  split at h
  · next hn =>
    cases h
    exact ⟨by simp [hn], by simp⟩
  · cases h

theorem dinU64_cons (hi lo : Word) (rest : List Word) : dinU64 (hi :: lo :: rest) = some (dwordOf hi lo, rest) := rfl

theorem dwordOf_toNat (hi lo : Word) : (dwordOf hi lo).toNat = hi.toNat * 2 ^ 32 + lo.toNat := by
  unfold dwordOf
  rw [BitVec.toNat_ofNat]
  have := hi.isLt
  have := lo.isLt
  omega

/-- R77: a value sent as two words, high first, is received as it was. -/
theorem dwordOf_words (v : DWord) : dwordOf (hiWord v) (loWord v) = v := by
  apply BitVec.eq_of_toNat_eq
  rw [dwordOf_toNat]
  simp [hiWord, loWord, BitVec.extractLsb'_toNat]
  have := v.isLt
  omega

/-- R77: the wire form of a string whose length a Len64 holds. -/
theorem stringWords_of_lt (order : ByteOrder) (s : List Byte) (h : 8 * s.length < 2 ^ 64) :
    stringWords order s = lenWords (8 * s.length) ++ pack order s := by
  simp only [stringWords, stringLen, if_pos h]

@[simp] theorem dinLen_lenWords (n : Nat) (h : n < 2 ^ 64) (rest : List Word) :
    dinLen (lenWords n ++ rest) = some (n, rest) := by
  have hd : dinU64 (lenWords n ++ rest) = some (dwordOf (BitVec.ofNat 32 (n / 2 ^ 32)) (BitVec.ofNat 32 n), rest) := rfl
  unfold dinLen
  rw [Din.map_some hd, dwordOf_toNat]
  simp only [BitVec.toNat_ofNat, Option.some.injEq, Prod.mk.injEq, and_true]
  omega

theorem dinLen_lt {din rest : List Word} {n : Nat} (h : dinLen din = some (n, rest)) : n < 2 ^ 64 := by
  obtain ⟨v, -, rfl⟩ := Din.map_eq_some.mp h
  exact v.isLt

/-- R77: a byte string is framed by its bit length alone. -/
theorem dinString_append (l : Nat) (ws rest : List Word) (hl : l < 2 ^ 64) (hw : ws.length = (l + 31) / 32) :
    dinString (lenWords l ++ ws ++ rest) = some ({ bitLen := l, words := ws }, rest) := by
  have h1 : dinLen (lenWords l ++ ws ++ rest) = some (l, ws ++ rest) := by
    rw [List.append_assoc]; exact dinLen_lenWords l hl _
  unfold dinString
  rw [Din.bind_some h1]
  exact Din.map_some (dinWords_append ws rest _ hw)

/-! ### The shapes of a command -/

section
variable {α : Type} {read : Din α} {s t : State}

/-- A test-port operation waits, raises the first error of its checks, or completes. -/
theorem portCommand_cases {checks : Config.Params → α → Checks} {result : α → List Word}
    (h : portCommand read checks result s = .next t) :
    (read s.din = none ∧ t = s) ∨
    (∃ x rest e, read s.din = some (x, rest) ∧ firstError (checks s.params x) = some e ∧
      t = State.raise .testPort e (s.take rest)) ∨
    (∃ x rest, read s.din = some (x, rest) ∧ firstError (checks s.params x) = none ∧
      t = State.complete (result x) (s.take rest)) := by
  unfold portCommand at h
  split at h
  · left; cases h; exact ⟨‹_›, rfl⟩
  · split at h
    · right; left; cases h; exact ⟨_, _, _, ‹_›, ‹_›, rfl⟩
    · right; right; cases h; exact ⟨_, _, ‹_›, ‹_›, rfl⟩

/-- A test-port operation whose operands are on `DIN` and whose checks pass completes. -/
theorem portCommand_completes {checks : Config.Params → α → Checks} {result : α → List Word} {x : α}
    {rest : List Word} (hr : read s.din = some (x, rest)) (hc : firstError (checks s.params x) = none) :
    portCommand read checks result s = .next (State.complete (result x) (s.take rest)) := by
  simp [portCommand, hr, hc]

/-- A test-port operation one of whose checks applies raises that error. -/
theorem portCommand_raises {checks : Config.Params → α → Checks} {result : α → List Word} {x : α}
    {rest : List Word} {e : Error} (hr : read s.din = some (x, rest))
    (hc : firstError (checks s.params x) = some e) :
    portCommand read checks result s = .next (State.raise .testPort e (s.take rest)) := by
  simp [portCommand, hr, hc]

/-- The common entry passes exactly in a bound context that is not poisoned. -/
theorem State.entry_ok {c : Context} : s.entry = .ok c ↔ s.poisoned = false ∧ s.bound = true ∧ s.ctx = some c := by
  unfold State.entry
  cases s.poisoned <;> cases s.bound <;> cases s.ctx <;> simp

theorem State.entry_error {e : Error} (h : s.entry = .error e) :
    (s.poisoned = true ∧ e = .contextPoisoned) ∨ (s.poisoned = false ∧ e = .notInitialised) := by
  unfold State.entry at h
  revert h
  cases s.poisoned <;> cases s.bound <;> cases s.ctx <;> simp +contextual [eq_comm]

/-- A context command other than INIT waits, raises an error, or completes. -/
theorem boundCommand_cases {run : Config.Params → Context → α → Except Error (Context × List Word)}
    (h : boundCommand read run s = .next t) :
    (read s.din = none ∧ t = s) ∨
    (∃ x rest e, read s.din = some (x, rest) ∧
      (s.entry = .error e ∨ ∃ c, s.entry = .ok c ∧ run s.params c x = .error e) ∧
      t = State.raise .context e (s.take rest)) ∨
    (∃ x rest c c' out, read s.din = some (x, rest) ∧ s.entry = .ok c ∧ run s.params c x = .ok (c', out) ∧
      t = State.complete out { s.take rest with ctx := some c' }) := by
  unfold boundCommand at h
  split at h
  · left; cases h; exact ⟨‹_›, rfl⟩
  · split at h
    · right; left; cases h; exact ⟨_, _, _, ‹_›, .inl ‹_›, rfl⟩
    · split at h
      · right; left; cases h; exact ⟨_, _, _, ‹_›, .inr ⟨_, ‹_›, ‹_›⟩, rfl⟩
      · right; right; cases h; exact ⟨_, _, _, _, _, ‹_›, ‹_›, ‹_›, rfl⟩

theorem boundCommand_completes {run : Config.Params → Context → α → Except Error (Context × List Word)} {x : α}
    {rest : List Word} {c c' : Context} {out : List Word} (hr : read s.din = some (x, rest)) (he : s.entry = .ok c)
    (hc : run s.params c x = .ok (c', out)) :
    boundCommand read run s = .next (State.complete out { s.take rest with ctx := some c' }) := by
  simp [boundCommand, hr, he, hc]

theorem boundCommand_entry {run : Config.Params → Context → α → Except Error (Context × List Word)} {x : α}
    {rest : List Word} {e : Error} (hr : read s.din = some (x, rest)) (he : s.entry = .error e) :
    boundCommand read run s = .next (State.raise .context e (s.take rest)) := by
  simp [boundCommand, hr, he]

theorem boundCommand_raises {run : Config.Params → Context → α → Except Error (Context × List Word)} {x : α}
    {rest : List Word} {c : Context} {e : Error} (hr : read s.din = some (x, rest)) (he : s.entry = .ok c)
    (hc : run s.params c x = .error e) :
    boundCommand read run s = .next (State.raise .context e (s.take rest)) := by
  simp [boundCommand, hr, he, hc]

/-- INIT waits, raises an error that leaves the context unbound, or constructs a context. -/
theorem constructCommand_cases {build : Config.Params → α → Except Error Context}
    (h : constructCommand read build s = .next t) :
    (read s.din = none ∧ t = s) ∨
    (∃ x rest e, read s.din = some (x, rest) ∧ build s.params x = .error e ∧
      t = State.raise .context e { s.take rest with bound := false }) ∨
    (∃ x rest c, read s.din = some (x, rest) ∧ build s.params x = .ok c ∧
      t = State.complete [] { s.take rest with ctx := some c, poisoned := false, bound := true }) := by
  unfold constructCommand at h
  split at h
  · left; cases h; exact ⟨‹_›, rfl⟩
  · split at h
    · right; left; cases h; exact ⟨_, _, _, ‹_›, ‹_›, rfl⟩
    · right; right; cases h; exact ⟨_, _, _, ‹_›, ‹_›, rfl⟩

theorem constructCommand_completes {build : Config.Params → α → Except Error Context} {x : α} {rest : List Word}
    {c : Context} (hr : read s.din = some (x, rest)) (hb : build s.params x = .ok c) :
    constructCommand read build s =
      .next (State.complete [] { s.take rest with ctx := some c, poisoned := false, bound := true }) := by
  simp [constructCommand, hr, hb]

theorem constructCommand_raises {build : Config.Params → α → Except Error Context} {x : α} {rest : List Word}
    {e : Error} (hr : read s.din = some (x, rest)) (hb : build s.params x = .error e) :
    constructCommand read build s = .next (State.raise .context e { s.take rest with bound := false }) := by
  simp [constructCommand, hr, hb]

end

/-! ### Blocks -/

@[simp] theorem foldBlocks_zero {σ α : Type} (size : Nat) (f : σ → List α → σ) (h : σ) (l : List α) :
    foldBlocks size f 0 h l = h := rfl

/-- Folding over blocks laid end to end is folding over the list of blocks. -/
theorem foldBlocks_flatten {σ α : Type} (size : Nat) (f : σ → List α → σ) (blks : List (List α))
    (hb : ∀ b ∈ blks, b.length = size) (h : σ) (tail : List α) :
    foldBlocks size f blks.length h (blks.flatten ++ tail) = blks.foldl f h := by
  induction blks generalizing h with
  | nil => rfl
  | cons b bs ih =>
    have hlen : b.length = size := hb b (by simp)
    simp only [List.length_cons, foldBlocks, List.flatten_cons, List.append_assoc, List.foldl_cons]
    rw [List.take_left' hlen, List.drop_left' hlen]
    exact ih (fun b' h' => hb b' (by simp [h'])) _

/-- Two runs of blocks in a row. -/
theorem foldBlocks_add {σ α : Type} (size : Nat) (f : σ → List α → σ) (m n : Nat) (h : σ) (l : List α) :
    foldBlocks size f (m + n) h l = foldBlocks size f n (foldBlocks size f m h l) (l.drop (m * size)) := by
  induction m generalizing h l with
  | zero => simp
  | succ m ih =>
    rw [show m + 1 + n = (m + n) + 1 by omega]
    simp only [foldBlocks]
    rw [ih, List.drop_drop, show size + m * size = (m + 1) * size by ring]

/-- Words after the blocks folded do not matter. -/
theorem foldBlocks_append {σ α : Type} (size : Nat) (f : σ → List α → σ) (n : Nat) (h : σ) (l tail : List α)
    (hl : n * size ≤ l.length) : foldBlocks size f n h (l ++ tail) = foldBlocks size f n h l := by
  induction n generalizing h l with
  | zero => rfl
  | succ n ih =>
    have hs : size ≤ l.length := le_trans (Nat.le_mul_of_pos_left _ (by omega)) hl
    simp only [foldBlocks]
    rw [List.take_append_of_le_length hs, List.drop_append_of_le_length hs]
    exact ih _ _ (by rw [List.length_drop]; have : (n + 1) * size = n * size + size := by ring
                     omega)

end Sys2Proof.Machine
end

