-- ==== Sys2Proof/Laws/Exec.lean ====
section
/-! SUPPORT. What a command can do, said once for each class of command: the inversion lemmas from which every claim
about all commands follows. -/

namespace Sys2Proof.Machine

/-- The errors a test-port operation may raise after decode (R194). -/
def portErrors : List Error := [.unalignedLength, .lengthLimit, .operandRange, .outputLenNotByte]

/-- What a test-port operation may do: wait, raise one of `portErrors`, or write results. -/
def PortEffect (s t : State) : Prop :=
  t = s ∨ (∃ rest e, e ∈ portErrors ∧ t = State.raise .testPort e (s.take rest)) ∨
  (∃ rest out, t = State.complete out (s.take rest))

theorem portCommand_effect {α : Type} {read : Din α} {checks : Config.Params → α → Checks} {result : α → List Word}
    {s t : State} (hc : ∀ p x e, firstError (checks p x) = some e → e ∈ portErrors)
    (h : portCommand read checks result s = .next t) : PortEffect s t := by
  obtain ⟨-, rfl⟩ | ⟨x, rest, e, -, he, rfl⟩ | ⟨x, rest, -, -, rfl⟩ := portCommand_cases h
  · exact .inl rfl
  · exact .inr (.inl ⟨rest, e, hc _ _ _ he, rfl⟩)
  · exact .inr (.inr ⟨rest, _, rfl⟩)

theorem noChecks_errors {α : Type} (p : Config.Params) (x : α) (e : Error) (h : firstError (noChecks p x) = some e) :
    e ∈ portErrors := by
  simp [noChecks] at h

theorem finalizeChecks_errors {b : Nat} {p : Config.Params} {n : Nat} {m : WireString} {e : Error}
    (h : firstError (finalizeChecks b p n m) = some e) : e ∈ portErrors := by
  refine firstError_sat h ?_
  simp [finalizeChecks, portErrors]

theorem sha3Checks_errors {p : Config.Params} {x : Sha3Operands} {e : Error}
    (h : firstError (sha3Checks p x) = some e) : e ∈ portErrors := by
  refine firstError_sat h ?_
  simp [sha3Checks, portErrors]

theorem stringChecks_errors {p : Config.Params} {x : WireString} {e : Error}
    (h : firstError (stringChecks p x) = some e) : e ∈ portErrors := by
  refine firstError_sat h ?_
  simp [stringChecks, portErrors]

theorem bytePadChecks_errors {p : Config.Params} {x : Word × WireString} {e : Error}
    (h : firstError (stringChecks p x.2 ++ [(x.1 == 0, .operandRange)]) = some e) : e ∈ portErrors := by
  refine firstError_sat h ?_
  simp [stringChecks, portErrors]

/-- The word primitives make no check, so they wait or complete. -/
theorem primitive_effect {α : Type} {read : Din α} {result : α → List Word} {s t : State}
    (h : portCommand read noChecks result s = .next t) : PortEffect s t :=
  portCommand_effect noChecks_errors h

/-- R109, R155, R194: the inversion lemma of the forty test-port operations. -/
theorem exec_testPort {i : Instr} {s t : State} (hi : i.commandClass = .testPort) (h : exec i s = .next t) :
    PortEffect s t := by
  cases i with
  | init | update | setHmacKey | getHash | getHmac | getMac => cases hi
  | sha1Finalize =>
    have h' : execSha1Finalize s = .next t := h
    unfold execSha1Finalize at h'
    exact portCommand_effect (fun _ _ _ he => finalizeChecks_errors he) h'
  | sha256Finalize v =>
    have h' : execSha256Finalize v s = .next t := h
    unfold execSha256Finalize at h'
    exact portCommand_effect (fun _ _ _ he => finalizeChecks_errors he) h'
  | sha512Finalize v =>
    have h' : execSha512Finalize v s = .next t := h
    unfold execSha512Finalize at h'
    exact portCommand_effect (fun _ _ _ he => finalizeChecks_errors he) h'
  | sha3Finalize v d =>
    have h' : execSha3Finalize v d s = .next t := h
    unfold execSha3Finalize at h'
    exact portCommand_effect (fun _ _ _ he => sha3Checks_errors he) h'
  | encodeString =>
    have h' : execEncodeString s = .next t := h
    unfold execEncodeString at h'
    exact portCommand_effect (fun _ _ _ he => stringChecks_errors he) h'
  | bytePad =>
    have h' : execBytePad s = .next t := h
    unfold execBytePad at h'
    exact portCommand_effect (fun _ _ _ he => bytePadChecks_errors he) h'
  | _ =>
    simp only [exec, execSha1Compress, execSha256Compress, execSha512Compress, execKeccakF, execSha3Absorb,
      execLeftEncode, execRightEncode, execRotl32, execRotr32, execShr32, execCh32, execParity32, execMaj32,
      execSigma0x256, execSigma1x256, execGamma0x256, execGamma1x256, execAdd32x2, execAdd32x4, execAdd32x5,
      execRotl64, execRotr64, execShr64, execXor64x2, execXor64x5, execAdd64x2, execAdd64x4, execAdd64x5, execCh64,
      execMaj64, execSigma0x512, execSigma1x512, execGamma0x512, execGamma1x512, unary32, binary32, ternary32,
      quaternary32, quinary32, unary64, binary64, ternary64, quaternary64, quinary64] at h
    exact primitive_effect h

/-- What a context command other than INIT may do: wait, raise an error that poisons, or change the context and
write results. -/
def BoundEffect (ok : Config.Params → Context → Context → Prop) (s t : State) : Prop :=
  t = s ∨ (∃ rest e, e.reserved = false ∧ e ≠ .illegalCommand ∧ t = State.raise .context e (s.take rest)) ∨
  (∃ rest c c' out, s.entry = .ok c ∧ ok s.params c c' ∧
    t = State.complete out { s.take rest with ctx := some c' })

theorem boundCommand_effect {α : Type} {read : Din α} {ok : Config.Params → Context → Context → Prop}
    {run : Config.Params → Context → α → Except Error (Context × List Word)} {s t : State}
    (he : ∀ p c x e, run p c x = .error e → e.reserved = false ∧ e ≠ .illegalCommand)
    (hok : ∀ p c x c' out, run p c x = .ok (c', out) → ok p c c')
    (h : boundCommand read run s = .next t) : BoundEffect ok s t := by
  obtain ⟨-, rfl⟩ | ⟨x, rest, e, -, hr, rfl⟩ | ⟨x, rest, c, c', out, -, hc, hr, rfl⟩ := boundCommand_cases h
  · exact .inl rfl
  · refine .inr (.inl ⟨rest, e, ?_, ?_, rfl⟩) <;>
    · obtain hr | ⟨c, -, hr⟩ := hr
      · rcases State.entry_error hr with ⟨-, rfl⟩ | ⟨-, rfl⟩ <;> decide
      · first | exact (he _ _ _ _ hr).1 | exact (he _ _ _ _ hr).2
  · exact .inr (.inr ⟨rest, c, c', out, hc, hok _ _ _ _ _ hr, rfl⟩)

theorem updateChecks_errors {p : Config.Params} {c : Context} {x : WireString} {e : Error}
    (h : firstError (updateChecks p c x) = some e) : e.reserved = false ∧ e ≠ .illegalCommand := by
  refine firstError_sat (P := fun e => e.reserved = false ∧ e ≠ .illegalCommand) h ?_
  simp [updateChecks, Error.reserved]

theorem setKeyChecks_errors {p : Config.Params} {c : Context} {x : WireString} {e : Error}
    (h : firstError (setKeyChecks p c x) = some e) : e.reserved = false ∧ e ≠ .illegalCommand := by
  refine firstError_sat (P := fun e => e.reserved = false ∧ e ≠ .illegalCommand) h ?_
  simp [setKeyChecks, Error.reserved]

theorem initChecks_errors {p : Config.Params} {v : Variant} {x : InitOperands} {e : Error}
    (h : firstError (initChecks p v x) = some e) : e.reserved = false ∧ e ≠ .illegalCommand := by
  refine firstError_sat (P := fun e => e.reserved = false ∧ e ≠ .illegalCommand) h ?_
  simp [initChecks, Error.reserved]

theorem outBitsOf_errors {p : Config.Params} {v : Variant} {l : Option Nat} {e : Error}
    (h : outBitsOf p v l = .error e) : e.reserved = false ∧ e ≠ .illegalCommand := by
  unfold outBitsOf at h
  split at h
  · cases h
  · split at h
    · cases h; decide
    · have := firstError_mem (checked_error h)
      simp only [List.mem_cons, Prod.mk.injEq, List.not_mem_nil, or_false] at this
      rcases this with ⟨-, rfl⟩ | ⟨-, rfl⟩ <;> decide

theorem hashResult_errors {p : Config.Params} {c : Context} {l : Option Nat} {e : Error}
    (h : hashResult p c l = .error e) : e.reserved = false ∧ e ≠ .illegalCommand := by
  unfold hashResult at h
  split at h
  · cases h; decide
  · split at h
    · next he => cases h; exact outBitsOf_errors he
    · cases h

theorem hmacResult_errors {c : Context} {e : Error} (h : hmacResult c = .error e) :
    e.reserved = false ∧ e ≠ .illegalCommand := by
  unfold hmacResult at h
  split at h
  · next he =>
    cases h
    have := firstError_mem he
    simp only [List.mem_cons, Prod.mk.injEq, List.not_mem_nil, or_false] at this
    rcases this with ⟨-, rfl⟩ | ⟨-, rfl⟩ <;> decide
  · split at h <;> cases h
    decide

theorem macResult_errors {p : Config.Params} {c : Context} {l : Option Nat} {e : Error}
    (h : macResult p c l = .error e) : e.reserved = false ∧ e ≠ .illegalCommand := by
  unfold macResult at h
  split at h
  · next he =>
    cases h
    have := firstError_mem he
    simp only [List.mem_cons, Prod.mk.injEq, List.not_mem_nil, or_false] at this
    rcases this with ⟨-, rfl⟩ | ⟨-, rfl⟩ <;> decide
  · split at h
    · split at h
      · next he => cases h; exact outBitsOf_errors he
      · cases h
    · exact hmacResult_errors h

theorem getAnswer_error {c : Context} {r : Except Error (List Byte)} {e : Error} (h : getAnswer c r = .error e) :
    r = .error e := by
  unfold getAnswer at h
  split at h <;> cases h
  rfl

theorem getAnswer_ok {c c' : Context} {r : Except Error (List Byte)} {out : List Word}
    (h : getAnswer c r = .ok (c', out)) : c' = c ∧ ∃ d, r = .ok d ∧ out = stringWords (orderOf c.variant) d := by
  unfold getAnswer at h
  split at h <;> cases h
  exact ⟨rfl, _, rfl, rfl⟩

/-- How a context command other than INIT changes the context when it completes. -/
def contextChange : Instr → Config.Params → Context → Context → Prop
  | .update, p, c, c' => ∃ x, firstError (updateChecks p c x) = none ∧ c' = absorbData (x.bytes (orderOf c.variant)) c
  | .setHmacKey, p, c, c' =>
    ∃ x, firstError (setKeyChecks p c x) = none ∧ c' = applyHmacKey (x.bytes (orderOf c.variant)) c
  | _, _, c, c' => c' = c

/-- R179: the inversion lemma of the context commands other than INIT. -/
theorem exec_context {i : Instr} {s t : State} (hi : i.commandClass = .context) (hn : ∀ v p f c, i ≠ .init v p f c)
    (h : exec i s = .next t) : BoundEffect (contextChange i) s t := by
  cases i with
  | init v p f c => exact absurd rfl (hn v p f c)
  | update =>
    have h' : execUpdate s = .next t := h
    unfold execUpdate at h'
    refine boundCommand_effect (fun p c x e he => ?_) (fun p c x c' out ho => ?_) h'
    · exact updateChecks_errors (checked_error he)
    · obtain ⟨hf, ho⟩ := checked_ok ho
      exact ⟨x, hf, congrArg Prod.fst ho⟩
  | setHmacKey =>
    have h' : execSetHmacKey s = .next t := h
    unfold execSetHmacKey at h'
    refine boundCommand_effect (fun p c x e he => ?_) (fun p c x c' out ho => ?_) h'
    · exact setKeyChecks_errors (checked_error he)
    · obtain ⟨hf, ho⟩ := checked_ok ho
      exact ⟨x, hf, congrArg Prod.fst ho⟩
  | getHash p =>
    have h' : execGetHash p s = .next t := h
    unfold execGetHash at h'
    exact boundCommand_effect (fun p c x e he => hashResult_errors (getAnswer_error he))
      (fun p c x c' out ho => (getAnswer_ok ho).1) h'
  | getHmac =>
    have h' : execGetHmac s = .next t := h
    unfold execGetHmac at h'
    exact boundCommand_effect (fun p c x e he => hmacResult_errors (getAnswer_error he))
      (fun p c x c' out ho => (getAnswer_ok ho).1) h'
  | getMac p =>
    have h' : execGetMac p s = .next t := h
    unfold execGetMac at h'
    exact boundCommand_effect (fun p c x e he => macResult_errors (getAnswer_error he))
      (fun p c x c' out ho => (getAnswer_ok ho).1) h'
  | _ => cases hi

/-- R180: the inversion lemma of INIT. -/
theorem exec_init {v : Option Variant} {p f c : Bool} {s t : State} (h : exec (.init v p f c) s = .next t) :
    t = s ∨
    (∃ rest e, e.reserved = false ∧ e ≠ .illegalCommand ∧
      t = State.raise .context e { s.take rest with bound := false }) ∨
    (∃ rest x w, v = some w ∧ firstError (initChecks s.params w x) = none ∧ dinInit p f c s.din = some (x, rest) ∧
      t = State.complete [] { s.take rest with
        ctx := some (keyContext w (x.key.map (WireString.bytes (orderOf w))) (bytesOr (orderOf w) x.fn)
          (bytesOr (orderOf w) x.cust) (freshContext w x.nr)), poisoned := false, bound := true }) := by
  have h' : constructCommand (dinInit p f c) (buildContext v) s = .next t := h
  obtain ⟨-, rfl⟩ | ⟨x, rest, e, -, hb, rfl⟩ | ⟨x, rest, c', hr, hb, rfl⟩ := constructCommand_cases h'
  · exact .inl rfl
  · refine .inr (.inl ⟨rest, e, ?_⟩)
    cases v with
    | none => simp only [buildContext] at hb; cases hb; exact ⟨rfl, by decide, rfl⟩
    | some w => exact ⟨(initChecks_errors (checked_error hb)).1, (initChecks_errors (checked_error hb)).2, rfl⟩
  · refine .inr (.inr ⟨rest, x, ?_⟩)
    cases v with
    | none => simp only [buildContext] at hb; cases hb
    | some w =>
      obtain ⟨hf, rfl⟩ := checked_ok hb
      exact ⟨w, rfl, hf, hr, rfl⟩

/-- Every command answers a next state: the engine has no fault, and no command is refused (R308, R312). -/
theorem exec_next (i : Instr) (s : State) : ∃ t, exec i s = .next t := by
  have hp : ∀ {α : Type} (read : Din α) (checks : Config.Params → α → Checks) (result : α → List Word),
      ∃ t, portCommand read checks result s = .next t := by
    intro α read checks result
    unfold portCommand
    split
    · exact ⟨_, rfl⟩
    · split <;> exact ⟨_, rfl⟩
  have hb : ∀ {α : Type} (read : Din α) (run : Config.Params → Context → α → Except Error (Context × List Word)),
      ∃ t, boundCommand read run s = .next t := by
    intro α read run
    unfold boundCommand
    split
    · exact ⟨_, rfl⟩
    · split
      · exact ⟨_, rfl⟩
      · split <;> exact ⟨_, rfl⟩
  have hc : ∀ {α : Type} (read : Din α) (build : Config.Params → α → Except Error Context),
      ∃ t, constructCommand read build s = .next t := by
    intro α read build
    unfold constructCommand
    split
    · exact ⟨_, rfl⟩
    · split <;> exact ⟨_, rfl⟩
  cases i with
  | init v p f c => simp only [exec, execInit]; exact hc _ _
  | update => simp only [exec, execUpdate]; exact hb _ _
  | setHmacKey => simp only [exec, execSetHmacKey]; exact hb _ _
  | getHash p => simp only [exec, execGetHash]; exact hb _ _
  | getHmac => simp only [exec, execGetHmac]; exact hb _ _
  | getMac p => simp only [exec, execGetMac]; exact hb _ _
  | _ =>
    simp only [exec, execSha1Compress, execSha256Compress, execSha512Compress, execKeccakF, execSha3Absorb,
      execSha1Finalize, execSha256Finalize, execSha512Finalize, execSha3Finalize, execEncodeString, execBytePad,
      execLeftEncode, execRightEncode, execRotl32, execRotr32, execShr32, execCh32, execParity32, execMaj32,
      execSigma0x256, execSigma1x256, execGamma0x256, execGamma1x256, execAdd32x2, execAdd32x4, execAdd32x5,
      execRotl64, execRotr64, execShr64, execXor64x2, execXor64x5, execAdd64x2, execAdd64x4, execAdd64x5, execCh64,
      execMaj64, execSigma0x512, execSigma1x512, execGamma0x512, execGamma1x512, unary32, binary32, ternary32,
      quaternary32, quinary32, unary64, binary64, ternary64, quaternary64, quinary64]
    exact hp _ _ _

end Sys2Proof.Machine
end

