-- ==== Sys2Proof/Laws/Din.lean ====
section
/-! SUPPORT. Every command takes a prefix of the words on `DIN`, and what it takes does not depend on the words after it. -/

namespace Sys2Proof.Machine

/-- The reader takes a prefix, whatever follows it. -/
def Din.Local {α : Type} (d : Din α) : Prop :=
  ∀ din x rest, d din = some (x, rest) → ∃ ops, din = ops ++ rest ∧ ∀ later, d (ops ++ later) = some (x, later)

section
variable {α β : Type}

theorem Din.local_pure (a : α) : (Din.pure a).Local := by
  rintro din x rest h
  cases h
  exact ⟨[], rfl, fun later => rfl⟩

theorem Din.local_bind {d : Din α} {f : α → Din β} (hd : d.Local) (hf : ∀ a, (f a).Local) : (d.bind f).Local := by
  intro din x rest h
  obtain ⟨a, mid, h1, h2⟩ := Din.bind_eq_some.mp h
  obtain ⟨o1, rfl, k1⟩ := hd _ _ _ h1
  obtain ⟨o2, rfl, k2⟩ := hf a _ _ _ h2
  refine ⟨o1 ++ o2, by simp, fun later => ?_⟩
  rw [List.append_assoc, Din.bind_some (k1 _)]
  exact k2 later

theorem Din.local_map {d : Din α} {f : α → β} (hd : d.Local) : (d.map f).Local :=
  Din.local_bind hd fun a => Din.local_pure (f a)

theorem Din.local_when {d : Din α} (b : Bool) (hd : d.Local) : (d.when b).Local := by
  cases b
  · exact Din.local_pure none
  · exact Din.local_map hd

end

theorem dinWord_local : dinWord.Local := by
  intro din x rest h
  cases din with
  | nil => cases h
  | cons w ws => cases h; exact ⟨[x], rfl, fun later => rfl⟩

theorem dinWords_local (n : Nat) : (dinWords n).Local := by
  intro din x rest h
  obtain ⟨hl, rfl⟩ := dinWords_eq_some h
  exact ⟨x, rfl, fun later => dinWords_append x later n hl⟩

theorem dinU64_local : dinU64.Local :=
  Din.local_bind dinWord_local fun _ => Din.local_bind dinWord_local fun _ => Din.local_pure _

theorem dinLen_local : dinLen.Local := Din.local_map dinU64_local

theorem dinU64s_local (n : Nat) : (dinU64s n).Local := Din.local_map (dinWords_local _)

theorem dinString_local : dinString.Local := Din.local_bind dinLen_local fun _ => Din.local_map (dinWords_local _)

theorem dinFive_local : dinFive.Local := Din.local_map (dinWords_local 5)

theorem dinEight_local : dinEight.Local := Din.local_map (dinWords_local 8)

theorem dinEightU64_local : dinEightU64.Local := Din.local_map (dinU64s_local 8)

theorem dinLanes_local : dinLanes.Local := Din.local_map (dinU64s_local 25)

theorem dinFinalize_local {σ : Type} {d : Din σ} (hd : d.Local) : (dinFinalize d).Local :=
  Din.local_bind hd fun _ => Din.local_bind dinLen_local fun _ => Din.local_map dinString_local

theorem dinSha3_local : dinSha3.Local :=
  Din.local_bind dinLanes_local fun _ => Din.local_bind dinLen_local fun _ => Din.local_map dinString_local

theorem dinInit_local (p f c : Bool) : (dinInit p f c).Local :=
  Din.local_bind dinWord_local fun _ => Din.local_bind (Din.local_when p dinString_local) fun _ =>
    Din.local_bind (Din.local_when f dinString_local) fun _ => Din.local_map (Din.local_when c dinString_local)

/-! ### The three shapes, and with them every command -/

/-- Every command is one of the three shapes over a local reader (R77, R179, R180, R194). -/
def Shape (i : Instr) : Prop :=
  (∃ (α : Type) (read : Din α) (checks : Config.Params → α → Checks) (result : α → List Word),
    i.commandClass = .testPort ∧ read.Local ∧ (∀ p x e, firstError (checks p x) = some e → e ∈ portErrors) ∧
    ∀ s, exec i s = portCommand read checks result s) ∨
  (∃ (α : Type) (read : Din α) (run : Config.Params → Context → α → Except Error (Context × List Word)),
    i.commandClass = .context ∧ (∀ v p f c, i ≠ .init v p f c) ∧ read.Local ∧
    (∀ p c x e, run p c x = .error e → e.reserved = false ∧ e ≠ .illegalCommand) ∧
    (∀ p c x c' out, run p c x = .ok (c', out) → contextChange i p c c') ∧ ∀ s, exec i s = boundCommand read run s) ∨
  (∃ (v : Option Variant) (p f c : Bool), i = .init v p f c ∧
    ∀ s, exec i s = constructCommand (dinInit p f c) (buildContext v) s)

theorem shape_port {i : Instr} {α : Type} {read : Din α} {checks : Config.Params → α → Checks} {result : α → List Word}
    (hi : i.commandClass = .testPort) (hl : read.Local)
    (hc : ∀ p x e, firstError (checks p x) = some e → e ∈ portErrors)
    (h : ∀ s, exec i s = portCommand read checks result s) : Shape i :=
  .inl ⟨α, read, checks, result, hi, hl, hc, h⟩

theorem shape_primitive {i : Instr} {α : Type} {read : Din α} {result : α → List Word}
    (hi : i.commandClass = .testPort) (hl : read.Local) (h : ∀ s, exec i s = portCommand read noChecks result s) :
    Shape i :=
  shape_port hi hl noChecks_errors h

theorem shape_bound {i : Instr} {α : Type} {read : Din α}
    {run : Config.Params → Context → α → Except Error (Context × List Word)}
    (hi : i.commandClass = .context) (hn : ∀ v p f c, i ≠ .init v p f c) (hl : read.Local)
    (he : ∀ p c x e, run p c x = .error e → e.reserved = false ∧ e ≠ .illegalCommand)
    (hc : ∀ p c x c' out, run p c x = .ok (c', out) → contextChange i p c c')
    (h : ∀ s, exec i s = boundCommand read run s) : Shape i :=
  .inr (.inl ⟨α, read, run, hi, hn, hl, he, hc, h⟩)

theorem shape (i : Instr) : Shape i := by
  have w := dinWord_local
  have u := dinU64_local
  cases i with
  | init v p f c => exact .inr (.inr ⟨v, p, f, c, rfl, fun _ => rfl⟩)
  | update =>
    exact shape_bound (by rfl) (by simp) dinString_local (fun _ _ _ _ h => updateChecks_errors (checked_error h))
      (fun _ _ x _ _ h => ⟨x, (checked_ok h).1, congrArg Prod.fst (checked_ok h).2⟩) fun s => execUpdate.eq_1 s
  | setHmacKey =>
    exact shape_bound (by rfl) (by simp) dinString_local (fun _ _ _ _ h => setKeyChecks_errors (checked_error h))
      (fun _ _ x _ _ h => ⟨x, (checked_ok h).1, congrArg Prod.fst (checked_ok h).2⟩) fun s => execSetHmacKey.eq_1 s
  | getHash p =>
    exact shape_bound (by rfl) (by simp) (Din.local_when p dinLen_local) (fun _ _ _ _ h => hashResult_errors (getAnswer_error h))
      (fun _ _ _ _ _ h => (getAnswer_ok h).1) fun s => execGetHash.eq_1 p s
  | getHmac =>
    exact shape_bound (by rfl) (by simp) (Din.local_pure ()) (fun _ _ _ _ h => hmacResult_errors (getAnswer_error h))
      (fun _ _ _ _ _ h => (getAnswer_ok h).1) fun s => execGetHmac.eq_1 s
  | getMac p =>
    exact shape_bound (by rfl) (by simp) (Din.local_when p dinLen_local) (fun _ _ _ _ h => macResult_errors (getAnswer_error h))
      (fun _ _ _ _ _ h => (getAnswer_ok h).1) fun s => execGetMac.eq_1 p s
  | sha1Compress =>
    exact shape_primitive rfl (Din.local_bind dinFive_local fun _ => Din.local_map (dinWords_local 16)) fun s => execSha1Compress.eq_1 s
  | sha1Finalize =>
    exact shape_port rfl (dinFinalize_local dinFive_local) (fun _ _ _ h => finalizeChecks_errors h) fun s => execSha1Finalize.eq_1 s
  | sha256Compress =>
    exact shape_primitive rfl (Din.local_bind dinEight_local fun _ => Din.local_map (dinWords_local 16)) fun s => execSha256Compress.eq_1 s
  | sha256Finalize v =>
    exact shape_port rfl (dinFinalize_local dinEight_local) (fun _ _ _ h => finalizeChecks_errors h) fun s => execSha256Finalize.eq_1 v s
  | sha512Compress =>
    exact shape_primitive rfl (Din.local_bind dinEightU64_local fun _ => Din.local_map (dinWords_local 32)) fun s => execSha512Compress.eq_1 s
  | sha512Finalize v =>
    exact shape_port rfl (dinFinalize_local dinEightU64_local) (fun _ _ _ h => finalizeChecks_errors h) fun s => execSha512Finalize.eq_1 v s
  | keccakF =>
    exact shape_primitive rfl (Din.local_map dinLanes_local) fun s => execKeccakF.eq_1 s
  | sha3Absorb v =>
    exact shape_primitive rfl (Din.local_bind dinLanes_local fun _ => Din.local_map (dinWords_local _)) fun s => execSha3Absorb.eq_1 v s
  | sha3Finalize v d =>
    exact shape_port rfl (dinSha3_local) (fun _ _ _ h => sha3Checks_errors h) fun s => execSha3Finalize.eq_1 v d s
  | leftEncode =>
    exact shape_primitive rfl (dinLen_local) fun s => execLeftEncode.eq_1 s
  | rightEncode =>
    exact shape_primitive rfl (dinLen_local) fun s => execRightEncode.eq_1 s
  | encodeString =>
    exact shape_port rfl (dinString_local) (fun _ _ _ h => stringChecks_errors h) fun s => execEncodeString.eq_1 s
  | bytePad =>
    exact shape_port rfl (Din.local_bind w fun _ => Din.local_map dinString_local) (fun _ _ _ h => bytePadChecks_errors h) fun s => execBytePad.eq_1 s
  | rotl32 n =>
    exact shape_primitive rfl (Din.local_map w) fun s => (execRotl32.eq_1 n s).trans (unary32.eq_1 _ s)
  | rotr32 n =>
    exact shape_primitive rfl (Din.local_map w) fun s => (execRotr32.eq_1 n s).trans (unary32.eq_1 _ s)
  | shr32 n =>
    exact shape_primitive rfl (Din.local_map w) fun s => (execShr32.eq_1 n s).trans (unary32.eq_1 _ s)
  | sigma0x256 =>
    exact shape_primitive rfl (Din.local_map w) fun s => (execSigma0x256.eq_1 s).trans (unary32.eq_1 _ s)
  | sigma1x256 =>
    exact shape_primitive rfl (Din.local_map w) fun s => (execSigma1x256.eq_1 s).trans (unary32.eq_1 _ s)
  | gamma0x256 =>
    exact shape_primitive rfl (Din.local_map w) fun s => (execGamma0x256.eq_1 s).trans (unary32.eq_1 _ s)
  | gamma1x256 =>
    exact shape_primitive rfl (Din.local_map w) fun s => (execGamma1x256.eq_1 s).trans (unary32.eq_1 _ s)
  | add32x2 =>
    exact shape_primitive rfl (Din.local_bind w fun _ => Din.local_map w) fun s => (execAdd32x2.eq_1 s).trans (binary32.eq_1 _ s)
  | ch32 =>
    exact shape_primitive rfl (Din.local_bind w fun _ => Din.local_bind w fun _ => Din.local_map w) fun s => (execCh32.eq_1 s).trans (ternary32.eq_1 _ s)
  | parity32 =>
    exact shape_primitive rfl (Din.local_bind w fun _ => Din.local_bind w fun _ => Din.local_map w) fun s => (execParity32.eq_1 s).trans (ternary32.eq_1 _ s)
  | maj32 =>
    exact shape_primitive rfl (Din.local_bind w fun _ => Din.local_bind w fun _ => Din.local_map w) fun s => (execMaj32.eq_1 s).trans (ternary32.eq_1 _ s)
  | add32x4 =>
    exact shape_primitive rfl (Din.local_bind w fun _ => Din.local_bind w fun _ => Din.local_bind w fun _ => Din.local_map w) fun s => (execAdd32x4.eq_1 s).trans (quaternary32.eq_1 _ s)
  | add32x5 =>
    exact shape_primitive rfl (Din.local_bind w fun _ => Din.local_bind w fun _ => Din.local_bind w fun _ => Din.local_bind w fun _ => Din.local_map w) fun s => (execAdd32x5.eq_1 s).trans (quinary32.eq_1 _ s)
  | rotl64 n =>
    exact shape_primitive rfl (Din.local_map u) fun s => (execRotl64.eq_1 n s).trans (unary64.eq_1 _ s)
  | rotr64 n =>
    exact shape_primitive rfl (Din.local_map u) fun s => (execRotr64.eq_1 n s).trans (unary64.eq_1 _ s)
  | shr64 n =>
    exact shape_primitive rfl (Din.local_map u) fun s => (execShr64.eq_1 n s).trans (unary64.eq_1 _ s)
  | sigma0x512 =>
    exact shape_primitive rfl (Din.local_map u) fun s => (execSigma0x512.eq_1 s).trans (unary64.eq_1 _ s)
  | sigma1x512 =>
    exact shape_primitive rfl (Din.local_map u) fun s => (execSigma1x512.eq_1 s).trans (unary64.eq_1 _ s)
  | gamma0x512 =>
    exact shape_primitive rfl (Din.local_map u) fun s => (execGamma0x512.eq_1 s).trans (unary64.eq_1 _ s)
  | gamma1x512 =>
    exact shape_primitive rfl (Din.local_map u) fun s => (execGamma1x512.eq_1 s).trans (unary64.eq_1 _ s)
  | xor64x2 =>
    exact shape_primitive rfl (Din.local_bind u fun _ => Din.local_map u) fun s => (execXor64x2.eq_1 s).trans (binary64.eq_1 _ s)
  | add64x2 =>
    exact shape_primitive rfl (Din.local_bind u fun _ => Din.local_map u) fun s => (execAdd64x2.eq_1 s).trans (binary64.eq_1 _ s)
  | ch64 =>
    exact shape_primitive rfl (Din.local_bind u fun _ => Din.local_bind u fun _ => Din.local_map u) fun s => (execCh64.eq_1 s).trans (ternary64.eq_1 _ s)
  | maj64 =>
    exact shape_primitive rfl (Din.local_bind u fun _ => Din.local_bind u fun _ => Din.local_map u) fun s => (execMaj64.eq_1 s).trans (ternary64.eq_1 _ s)
  | add64x4 =>
    exact shape_primitive rfl (Din.local_bind u fun _ => Din.local_bind u fun _ => Din.local_bind u fun _ => Din.local_map u) fun s => (execAdd64x4.eq_1 s).trans (quaternary64.eq_1 _ s)
  | xor64x5 =>
    exact shape_primitive rfl (Din.local_bind u fun _ => Din.local_bind u fun _ => Din.local_bind u fun _ => Din.local_bind u fun _ => Din.local_map u) fun s => (execXor64x5.eq_1 s).trans (quinary64.eq_1 _ s)
  | add64x5 =>
    exact shape_primitive rfl (Din.local_bind u fun _ => Din.local_bind u fun _ => Din.local_bind u fun _ => Din.local_bind u fun _ => Din.local_map u) fun s => (execAdd64x5.eq_1 s).trans (quinary64.eq_1 _ s)

end Sys2Proof.Machine
end

