-- ==== Sys2Proof/Laws/Effect.lean ====
section
/-! SUPPORT. Everything a command can do, in one lemma for all commands, which the claims about all commands cite. -/

namespace Sys2Proof.Machine

/-- What one command may do: wait, or take its operand words `ops` and raise an error or complete.  Each case says what
the command does in any other state that agrees on the parameters (and, for a context command other than INIT, on the
context), with the same operands and any words after them. -/
def CommandEffect (i : Instr) (s t : State) : Prop :=
  (t = s ∧ ∀ s', s'.din = s.din → exec i s' = .next s') ∨ ∃ ops rest, s.din = ops ++ rest ∧
   ((i.commandClass = .testPort ∧ ∃ e, e ∈ portErrors ∧ t = State.raise .testPort e (s.take rest) ∧
      ∀ s', s'.params = s.params → ∀ later, s'.din = ops ++ later →
        exec i s' = .next (State.raise .testPort e (s'.take later))) ∨
    (i.commandClass = .testPort ∧ ∃ out, t = State.complete out (s.take rest) ∧
      ∀ s', s'.params = s.params → ∀ later, s'.din = ops ++ later →
        exec i s' = .next (State.complete out (s'.take later))) ∨
    (i.commandClass = .context ∧ (∀ v p f c, i ≠ .init v p f c) ∧ ∃ e, e.reserved = false ∧ e ≠ .illegalCommand ∧
      t = State.raise .context e (s.take rest) ∧ (∀ e', s.entry = .error e' → e' = e) ∧
      ∀ s', s'.params = s.params → s'.entry = s.entry → ∀ later, s'.din = ops ++ later →
        exec i s' = .next (State.raise .context e (s'.take later))) ∨
    (i.commandClass = .context ∧ (∀ v p f c, i ≠ .init v p f c) ∧ ∃ c c' out, s.entry = .ok c ∧ contextChange i s.params c c' ∧
      t = State.complete out { s.take rest with ctx := some c' } ∧
      ∀ s', s'.params = s.params → s'.entry = s.entry → ∀ later, s'.din = ops ++ later →
        exec i s' = .next (State.complete out { s'.take later with ctx := some c' })) ∨
    (∃ v p f c, i = .init v p f c ∧ ∃ e, e.reserved = false ∧ e ≠ .illegalCommand ∧
      t = State.raise .context e { s.take rest with bound := false } ∧
      ∀ s', s'.params = s.params → ∀ later, s'.din = ops ++ later →
        exec i s' = .next (State.raise .context e { s'.take later with bound := false })) ∨
    (∃ v p f c c', i = .init v p f c ∧ t = State.complete [] { s.take rest with ctx := some c', poisoned := false, bound := true } ∧
      ∀ s', s'.params = s.params → ∀ later, s'.din = ops ++ later →
        exec i s' = .next (State.complete [] { s'.take later with ctx := some c', poisoned := false, bound := true })))

/-- The inversion lemma of every command (R77, R179, R180, R194, R305). -/
theorem exec_effect {i : Instr} {s t : State} (h : exec i s = .next t) : CommandEffect i s t := by
  rcases shape i with ⟨α, read, checks, result, hi, hl, hc, he⟩ | ⟨α, read, run, hi, hn, hl, hr, hk, he⟩ | ⟨v, p, f, c, rfl, he⟩
  · rw [he] at h
    rcases portCommand_cases h with ⟨h1, rfl⟩ | ⟨x, rest, e, h1, h2, rfl⟩ | ⟨x, rest, h1, h2, rfl⟩
    · exact .inl ⟨rfl, fun s' hd => by rw [he, portCommand, hd, h1]⟩
    · obtain ⟨ops, ho, hl⟩ := hl _ _ _ h1
      refine .inr ⟨ops, rest, ho, .inl ⟨hi, e, hc _ _ _ h2, rfl, fun s' hp later hd => ?_⟩⟩
      rw [he]; exact portCommand_raises (hd ▸ hl later) (hp ▸ h2)
    · obtain ⟨ops, ho, hl⟩ := hl _ _ _ h1
      refine .inr ⟨ops, rest, ho, .inr (.inl ⟨hi, _, rfl, fun s' hp later hd => ?_⟩)⟩
      rw [he]; exact portCommand_completes (hd ▸ hl later) (hp ▸ h2)
  · rw [he] at h
    rcases boundCommand_cases h with ⟨h1, rfl⟩ | ⟨x, rest, e, h1, h2, rfl⟩ | ⟨x, rest, c, c', out, h1, h2, h3, rfl⟩
    · exact .inl ⟨rfl, fun s' hd => by rw [he, boundCommand, hd, h1]⟩
    · obtain ⟨ops, ho, hl⟩ := hl _ _ _ h1
      refine .inr ⟨ops, rest, ho, .inr (.inr (.inl ⟨hi, hn, e, ?_⟩))⟩
      rcases h2 with h2 | ⟨c, h2, h3⟩
      · have : e.reserved = false ∧ e ≠ .illegalCommand := by
          rcases State.entry_error h2 with ⟨-, rfl⟩ | ⟨-, rfl⟩ <;> decide
        refine ⟨this.1, this.2, rfl, fun e' h' => ?_, fun s' hp hen later hd => ?_⟩
        · rw [h2] at h'; cases h'; rfl
        · rw [he]; exact boundCommand_entry (hd ▸ hl later) (hen.trans h2)
      · refine ⟨(hr _ _ _ _ h3).1, (hr _ _ _ _ h3).2, rfl, fun e' h' => ?_, fun s' hp hen later hd => ?_⟩
        · rw [h2] at h'; cases h'
        · rw [he]; exact boundCommand_raises (hd ▸ hl later) (hen.trans h2) (hp ▸ h3)
    · obtain ⟨ops, ho, hl⟩ := hl _ _ _ h1
      refine .inr ⟨ops, rest, ho, .inr (.inr (.inr (.inl ⟨hi, hn, c, c', out, h2, hk _ _ _ _ _ h3, rfl,
        fun s' hp hen later hd => ?_⟩)))⟩
      rw [he]; exact boundCommand_completes (hd ▸ hl later) (hen.trans h2) (hp ▸ h3)
  · rw [he] at h
    rcases constructCommand_cases h with ⟨h1, rfl⟩ | ⟨x, rest, e, h1, h2, rfl⟩ | ⟨x, rest, c', h1, h2, rfl⟩
    · exact .inl ⟨rfl, fun s' hd => by rw [he, constructCommand, hd, h1]⟩
    · obtain ⟨ops, ho, hl⟩ := dinInit_local _ _ _ _ _ _ h1
      have hb : e.reserved = false ∧ e ≠ .illegalCommand := by
        cases v with
        | none => simp only [buildContext] at h2; cases h2; decide
        | some w => exact initChecks_errors (checked_error h2)
      refine .inr ⟨ops, rest, ho, .inr (.inr (.inr (.inr (.inl ⟨v, p, f, c, rfl, e, hb.1, hb.2, rfl,
        fun s' hp later hd => ?_⟩))))⟩
      rw [he]; exact constructCommand_raises (hd ▸ hl later) (hp ▸ h2)
    · obtain ⟨ops, ho, hl⟩ := dinInit_local _ _ _ _ _ _ h1
      refine .inr ⟨ops, rest, ho, .inr (.inr (.inr (.inr (.inr ⟨v, p, f, c, c', rfl, rfl, fun s' hp later hd => ?_⟩))))⟩
      rw [he]; exact constructCommand_completes (hd ▸ hl later) (hp ▸ h2)

end Sys2Proof.Machine
end

