-- ==== Sys2Proof/Laws/Engine.lean ====
section
/-! SUPPORT. The engine's functions: sizes of blocks, packings, digests and keys, and that each change a command makes to
a context keeps the context's invariant. -/

namespace Sys2Proof.Machine

/-! ### Sizes -/

theorem blockBits_eq (v : Variant) : blockBits v = 8 * blockBytes v := by cases v <;> rfl

theorem blockBytes_pos (v : Variant) : 0 < blockBytes v := by cases v <;> decide

/-- The block of SHA3_ABSORB, in words, is the rate over 32 (R272). -/
theorem sha3BlockWords_eq {v : Variant} (hv : v.isSha3 = true) : sha3BlockWords v = blockBits v / 32 := by
  revert hv; cases v <;> decide

@[simp] theorem pack_length (o : ByteOrder) (s : List Byte) : (pack o s).length = (s.length + 3) / 4 := by
  cases o <;> simp [pack, packBE, packLE]

@[simp] theorem unpack_length (o : ByteOrder) (w : List Word) (n : Nat) : (unpack o w n).length = n := by
  cases o <;> simp [unpack, unpackBE, unpackLE]

/-- R172: the digest has `ob / 8` bytes. -/
@[simp] theorem finalize_length (v : Variant) (m : List Byte) (p : Nat) (h : HashState) (ob : Nat) (d : Byte) :
    (finalize v m p h ob d).length = ob / 8 := by
  cases h <;> simp [finalize, unpackBE, sha3Finalize, squeeze, unpackLE]

@[simp] theorem extendTo_length {α : Type} (zero : α) (n : Nat) (l : List α) :
    (extendTo zero n l).length = max n l.length := by
  simp [extendTo]; omega

/-- R177: the padded key fills one block. -/
theorem paddedKey_length {v : Variant} (key : List Byte) (hv : hmacOk v = true) :
    (paddedKey v key).length = blockBytes v := by
  have : (shortenKey v key).length ≤ blockBytes v := by
    unfold shortenKey
    split
    · rw [finalize_length]; cases v <;> decide
    · omega
  simp [paddedKey, this]

@[simp] theorem xorPad_length (pad : Byte) (k : List Byte) : (xorPad pad k).length = k.length := by simp [xorPad]

/-- R283: the padded string is a whole number of widths. -/
theorem bytePad_length_mod (x : List Byte) {w : Nat} (hw : 0 < w) : (bytePad x w).length % w = 0 := by
  simp only [bytePad, List.length_append, List.length_replicate]
  generalize (leftEncode w).length + x.length = n
  have h1 : n % w < w := Nat.mod_lt _ hw
  rcases Nat.eq_zero_or_pos (n % w) with h | h
  · rw [h]; simp [h]
  · rw [Nat.mod_eq_of_lt (by omega : w - n % w < w), Nat.add_mod, Nat.mod_eq_of_lt (by omega : w - n % w < w),
      show n % w + (w - n % w) = w by omega, Nat.mod_self]

/-! ### Shapes -/

@[simp] theorem compress_family (v : Variant) (h : HashState) (b : List Byte) :
    (compress v h b).family = h.family := by
  cases h <;> rfl

@[simp] theorem foldBlocks_family (v : Variant) (n k : Nat) (h : HashState) (l : List Byte) :
    (foldBlocks n (compress v) k h l).family = h.family := by
  induction k generalizing h l with
  | zero => rfl
  | succ k ih => simp only [foldBlocks]; rw [ih, compress_family]

@[simp] theorem newState_family (v : Variant) : (newState v).family = family v := by cases v <;> rfl

/-- The codes the errors the block raises leave in `STATUS` are not reserved (R303). -/
theorem Error.code_mem {e : Error} (h : e.reserved = false) : e.code ∈ statusCodes := by
  cases e <;> first | decide | cases h

/-! ### Each change of a context keeps its invariant -/

/-- R182. -/
theorem absorbData_inv {p : Config.Params} {c : Context} {data : List Byte} (hc : c.Inv p)
    (hl : c.processedBits + 8 * c.rem.length + 8 * data.length ≤ p.maxTotalBits) : (absorbData data c).Inv p := by
  have hb := blockBytes_pos c.variant
  have hbb := blockBits_eq c.variant
  have hdiv := Nat.div_add_mod (c.rem ++ data).length (blockBytes c.variant)
  have hmod := Nat.mod_lt (c.rem ++ data).length hb
  have hlen : ((c.rem ++ data).drop ((c.rem ++ data).length / blockBytes c.variant * blockBytes c.variant)).length =
      (c.rem ++ data).length % blockBytes c.variant := by
    rw [List.length_drop, Nat.mul_comm]; omega
  refine ⟨by simp [absorbData, hc.shape], ?_, ?_, ?_, hc.rounds, hc.delim, hc.oneRound, hc.keyed, hc.ipad, hc.opad,
    fun h => by simp [absorbData] at h⟩
  · simp only [absorbData]; rw [hlen]; exact hmod
  · simp only [absorbData]
    rw [Nat.add_mod, Nat.mul_mod_left, hc.wholeBlocks]; simp
  · simp only [absorbData]
    rw [hlen, hbb]
    simp only [List.length_append] at *
    have : (c.rem.length + data.length) / blockBytes c.variant * (8 * blockBytes c.variant) =
      8 * (blockBytes c.variant * ((c.rem.length + data.length) / blockBytes c.variant)) := by ring
    omega

/-- R178, on a context as R178 asks for it: unkeyed, and nothing absorbed since INIT. -/
theorem applyHmacKey_inv {p : Config.Params} {c : Context} (key : List Byte) (hc : c.Inv p)
    (hv : hmacOk c.variant = true) (hu : c.updateCalled = false) (hr : c.numRounds = 1)
    (hl : blockBits c.variant ≤ p.maxTotalBits) : (applyHmacKey key c).Inv p := by
  have hrem : c.rem = [] := (hc.untouched hu).1
  have hk := paddedKey_length key hv
  have hpad : ∀ pad : Byte, (pack (orderOf c.variant) (xorPad pad (paddedKey c.variant key))).length =
      blockBits c.variant / 32 := by
    intro pad; rw [pack_length, xorPad_length, hk]; cases c.variant <;> rfl
  refine ⟨by simp [applyHmacKey, hc.shape], hc.remShort, by simp [applyHmacKey],
    by simpa [applyHmacKey, hrem] using hl, hc.rounds, hc.delim, fun _ => hr, ⟨fun _ => rfl, fun h => ?_⟩,
    ⟨rfl, hv, hpad _⟩, ⟨rfl, hv, hpad _⟩, fun h => ⟨hrem, fun _ hm => by simp [applyHmacKey] at hm⟩⟩
  have hn : hasNoMac c.variant = true := h
  revert hn hv
  cases c.variant <;> simp [hasNoMac, hmacOk, isCshake]

/-- R180: the registers INIT writes first. -/
theorem freshContext_inv {p : Config.Params} {v : Variant} {nr : Word} (hr : nr ≠ 0)
    (hc : isCshake v = true → nr = 1) (hk : isKmac v = false) : (freshContext v nr).Inv p := by
  refine ⟨by simp [freshContext], by simpa [freshContext] using blockBytes_pos v, by simp [freshContext],
    by simp [freshContext], hr, ?_, fun h => ?_, ⟨fun h => ?_, fun _ => rfl⟩, by simp [padOk, freshContext],
    by simp [padOk, freshContext], fun _ => ⟨rfl, fun _ _ => ⟨rfl, rfl⟩⟩⟩
  · cases v <;> simp [freshContext, initDelim, delimValues]
  · rcases h with h | h
    · simp [freshContext] at h
    · exact hc h
  · have h' : isKmac v = true := h
    rw [hk] at h'; cases h'

/-- R180: what the passed checks of INIT say. -/
theorem initChecks_none {p : Config.Params} {v : Variant} {x : InitOperands}
    (h : firstError (initChecks p v x) = none) :
    x.anyString WireString.unaligned = false ∧ x.nr ≠ 0 ∧ (x.key.isSome = true → hasNoMac v = false) ∧
    (isKmac v = true → x.key.isSome = true) ∧ (isCshake v = true → x.nr = 1) ∧
    (x.key.isSome = true ∨ isKmac v = true → x.nr = 1) ∧
    prefixBits v x.key.isSome (bytesOr (orderOf v) x.key) (bytesOr (orderOf v) x.fn) (bytesOr (orderOf v) x.cust)
      ≤ p.maxTotalBits := by
  have h' := firstError_eq_none.mp h
  simp only [initChecks, List.mem_cons, List.not_mem_nil, or_false, forall_eq_or_imp, forall_eq,
    Bool.and_eq_false_iff, Bool.or_eq_false_iff, beq_eq_false_iff_ne, bne_eq_false_iff_eq, decide_eq_false_iff_not,
    not_lt, ne_eq, gt_iff_lt] at h'
  obtain ⟨h1, h2, h3, h4, h5, h6, -, h7⟩ := h'
  have hn : 1 ≤ x.nr.toNat := by
    rcases Nat.eq_zero_or_pos x.nr.toNat with h0 | h0
    · exact absurd (BitVec.eq_of_toNat_eq (by simpa using h0)) h2
    · exact h0
  refine ⟨h1, h2, fun hk => ?_, fun hk => ?_, fun hc => ?_, fun hk => ?_, h7⟩
  · rcases h3 with h3 | h3
    · rw [h3] at hk; cases hk
    · exact h3
  · rcases h4 with h4 | h4
    · cases hx : x.key <;> simp [hx] at h4 ⊢
    · rw [h4] at hk; cases hk
  · rcases h5 with h5 | h5
    · exact h5
    · rw [h5] at hc; cases hc
  · have : x.nr.toNat ≤ 1 := by
      rcases h6 with h6 | ⟨h6, h6'⟩
      · exact h6
      · rcases hk with hk | hk
        · rw [h6] at hk; cases hk
        · rw [h6'] at hk; cases hk
    exact BitVec.eq_of_toNat_eq (by simpa using le_antisymm this hn)

/-- A fresh F_SHA3 context of a variant without HMAC, with a prefix of whole blocks absorbed (R284, R286, R287). -/
theorem prefixed_inv {p : Config.Params} {v : Variant} {d : Byte} {k : Bool} {xs : List (List Byte)}
    (hv : v.takesStrings = true) (hk : k = isKmac v) (hd : some d ∈ delimValues v)
    (hx : ∀ x ∈ xs, x.length % blockBytes v = 0) (hl : 8 * (xs.map List.length).sum ≤ p.maxTotalBits) :
    ({ xs.foldl (fun c x => absorbPrefix x c) (freshContext v 1) with delim := some d, macKeySet := k } : Context).Inv p := by
  have hkeep : ∀ (xs : List (List Byte)) (c : Context), c.variant = v → c.h.family = family v →
      ∃ h', xs.foldl (fun c x => absorbPrefix x c) c =
        { c with h := h', processedBits := c.processedBits + 8 * (xs.map List.length).sum } ∧ h'.family = family v := by
    intro xs
    induction xs with
    | nil => intro c _ hf; exact ⟨c.h, rfl, hf⟩
    | cons x xs ih =>
      intro c hc hf
      obtain ⟨h', he, hf'⟩ := ih (absorbPrefix x c) hc (by simp [absorbPrefix, hf])
      refine ⟨h', ?_, hf'⟩
      rw [List.foldl_cons, he]
      simp [absorbPrefix, Nat.mul_add, Nat.add_assoc]
  obtain ⟨h', he, hf⟩ := hkeep xs (freshContext v 1) rfl (newState_family v)
  rw [he]
  have hsum : ((xs.map List.length).sum) % blockBytes v = 0 := by
    clear hl he hkeep
    induction xs with
    | nil => rfl
    | cons x xs ih =>
      simp only [List.map_cons, List.sum_cons]
      rw [Nat.add_mod, hx x (by simp), ih (fun y hy => hx y (by simp [hy]))]; simp
  have hn : hmacOk v = false := by revert hv; cases v <;> decide
  refine ⟨hf, ?_, ?_, ?_, by simp [freshContext], hd, fun _ => rfl, ⟨fun h => ?_, fun h => ?_⟩, ?_, ?_, fun _ => ⟨rfl, ?_⟩⟩
  · simpa [freshContext] using blockBytes_pos v
  · simp only [freshContext, Nat.zero_add, blockBits_eq]
    rw [Nat.mul_mod_mul_left, hsum]
  · simpa [freshContext] using hl
  · simpa [hk, freshContext] using h
  · revert hv hk h
    cases v <;> simp [freshContext, hasNoMac, isCshake, isKmac, Variant.takesStrings]
  · simp [padOk, freshContext, hn]
  · simp [padOk, freshContext, hn]
  · intro h; simp [freshContext, hn] at h

/-- R180: an INIT that completes leaves a context that meets the invariant. -/
theorem keyContext_inv {p : Config.Params} {v : Variant} {x : InitOperands}
    (h : firstError (initChecks p v x) = none) :
    (keyContext v (x.key.map (WireString.bytes (orderOf v))) (bytesOr (orderOf v) x.fn) (bytesOr (orderOf v) x.cust)
      (freshContext v x.nr)).Inv p := by
  obtain ⟨-, hr, hm, hk, hc, hone, hl⟩ := initChecks_none h
  unfold keyContext
  split
  · next hcs =>
    rw [hc hcs] at *
    have hts : v.takesStrings = true := by revert hcs; cases v <;> decide
    have hkm : isKmac v = false := by revert hcs; cases v <;> decide
    unfold cshakeInit
    split
    · have := prefixed_inv (p := p) (d := 0x1F) (k := false) (xs := []) hts hkm.symm
        (by revert hcs; cases v <;> decide) (by simp) (by simp)
      exact this
    · next he =>
      have := prefixed_inv (p := p) (d := 0x04) (k := false)
        (xs := [cshakePrefix v (bytesOr (orderOf v) x.fn) (bytesOr (orderOf v) x.cust)]) hts hkm.symm
        (by revert hcs; cases v <;> decide) (by simpa [cshakePrefix] using bytePad_length_mod _ (blockBytes_pos v))
        (by simpa [prefixBits, hcs, he] using hl)
      exact this
  · next hcs =>
    split
    · next hkm =>
      have hts : v.takesStrings = true := by revert hkm; cases v <;> decide
      rw [hone (.inr hkm)] at *
      obtain ⟨key, hkey⟩ := Option.isSome_iff_exists.mp (hk hkm)
      have := prefixed_inv (p := p) (d := 0x04) (k := true)
        (xs := [cshakePrefix v kmacName (bytesOr (orderOf v) x.cust), kmacKeyBlocks v (bytesOr (orderOf v) x.key)])
        hts hkm.symm (by revert hkm; cases v <;> decide)
        (by simp [cshakePrefix, kmacKeyBlocks, bytePad_length_mod _ (blockBytes_pos v)])
        (by simpa [prefixBits, hcs, hkm, Nat.mul_add] using hl)
      rw [show (x.key.map (WireString.bytes (orderOf v))).getD [] = bytesOr (orderOf v) x.key by rw [hkey]; rfl]
      exact this
    · next hkm =>
      have hfresh := freshContext_inv (p := p) (v := v) hr hc (by simpa using hkm)
      split
      · next k hx =>
        split
        · next ho =>
          have hs : x.key.isSome = true := by
            cases hx' : x.key <;> simp [hx'] at hx ⊢
          refine applyHmacKey_inv k hfresh ho rfl (hone (.inl hs)) ?_
          have : blockBits v ≤ p.maxTotalBits := by
            simpa [prefixBits, hcs, hkm, hs, show hmacOk v = true from ho] using hl
          exact this
        · exact hfresh
      · exact hfresh

end Sys2Proof.Machine
end

