-- ==== Sys2Proof/Laws/PerInstr.lean ====
section
/-! SUPPORT. Facts about every command as syntax, one lemma per command: the word of a command has its reserved bits zero,
and the class of the command is the one its opcode is in (spec 30_encoding.md R92, R93 (b), R103). -/

namespace Sys2Proof.Laws.CommandWord

/-- R92, R93 (b): the encoded word's `RSV` field is 0 and its opcode lies in the range of the command's class. -/
def Statement (i : Instr) : Prop :=
  (Fields.ofWord (encode i)).rsv = 0 ∧ CommandClass.ofOpcode (Fields.ofWord (encode i)).opc = i.commandClass

/-- The fields of a word built from fields are those fields, so only the command's own fields matter. -/
theorem of_fields {i : Instr} (hr : i.fields.rsv = 0) (hc : CommandClass.ofOpcode i.fields.opc = i.commandClass) :
    Statement i := by
  unfold Statement encode
  rw [Fields.ofWord_toWord]
  exact ⟨hr, hc⟩

theorem init (v : Option Variant) (p f c : Bool) : Statement (.init v p f c) := of_fields rfl rfl
theorem update : Statement .update := of_fields rfl rfl
theorem setHmacKey : Statement .setHmacKey := of_fields rfl rfl
theorem getHash (p : Bool) : Statement (.getHash p) := of_fields rfl rfl
theorem getHmac : Statement .getHmac := of_fields rfl rfl
theorem getMac (p : Bool) : Statement (.getMac p) := of_fields rfl rfl
theorem sha1Compress : Statement .sha1Compress := of_fields rfl rfl
theorem sha1Finalize : Statement .sha1Finalize := of_fields rfl rfl
theorem sha256Compress : Statement .sha256Compress := of_fields rfl rfl
theorem sha256Finalize (v : Variant) : Statement (.sha256Finalize v) := of_fields rfl rfl
theorem sha512Compress : Statement .sha512Compress := of_fields rfl rfl
theorem sha512Finalize (v : Variant) : Statement (.sha512Finalize v) := of_fields rfl rfl
theorem keccakF : Statement .keccakF := of_fields rfl rfl
theorem sha3Absorb (v : Variant) : Statement (.sha3Absorb v) := of_fields rfl rfl
theorem sha3Finalize (v : Variant) (d : Byte) : Statement (.sha3Finalize v d) := of_fields rfl rfl
theorem leftEncode : Statement .leftEncode := of_fields rfl rfl
theorem rightEncode : Statement .rightEncode := of_fields rfl rfl
theorem encodeString : Statement .encodeString := of_fields rfl rfl
theorem bytePad : Statement .bytePad := of_fields rfl rfl
theorem rotl32 (n : BitVec 6) : Statement (.rotl32 n) := of_fields rfl rfl
theorem rotr32 (n : BitVec 6) : Statement (.rotr32 n) := of_fields rfl rfl
theorem shr32 (n : BitVec 6) : Statement (.shr32 n) := of_fields rfl rfl
theorem ch32 : Statement .ch32 := of_fields rfl rfl
theorem parity32 : Statement .parity32 := of_fields rfl rfl
theorem maj32 : Statement .maj32 := of_fields rfl rfl
theorem sigma0x256 : Statement .sigma0x256 := of_fields rfl rfl
theorem sigma1x256 : Statement .sigma1x256 := of_fields rfl rfl
theorem gamma0x256 : Statement .gamma0x256 := of_fields rfl rfl
theorem gamma1x256 : Statement .gamma1x256 := of_fields rfl rfl
theorem add32x2 : Statement .add32x2 := of_fields rfl rfl
theorem add32x4 : Statement .add32x4 := of_fields rfl rfl
theorem add32x5 : Statement .add32x5 := of_fields rfl rfl
theorem rotl64 (n : BitVec 6) : Statement (.rotl64 n) := of_fields rfl rfl
theorem rotr64 (n : BitVec 6) : Statement (.rotr64 n) := of_fields rfl rfl
theorem shr64 (n : BitVec 6) : Statement (.shr64 n) := of_fields rfl rfl
theorem xor64x2 : Statement .xor64x2 := of_fields rfl rfl
theorem xor64x5 : Statement .xor64x5 := of_fields rfl rfl
theorem add64x2 : Statement .add64x2 := of_fields rfl rfl
theorem add64x4 : Statement .add64x4 := of_fields rfl rfl
theorem add64x5 : Statement .add64x5 := of_fields rfl rfl
theorem ch64 : Statement .ch64 := of_fields rfl rfl
theorem maj64 : Statement .maj64 := of_fields rfl rfl
theorem sigma0x512 : Statement .sigma0x512 := of_fields rfl rfl
theorem sigma1x512 : Statement .sigma1x512 := of_fields rfl rfl
theorem gamma0x512 : Statement .gamma0x512 := of_fields rfl rfl
theorem gamma1x512 : Statement .gamma1x512 := of_fields rfl rfl

end Sys2Proof.Laws.CommandWord
end

