-- ==== Sys2Proof/Tests/Slice0.lean ====
section
/-! SUPPORT. Tests: ill-formed commands refused, words written out from the encoding of spec/30_encoding.md decoded, single
steps against the vectors of spec/95_test_vectors.md, and for every statement with hypotheses a witness that meets them. -/

namespace Sys2Proof.Tests

set_option Elab.async false

open Sys2Proof.Machine Sys2Proof.Claims

/-! ### Helpers -/

/-- The state a step answers. -/
def after (a : Answer) : State :=
  match a with
  | .next t => t
  | .fault _ => State.reset
  | .refused _ => State.reset

theorem exec_after (i : Instr) (s : State) : exec i s = .next (after (exec i s)) := by
  obtain ⟨t, h⟩ := exec_next i s
  rw [h]; rfl

/-- A step from `s` with a command issued: `STATUS`, the results, and the operand words left. -/
def stepIn (s : State) (word : Word) (operands : List Word) : BitVec 8 × List Word × List Word :=
  let t := after (step (s.issue word operands))
  (t.status, t.dout, t.din)

/-- The same from reset. -/
def run (word : Word) (operands : List Word) : BitVec 8 × List Word × List Word := stepIn State.reset word operands

/-- A state with a context and nothing on the channels. -/
def holding (c : Context) : State := { State.reset with bound := true, ctx := some c }

/-- The same with a command issued. -/
def given (c : Context) (i : Instr) (operands : List Word) : State := (holding c).issue (encode i) operands

/-- Reset with a command issued. -/
def start (i : Instr) (operands : List Word) : State := State.reset.issue (encode i) operands

/-- A command word from its fields, the flags P, F, S as three bits (R90). -/
def word (opc : BitVec 8) (var : BitVec 4) (n : BitVec 6) (pfs : BitVec 3) (rsv : BitVec 3) (imm8 : BitVec 8) : Word :=
  opc ++ var ++ n ++ pfs ++ rsv ++ imm8

/-- "abc", a message of many vectors (95_test_vectors.md). -/
def abc : List Byte := [0x61, 0x62, 0x63]

/-- A SHA-1 context after `INIT SHA-1; UPDATE "abc"` (95_test_vectors.md P1). -/
def unkeyed : Context := { freshContext .sha1 1 with rem := abc, updateCalled := true }

/-- The key 00 01 ... 13 of vector S5 (95_test_vectors.md). -/
def key20 : List Byte := (List.range 20).map fun i => BitVec.ofNat 8 i

/-- The 34 bytes "Sample message for keylen<blocklen" of vector S5. -/
def sample : List Byte :=
  [0x53, 0x61, 0x6d, 0x70, 0x6c, 0x65, 0x20, 0x6d, 0x65, 0x73, 0x73, 0x61, 0x67, 0x65, 0x20, 0x66, 0x6f,
   0x72, 0x20, 0x6b, 0x65, 0x79, 0x6c, 0x65, 0x6e, 0x3c, 0x62, 0x6c, 0x6f, 0x63, 0x6b, 0x6c, 0x65, 0x6e]

/-- A SHA-1 context keyed as in vector S5, its message absorbed (95_test_vectors.md P3). -/
def keyed : Context := { applyHmacKey key20 (freshContext .sha1 1) with rem := sample, updateCalled := true }

/-- The KMAC128 context of 95_test_vectors.md P7: key 40 to 5f, data 00010203. -/
def kmac : Context :=
  { kmacInit ((List.range 32).map fun i => BitVec.ofNat 8 (0x40 + i)) [] (freshContext .kmac128 1) with
    rem := [0, 1, 2, 3], updateCalled := true }

/-! ### Well-formedness: an ill-formed term for each check, refused -/

theorem test_rotl32_amount : (Instr.rotl32 4).wellFormed = false := by decide
theorem test_rotr32_amount : (Instr.rotr32 32).wellFormed = false := by decide
theorem test_shr32_amount : (Instr.shr32 4).wellFormed = false := by decide
theorem test_rotl64_amount : (Instr.rotl64 32).wellFormed = false := by decide
theorem test_rotr64_amount : (Instr.rotr64 0).wellFormed = false := by decide
theorem test_shr64_amount : (Instr.shr64 8).wellFormed = false := by decide
theorem test_sha256_finalize_variant : (Instr.sha256Finalize .sha1).wellFormed = false := by decide
theorem test_sha512_finalize_variant : (Instr.sha512Finalize .sha256).wellFormed = false := by decide
theorem test_sha3_absorb_variant : (Instr.sha3Absorb .sha512).wellFormed = false := by decide
theorem test_sha3_finalize_variant : (Instr.sha3Finalize .sha512 0x06).wellFormed = false := by decide
theorem test_sha3_finalize_delimiter : (Instr.sha3Finalize .shake128 0x05).wellFormed = false := by decide
theorem test_init_function_name : (Instr.init (some .shake128) false true false).wellFormed = false := by decide
theorem test_init_customization : (Instr.init none false false true).wellFormed = false := by decide

/-! ### Decoding: words written out field by field from R90, R92 and R94 -/

theorem test_decode_context :
    decode (word 0b00000001 0b0010 0b000000 0b100 0b000 0b00000000) = .instr (.init (some .sha256) true false false) ∧
    decode (word 0b00000001 0b1110 0b000000 0b111 0b000 0b00000000) = .instr (.init (some .kmac256) true true true) ∧
    decode (word 0b00000001 0b1011 0b000000 0b010 0b000 0b00000000) = .instr (.init (some .cshake128) false true false) ∧
    decode (word 0b00000001 0b1111 0b000000 0b000 0b000 0b00000000) = .instr (.init none false false false) ∧
    decode (word 0b00000010 0b0000 0b000000 0b000 0b000 0b00000000) = .instr .update ∧
    decode (word 0b00000011 0b0000 0b000000 0b000 0b000 0b00000000) = .instr .setHmacKey ∧
    decode (word 0b00000100 0b0000 0b000000 0b000 0b000 0b00000000) = .instr (.getHash false) ∧
    decode (word 0b00000100 0b0000 0b000000 0b100 0b000 0b00000000) = .instr (.getHash true) ∧
    decode (word 0b00000101 0b0000 0b000000 0b000 0b000 0b00000000) = .instr .getHmac ∧
    decode (word 0b00000110 0b0000 0b000000 0b100 0b000 0b00000000) = .instr (.getMac true) := by decide

theorem test_decode_blocks :
    decode (word 0b00010000 0b0000 0b000000 0b000 0b000 0b00000000) = .instr .sha1Compress ∧
    decode (word 0b00010001 0b0000 0b000000 0b000 0b000 0b00000000) = .instr .sha1Finalize ∧
    decode (word 0b00010010 0b0000 0b000000 0b000 0b000 0b00000000) = .instr .sha256Compress ∧
    decode (word 0b00010011 0b0001 0b000000 0b000 0b000 0b00000000) = .instr (.sha256Finalize .sha224) ∧
    decode (word 0b00010011 0b0010 0b000000 0b000 0b000 0b00000000) = .instr (.sha256Finalize .sha256) ∧
    decode (word 0b00010100 0b0000 0b000000 0b000 0b000 0b00000000) = .instr .sha512Compress ∧
    decode (word 0b00010101 0b0011 0b000000 0b000 0b000 0b00000000) = .instr (.sha512Finalize .sha384) ∧
    decode (word 0b00010101 0b0100 0b000000 0b000 0b000 0b00000000) = .instr (.sha512Finalize .sha512) := by decide

theorem test_decode_sha3 :
    decode (word 0b00010110 0b0000 0b000000 0b000 0b000 0b00000000) = .instr .keccakF ∧
    decode (word 0b00010111 0b0101 0b000000 0b000 0b000 0b00000000) = .instr (.sha3Absorb .sha3x224) ∧
    decode (word 0b00010111 0b1110 0b000000 0b000 0b000 0b00000000) = .instr (.sha3Absorb .kmac256) ∧
    decode (word 0b00011000 0b0110 0b000000 0b000 0b000 0b00000110) = .instr (.sha3Finalize .sha3x256 0x06) ∧
    decode (word 0b00011000 0b1100 0b000000 0b000 0b000 0b00000100) = .instr (.sha3Finalize .cshake256 0x04) ∧
    decode (word 0b00011001 0b0000 0b000000 0b000 0b000 0b00000000) = .instr .leftEncode ∧
    decode (word 0b00011010 0b0000 0b000000 0b000 0b000 0b00000000) = .instr .rightEncode ∧
    decode (word 0b00011011 0b0000 0b000000 0b000 0b000 0b00000000) = .instr .encodeString ∧
    decode (word 0b00011100 0b0000 0b000000 0b000 0b000 0b00000000) = .instr .bytePad := by decide

theorem test_decode_word32 :
    decode (word 0b00100000 0b0000 0b011110 0b000 0b000 0b00000000) = .instr (.rotl32 30) ∧
    decode (word 0b00100001 0b0000 0b011001 0b000 0b000 0b00000000) = .instr (.rotr32 25) ∧
    decode (word 0b00100010 0b0000 0b000011 0b000 0b000 0b00000000) = .instr (.shr32 3) ∧
    decode (word 0b00100011 0b0000 0b000000 0b000 0b000 0b00000000) = .instr .ch32 ∧
    decode (word 0b00100100 0b0000 0b000000 0b000 0b000 0b00000000) = .instr .parity32 ∧
    decode (word 0b00100101 0b0000 0b000000 0b000 0b000 0b00000000) = .instr .maj32 ∧
    decode (word 0b00100110 0b0000 0b000000 0b000 0b000 0b00000000) = .instr .sigma0x256 ∧
    decode (word 0b00100111 0b0000 0b000000 0b000 0b000 0b00000000) = .instr .sigma1x256 ∧
    decode (word 0b00101000 0b0000 0b000000 0b000 0b000 0b00000000) = .instr .gamma0x256 ∧
    decode (word 0b00101001 0b0000 0b000000 0b000 0b000 0b00000000) = .instr .gamma1x256 ∧
    decode (word 0b00101010 0b0000 0b000000 0b000 0b000 0b00000000) = .instr .add32x2 ∧
    decode (word 0b00101011 0b0000 0b000000 0b000 0b000 0b00000000) = .instr .add32x4 ∧
    decode (word 0b00101100 0b0000 0b000000 0b000 0b000 0b00000000) = .instr .add32x5 := by decide

theorem test_decode_word64 :
    decode (word 0b00110000 0b0000 0b000000 0b000 0b000 0b00000000) = .instr (.rotl64 0) ∧
    decode (word 0b00110001 0b0000 0b111101 0b000 0b000 0b00000000) = .instr (.rotr64 61) ∧
    decode (word 0b00110010 0b0000 0b000111 0b000 0b000 0b00000000) = .instr (.shr64 7) ∧
    decode (word 0b00110011 0b0000 0b000000 0b000 0b000 0b00000000) = .instr .xor64x2 ∧
    decode (word 0b00110100 0b0000 0b000000 0b000 0b000 0b00000000) = .instr .xor64x5 ∧
    decode (word 0b00110101 0b0000 0b000000 0b000 0b000 0b00000000) = .instr .add64x2 ∧
    decode (word 0b00110110 0b0000 0b000000 0b000 0b000 0b00000000) = .instr .add64x4 ∧
    decode (word 0b00110111 0b0000 0b000000 0b000 0b000 0b00000000) = .instr .add64x5 ∧
    decode (word 0b00111000 0b0000 0b000000 0b000 0b000 0b00000000) = .instr .ch64 ∧
    decode (word 0b00111001 0b0000 0b000000 0b000 0b000 0b00000000) = .instr .maj64 ∧
    decode (word 0b00111010 0b0000 0b000000 0b000 0b000 0b00000000) = .instr .sigma0x512 ∧
    decode (word 0b00111011 0b0000 0b000000 0b000 0b000 0b00000000) = .instr .sigma1x512 ∧
    decode (word 0b00111100 0b0000 0b000000 0b000 0b000 0b00000000) = .instr .gamma0x512 ∧
    decode (word 0b00111101 0b0000 0b000000 0b000 0b000 0b00000000) = .instr .gamma1x512 := by decide

/-- R93: one word for each of (a) to (e). -/
theorem test_decode_illegal :
    decode 0x07000000 = .illegal .unassignedOpcode ∧ decode 0x2200c100 = .illegal .reservedBits ∧
    decode 0x23004000 = .illegal .unusedField ∧ decode 0x18900005 = .illegal .valueNotAdmitted ∧
    decode 0x01901000 = .illegal .stringsNotTaken := by decide

/-- R100: the opcode table's numbering of the first word. -/
theorem test_decode_table_word : decodeTableWord 32 0x20014000 = some (.rotl32 5) := by decide

/-! ### Single steps, the expected words from 95_test_vectors.md -/

/-! §2.1 and §2.2 -/

theorem test_rotl32 : run 0x20014000 [0x12345678] = (0x00, [0x468acf02], []) := by decide
theorem test_rotr32 : run 0x21034000 [0x12345678] = (0x00, [0xb3c091a2], []) := by decide
theorem test_shr32 : run 0x22028000 [0x80000000] = (0x00, [0x00200000], []) := by decide
theorem test_ch32 : run 0x23000000 [0xff00ff00, 0x0f0f0f0f, 0x33333333] = (0x00, [0x0f330f33], []) := by decide
theorem test_parity32 : run 0x24000000 [0xff00ff00, 0x0f0f0f0f, 0x33333333] = (0x00, [0xc33cc33c], []) := by decide
theorem test_maj32 : run 0x25000000 [0xff00ff00, 0x0f0f0f0f, 0x33333333] = (0x00, [0x3f033f03], []) := by decide
theorem test_sigma0_256 : run 0x26000000 [0x6a09e667] = (0x00, [0xce20b47e], []) := by decide
theorem test_sigma1_256 : run 0x27000000 [0x6a09e667] = (0x00, [0x55b65510], []) := by decide
theorem test_gamma0_256 : run 0x28000000 [0x6a09e667] = (0x00, [0xba0cf582], []) := by decide
theorem test_gamma1_256 : run 0x29000000 [0x6a09e667] = (0x00, [0xcfe5da3c], []) := by decide
theorem test_add32_2 : run 0x2a000000 [0xffffffff, 0x1] = (0x00, [0x0], []) := by decide
theorem test_add32_4 : run 0x2b000000 [0xffffffff, 0xffffffff, 0xffffffff, 0xffffffff] = (0x00, [0xfffffffc], []) := by decide
theorem test_add32_5 : run 0x2c000000 [0xffffffff, 0xffffffff, 0xffffffff, 0xffffffff, 0xffffffff] = (0x00, [0xfffffffb], []) := by decide
theorem test_rotl64_high : run 0x30090000 [0x01234567, 0x89abcdef] = (0x00, [0x9abcdef0, 0x12345678], []) := by decide
theorem test_rotl64_zero : run 0x30000000 [0x01234567, 0x89abcdef] = (0x00, [0x01234567, 0x89abcdef], []) := by decide
theorem test_rotr64 : run 0x31004000 [0x01234567, 0x89abcdef] = (0x00, [0x8091a2b3, 0xc4d5e6f7], []) := by decide
theorem test_shr64 : run 0x3201c000 [0xffffffff, 0xffffffff] = (0x00, [0x01ffffff, 0xffffffff], []) := by decide
theorem test_xor64_2 : run 0x33000000 [0x01234567, 0x89abcdef, 0xffffffff, 0x00000000] = (0x00, [0xfedcba98, 0x89abcdef], []) := by decide
theorem test_xor64_5 : run 0x34000000 [0x00000000, 0x00000001, 0x00000000, 0x00000002, 0x00000000, 0x00000004, 0x00000000, 0x00000008, 0x00000000, 0x00000010] = (0x00, [0x00000000, 0x0000001f], []) := by decide
theorem test_add64_2 : run 0x35000000 [0x00000000, 0xffffffff, 0x00000000, 0x00000001] = (0x00, [0x00000001, 0x00000000], []) := by decide
theorem test_add64_4 : run 0x36000000 [0xffffffff, 0xffffffff, 0xffffffff, 0xffffffff, 0xffffffff, 0xffffffff, 0xffffffff, 0xffffffff] = (0x00, [0xffffffff, 0xfffffffc], []) := by decide
theorem test_add64_5 : run 0x37000000 [0x00000000, 0xffffffff, 0x00000000, 0xffffffff, 0x00000000, 0xffffffff, 0x00000000, 0xffffffff, 0x00000000, 0xffffffff] = (0x00, [0x00000004, 0xfffffffb], []) := by decide
theorem test_ch64 : run 0x38000000 [0xff00ff00, 0xff00ff00, 0x0f0f0f0f, 0x0f0f0f0f, 0x33333333, 0x33333333] = (0x00, [0x0f330f33, 0x0f330f33], []) := by decide
theorem test_maj64 : run 0x39000000 [0xff00ff00, 0xff00ff00, 0x0f0f0f0f, 0x0f0f0f0f, 0x33333333, 0x33333333] = (0x00, [0x3f033f03, 0x3f033f03], []) := by decide
theorem test_sigma0_512 : run 0x3a000000 [0x6a09e667, 0xf3bcc908] = (0x00, [0x08c4db56, 0xaac80c2a], []) := by decide
theorem test_sigma1_512 : run 0x3b000000 [0x6a09e667, 0xf3bcc908] = (0x00, [0x259a6cc1, 0x643336ef], []) := by decide
theorem test_gamma0_512 : run 0x3c000000 [0x6a09e667, 0xf3bcc908] = (0x00, [0x3dbae919, 0x51caa1df], []) := by decide
theorem test_gamma1_512 : run 0x3d000000 [0x6a09e667, 0xf3bcc908] = (0x00, [0xc8c619e7, 0x3ee44510], []) := by decide

/-- §2.1: an amount that is not admitted raises `ILLEGAL_COMMAND`, and the operand word stays on `DIN`. -/
theorem test_rotl32_not_admitted : run 0x20010000 [1] = (0x40, [], [1]) := by decide

/-! §2.3 and §2.4 -/

theorem test_sha1_compress :
    run 0x10000000 (ivSha1.toList ++ [0x61626380] ++ List.replicate 14 0 ++ [0x18]) =
      (0x00, [0xa9993e36, 0x4706816a, 0xba3e2571, 0x7850c26c, 0x9cd0d89d], []) := by decide +kernel

theorem test_sha1_finalize :
    run 0x11000000 (ivSha1.toList ++ [0, 0, 0, 0x18, 0x61626300]) =
      (0x00, [0xa9993e36, 0x4706816a, 0xba3e2571, 0x7850c26c, 0x9cd0d89d], []) := by decide +kernel

theorem test_sha1_finalize_range : run 0x11000000 (ivSha1.toList ++ [0, 100, 0, 0]) = (0x44, [], []) := by decide +kernel

theorem test_sha256_compress :
    run 0x12000000 (ivSha256.toList ++ List.replicate 16 0x61616161) =
      (0x00, [0xdf5bb81c, 0xe81e0626, 0xfb45a894, 0x4fd40f31, 0xb25e6816, 0xd6d499c1, 0xab904929, 0x00635e66], []) := by
  decide +kernel

theorem test_sha224_finalize :
    run 0x13100000 (ivSha224.toList ++ [0, 0, 0, 0x18, 0x61626300]) =
      (0x00, [0x23097d22, 0x3405d822, 0x8642a477, 0xbda255b3, 0x2aadbce4, 0xbda0b3f7, 0xe36c9da7], []) := by
  decide +kernel

theorem test_sha256_finalize :
    run 0x13200000 ([0xdf5bb81c, 0xe81e0626, 0xfb45a894, 0x4fd40f31, 0xb25e6816, 0xd6d499c1, 0xab904929, 0x00635e66] ++
        [0, 512, 0, 0]) =
      (0x00, [0xffe054fe, 0x7ae0cb6d, 0xc65c3af9, 0xb61d5209, 0xf439851d, 0xb43d0ba5, 0x997337df, 0x154668eb], []) := by
  decide +kernel

/-- The first four words of the vector. -/
theorem test_sha512_compress :
    ((run 0x14000000 (pairs ivSha512.toList ++ [0x61626380] ++ List.replicate 30 0 ++ [0x18])).2.1).take 4 =
      [0xddaf35a1, 0x93617aba, 0xcc417349, 0xae204131] := by decide +kernel

theorem test_sha384_finalize :
    run 0x15300000 (pairs ivSha384.toList ++ [0, 0, 0, 0x18, 0x61626300]) =
      (0x00, [0xcb00753f, 0x45a35e8b, 0xb5a03d69, 0x9ac65007, 0x272c32ab, 0x0eded163, 0x1a8b605a, 0x43ff5bed,
        0x8086072b, 0xa1e7cc23, 0x58baeca1, 0x34c825a7], []) := by decide +kernel

theorem test_sha512_finalize_range :
    run 0x15400000 (pairs ivSha512.toList ++ [0, 512, 0, 0]) = (0x44, [], []) := by decide +kernel

/-! §2.5 and §2.7 -/

/-- The first three lanes and the last one of the permuted zero state. -/
theorem test_keccak_f :
    ((run 0x16000000 (List.replicate 50 0)).2.1).take 6 =
      [0xf1258f79, 0x40e1dde7, 0x84d5ccf9, 0x33c0478a, 0xd598261e, 0xa65aa9ee] ∧
    ((run 0x16000000 (List.replicate 50 0)).2.1).drop 48 = [0xeaf1ff7b, 0x5ceca249] := by decide +kernel

theorem test_sha3_absorb :
    ((run 0x17600000 (List.replicate 50 0 ++ [0x06636261] ++ List.replicate 32 0 ++ [0x80000000])).2.1).take 8 =
      [0xb225e24f, 0xa75d983a, 0xbd90d36b, 0x2d175c04, 0x5b529d3e, 0x6e085f85, 0x32154311, 0x45e2bf46] := by decide +kernel

theorem test_sha3_finalize :
    run 0x1890001f (List.replicate 50 0 ++ [0, 0xf8, 0, 0x18, 0x00636261]) =
      (0x00, [0, 0xf8, 0x2d098158, 0x5cbf18d8, 0xb7dda3f8, 0xa7cbfb93, 0xc5d59740, 0x5fd3a626, 0x5133b897, 0x002c0f94],
        []) := by decide +kernel

theorem test_sha3_finalize_length :
    run 0x1890001f (List.replicate 50 0 ++ [0, 7, 0, 0]) = (0x31, [], []) := by decide +kernel

theorem test_left_encode :
    run 0x19000000 [0xffffffff, 0xffffffff] = (0x00, [0, 0x48, 0xffffff08, 0xffffffff, 0xff], []) := by decide +kernel

theorem test_right_encode : run 0x1a000000 [0, 0x100] = (0x00, [0, 0x18, 0x00020001], []) := by decide +kernel

theorem test_encode_string :
    run 0x1b000000 [0, 0x20, 0x43414d4b] = (0x00, [0, 0x30, 0x4d4b2001, 0x00004341], []) := by decide +kernel

theorem test_byte_pad : run 0x1c000000 [4, 0, 0] = (0x00, [0, 0x20, 0x00000401], []) := by decide +kernel

theorem test_byte_pad_range : run 0x1c000000 [0, 0, 0] = (0x44, [], []) := by decide +kernel

/-! §3: the context commands -/

/-- P1's INIT: the state words of SHA-1, nothing buffered. -/
theorem test_init :
    (after (step (State.reset.issue 0x01000000 [1]))).ctx = some (freshContext .sha1 1) ∧
    run 0x01000000 [1] = (0x00, [], []) := by decide +kernel

/-- P3's INIT: `CTX.H` and `CTX.PROCESSED_BITS` after the ipad block (§2.8). -/
theorem test_init_key :
    ((after (step (State.reset.issue 0x01002000
        [1, 0, 0xa0, 0x00010203, 0x04050607, 0x08090a0b, 0x0c0d0e0f, 0x10111213]))).ctx.map fun c =>
      (c.h, c.processedBits)) =
    some (.sha1 ⟨0x0f896ed6, 0xa5df60ca, 0x2ae1485b, 0x524f0b9a, 0x1db068a0⟩, 512) := by decide +kernel

/-- P1's UPDATE. -/
theorem test_update :
    (after (step ((holding (freshContext .sha1 1)).issue 0x02000000 [0, 0x18, 0x61626300]))).ctx = some unkeyed := by
  decide +kernel

/-- P2's UPDATE: a whole block is compressed and nothing is left over. -/
theorem test_update_block :
    ((after (step ((holding (freshContext .sha256 1)).issue 0x02000000 ([0, 0x200] ++ List.replicate 16 0x61616161)))).ctx.map
      fun c => (c.h, c.processedBits, c.rem)) =
    some (.sha256 ⟨0xdf5bb81c, 0xe81e0626, 0xfb45a894, 0x4fd40f31, 0xb25e6816, 0xd6d499c1, 0xab904929, 0x00635e66⟩, 512,
      []) := by decide +kernel

/-- §3.2: the state after a one-byte zero key. -/
theorem test_set_hmac_key :
    ((after (step ((holding (freshContext .sha1 1)).issue 0x03000000 [0, 8, 0]))).ctx.map fun c => (c.h, c.processedBits)) =
    some (.sha1 ⟨0xc9f7bd57, 0x621bd73b, 0xea0fead1, 0x41a5a132, 0x4e4f361d⟩, 512) := by decide +kernel

/-- §3.2: a key after an UPDATE. -/
theorem test_set_hmac_key_late : stepIn (holding unkeyed) 0x03000000 [0, 8, 0] = (0x21, [], []) := by decide +kernel

/-- P1's GET_HASH. -/
theorem test_get_hash :
    stepIn (holding unkeyed) 0x04000000 [] =
      (0x00, [0, 0xa0, 0xa9993e36, 0x4706816a, 0xba3e2571, 0x7850c26c, 0x9cd0d89d], []) := by decide +kernel

/-- P5's GET_HASH, five rounds. -/
theorem test_get_hash_rounds :
    stepIn (holding { unkeyed with numRounds := 5 }) 0x04000000 [] =
      (0x00, [0, 0xa0, 0xb5c64925, 0xeb994025, 0x9be55c00, 0x5c9cecc7, 0xd9897ef9], []) := by decide +kernel

/-- P3's GET_HMAC. -/
theorem test_get_hmac :
    stepIn (holding keyed) 0x05000000 [] =
      (0x00, [0, 0xa0, 0x4c99ff0c, 0xb1b31bd3, 0x3f8431db, 0xaf4d17fc, 0xd356a807], []) := by decide +kernel

/-- P6's GET_HMAC without a key: the error, and nothing written. -/
theorem test_get_hmac_without_key : stepIn (holding unkeyed) 0x05000000 [] = (0x23, [], []) := by decide +kernel

/-- P7's GET_MAC. -/
theorem test_get_mac :
    stepIn (holding kmac) 0x06002000 [0, 0x100] =
      (0x00, [0, 0x100, 0x0d0b78e5, 0xd3f7a63e, 0x70c529a4, 0x003aa46a, 0xd4d7dbfa, 0x9e832896, 0x3f248731, 0x4ee16e45],
        []) := by decide +kernel

/-- P3's GET_MAC on an HMAC context without a length. -/
theorem test_get_mac_hmac :
    (stepIn (holding keyed) 0x06000000 []).2.1 = (stepIn (holding keyed) 0x05000000 []).2.1 := by decide +kernel

/-- P9, R304: a context command on an unbound context. -/
theorem test_not_initialised : run 0x02000000 [0, 0x18, 0x61626300] = (0x41, [], []) := by decide +kernel

/-- R306: a poisoned context. -/
theorem test_poisoned :
    stepIn { holding unkeyed with poisoned := true } 0x04000000 [] = (0x42, [], []) := by decide +kernel

/-! ### The assembler (R101) -/

/-- A line of the error table of R310 as it is written there, and the words it stands for (§3.2). -/
theorem test_assembler_issue :
    (Line.init .sha1 2 (some [0]) none none).issue .be = ⟨0x01002000, [2, 0, 8, 0]⟩ := by decide +kernel

/-- R101: the text of P9's first two lines; an ill-formed word takes no operand (R305). -/
theorem test_assembler_text :
    (readLines "ROTL32 #5, 0x12345678").map (fun ls => ls.map (Line.issue .be)) =
      some [⟨0x20014000, [0x12345678]⟩] ∧
    (readLines "ROTL32 #4, 0x00000001").map (fun ls => ls.map (Line.issue .be)) = some [⟨0x20010000, []⟩] := by
  decide +kernel

/-! ### Witnesses: for every statement with hypotheses, values that meet all of them together -/

theorem step_after (s : State) : step s = .next (after (step s)) := by
  unfold step
  split
  · rfl
  · split
    · rfl
    · exact exec_after _ _

theorem witness_EncodedCommandDecodes :
    (Instr.rotl64 62).wellFormed = true ∧ (Instr.init (some .kmac256) true true true).wellFormed = true ∧
    (Instr.init none true false false).wellFormed = true ∧ (Instr.sha3Finalize .kmac256 0x04).wellFormed = true := by
  decide

theorem witness_LegalWordIsItsCommandsWord :
    decode 0x31070000 = .instr (.rotr64 28) ∧ decode 0x01F02000 = .instr (.init none true false false) := by decide

theorem witness_IllegalWords :
    (∃ (s : State) (w : Word) (rest : List Word), s.cmd = w :: rest ∧ ∃ r, decode w = .illegal r) ∧
    (∃ (s t : State) (rest : List Word), s.cmd = 0x01F00000 :: rest ∧ step s = .next t ∧ t.cmd = rest) ∧
    (∃ (s t : State) (rest : List Word), s.cmd = 0x01F02000 :: rest ∧ step s = .next t ∧ t.cmd = rest) :=
  ⟨⟨State.reset.issue 0x07000000 [], 0x07000000, [], rfl, .unassignedOpcode, by decide⟩,
   ⟨State.reset.issue 0x01F00000 [1], _, [], rfl, step_after _, by decide +kernel⟩,
   ⟨State.reset.issue 0x01F02000 [1, 0, 8, 0], _, [], rfl, step_after _, by decide +kernel⟩⟩

theorem witness_StepRunsDecodedCommand :
    (∃ (s : State) (w : Word) (rest : List Word) (i : Instr), s.cmd = w :: rest ∧ decode w = .instr i) ∧
    ∃ s : State, s.cmd = [] :=
  ⟨⟨State.reset.issue 0x05000000 [], 0x05000000, [], .getHmac, rfl, by decide⟩, State.reset, rfl⟩

theorem witness_CommandTakesItsWords :
    ∃ s t : State, step s = .next t ∧ t ≠ s ∧ t.status = 0x00 ∧ t.dout ≠ [] :=
  ⟨State.reset.issue 0x19000000 [0, 0], _, step_after _, by decide +kernel, by decide +kernel, by decide +kernel⟩

/-- The context of vector S1 meets the invariant. -/
theorem unkeyed_inv : unkeyed.Inv Config.Params.default where
  shape := rfl
  remShort := by decide
  wholeBlocks := by decide
  bounded := by decide
  rounds := by decide
  delim := by decide
  oneRound := by decide
  keyed := by decide
  ipad := by simp [padOk, unkeyed, freshContext]
  opad := by simp [padOk, unkeyed, freshContext]
  untouched := by decide

theorem witness_StepKeepsInvariant :
    ∃ s t : State, s.Inv ∧ s.bound = true ∧ step s = .next t ∧ t ≠ s := by
  refine ⟨given unkeyed .update [0, 8, 0x64000000], _, ⟨by decide, fun _ => rfl, ?_, ?_, by decide⟩, rfl, step_after _,
    by decide +kernel⟩
  · rintro h; cases h
  · rintro c hc; cases hc; exact unkeyed_inv

theorem witness_ResetMeetsInvariant : ∃ s : State, s.params.legal = true ∧ s.params.maxTotalBits = 8 :=
  ⟨{ State.reset with params := ⟨8, 0⟩ }, by decide, rfl⟩

theorem witness_ResetLeaves : ∃ s s' : State, s = s'.hostReset ∧ s' ≠ s :=
  ⟨_, holding unkeyed, rfl, by decide +kernel⟩

theorem witness_UnboundContextRefuses :
    (∃ s t : State, step s = .next t ∧
      ∀ (w : Word) (rest : List Word), s.cmd = w :: rest → ∀ v p f c, decode w ≠ .instr (.init v p f c)) ∧
    (∃ (s t : State) (w : Word), exec (.init (some .sha1) false false false) s = .next t ∧ s.cmd = w :: t.cmd ∧
      t.status = 0x00) ∧
    (∃ (s t : State) (w : Word), exec (.init none false false false) s = .next t ∧ s.cmd = w :: t.cmd ∧
      t.status ≠ 0x00) ∧
    (∀ p : Bool, ∃ (s t : State) (w : Word), exec .update s = .next t ∧ s.cmd = w :: t.cmd ∧ s.bound = false ∧
      s.poisoned = p) :=
  ⟨⟨State.reset.issue 0x20010000 [1], _, step_after _, by
      rintro w rest h v p f c; cases h; rw [show decode 0x20010000 = .illegal .valueNotAdmitted by decide]; simp⟩,
   ⟨start (.init (some .sha1) false false false) [1], _, _, exec_after _ _, rfl, by decide +kernel⟩,
   ⟨start (.init none false false false) [1], _, _, exec_after _ _, rfl, by decide +kernel⟩,
   fun p => ⟨{ start .update [0, 0] with poisoned := p }, _, encode .update, exec_after _ _,
     by cases p <;> decide +kernel, rfl, rfl⟩⟩

theorem witness_ErrorsPoison :
    (∃ (s t : State) (w : Word), exec .getHmac s = .next t ∧ s.cmd = w :: t.cmd ∧ t.status ≠ 0x00) ∧
    (∃ (s : State) (w : Word) (rest : List Word) (r : Illegal), s.cmd = w :: rest ∧ decode w = .illegal r) ∧
    (∃ (s t : State) (w : Word), exec .getHmac s = .next t ∧ s.cmd = w :: t.cmd ∧ s.poisoned = true) ∧
    (∃ (s t : State) (w : Word), exec (.init (some .sha1) false false false) s = .next t ∧ s.cmd = w :: t.cmd ∧
      s.poisoned = true ∧ t.status = 0x00) ∧
    (∃ s t : State, exec .bytePad s = .next t ∧ t.status ≠ 0x00) :=
  ⟨⟨given unkeyed .getHmac [], _, _, exec_after _ _, rfl, by decide +kernel⟩,
   ⟨State.reset.issue 0x20010000 [1], _, [], .valueNotAdmitted, rfl, by decide⟩,
   ⟨{ given keyed .getHmac [] with poisoned := true }, _, _, exec_after _ _, rfl, rfl⟩,
   ⟨{ start (.init (some .sha1) false false false) [1] with poisoned := true }, _, _, exec_after _ _, rfl, rfl,
     by decide +kernel⟩,
   ⟨start .bytePad [0, 0, 0], _, exec_after _ _, by decide +kernel⟩⟩

theorem witness_RaisingChangesNothingElse :
    (∃ (s t : State) (w : Word), step s = .next t ∧ s.cmd = w :: t.cmd ∧ t.status = 0x40) ∧
    (∃ (s t : State) (w : Word), step s = .next t ∧ s.cmd = w :: t.cmd ∧ t.status = 0x23) ∧
    (∃ (s t : State) (w : Word), step s = .next t ∧ s.cmd = w :: t.cmd ∧ t.status = 0x01) ∧
    (∃ (s t : State) (w : Word), step s = .next t ∧ s.cmd = w :: t.cmd ∧ t.status = 0x44) :=
  ⟨⟨State.reset.issue 0x20010000 [1], _, 0x20010000, step_after _, by decide +kernel, by decide +kernel⟩,
   ⟨given unkeyed .getHmac [], _, encode .getHmac, step_after _, by decide +kernel, by decide +kernel⟩,
   ⟨State.reset.issue 0x01F00000 [1], _, 0x01F00000, step_after _, by decide +kernel, by decide +kernel⟩,
   ⟨start .bytePad [0, 0, 0], _, encode .bytePad, step_after _, by decide +kernel, by decide +kernel⟩⟩

/-- The second state differs in what is on `DOUT`, in the words that follow and in `STATUS`. -/
theorem witness_ResultsDependOnContextAndOperands :
    ∃ (s s' t : State) (w : Word) (ops out later : List Word), s' ≠ s ∧
      s'.params = s.params ∧ s'.bound = s.bound ∧ s'.poisoned = s.poisoned ∧ s'.ctx = s.ctx ∧
      step s = .next t ∧ s.cmd = w :: t.cmd ∧ s.din = ops ++ t.din ∧ t.dout = s.dout ++ out ∧
      s'.cmd = w :: s'.cmd.tail ∧ s'.din = ops ++ later ∧ t.status = 0x00 :=
  ⟨given unkeyed .update [0, 8, 0x64000000],
   { given unkeyed .update [0, 8, 0x64000000, 7] with status := 0x44, dout := [1, 2] }, _, encode .update,
   [0, 8, 0x64000000], [], [7], by decide +kernel, rfl, rfl, rfl, rfl, step_after _, by decide +kernel,
   by decide +kernel, by decide +kernel, rfl, rfl, by decide +kernel⟩

/-! Strings on the wire. -/

theorem wire_empty (o : ByteOrder) : Wire o [] [0, 0] := ⟨by decide, [], by decide, by decide, by cases o <;> decide⟩
theorem wire_abc : Wire .be abc [0, 24, 0x61626300] := ⟨by decide, [0x61626300], by decide, by decide, by decide⟩
theorem wire_abc_le : Wire .le abc [0, 24, 0xff636261] := ⟨by decide, [0xff636261], by decide, by decide, by decide⟩

/-- A key of a whole SHA-1 block, and one of a byte more. -/
theorem wire_block : Wire .be (List.replicate 64 0) ([0, 512] ++ List.replicate 16 0) :=
  ⟨by decide, List.replicate 16 0, by decide, by decide, by decide⟩
theorem wire_long : Wire .be (List.replicate 65 0) ([0, 520] ++ List.replicate 17 0) :=
  ⟨by decide, List.replicate 17 0, by decide, by decide, by decide⟩

theorem witness_InitConstructsFreshContext :
    (∃ (s : State) (rest : List Word) (nr : Word), Variant.sha1 ∉ [Variant.cshake128, .cshake256, .kmac128, .kmac256] ∧
      nr ≠ 0 ∧ s.din = nr :: rest ∧ nr = 0xffffffff) ∧
    (∃ (s : State) (rest : List Word) (nr : Word), Variant.shake256 ∉ [Variant.cshake128, .cshake256, .kmac128, .kmac256] ∧
      nr ≠ 0 ∧ s.din = nr :: rest ∧ nr = 1) :=
  ⟨⟨{ State.reset with din := [0xffffffff, 5] }, [5], 0xffffffff, by decide, by decide, rfl, rfl⟩,
   ⟨{ State.reset with din := [1] }, [], 1, by decide, by decide, rfl, rfl⟩⟩

/-- A key of exactly one block and a key of one byte more, at the least bound the parameters admit. -/
theorem witness_InitAppliesHmacKey :
    (∃ (s : State) (rest kw : List Word) (key k0 : List Byte), key.length = 64 ∧
      hmacOk .sha1 = true ∧ Wire (orderOf .sha1) key kw ∧ 8 * key.length ≤ s.params.maxTotalBits ∧
      blockBits .sha1 ≤ s.params.maxTotalBits ∧
      (∃ k : List Byte, k = (if key.length > blockBits .sha1 / 8 then digestOf .sha1 ((outBits .sha1).getD 0) key else key) ∧
        k0 = k ++ List.replicate (blockBits .sha1 / 8 - k.length) 0) ∧
      s.din = 1 :: (kw ++ rest)) ∧
    (∃ (s : State) (rest kw : List Word) (key k0 : List Byte), key.length = 65 ∧
      hmacOk .sha1 = true ∧ Wire (orderOf .sha1) key kw ∧ 8 * key.length ≤ s.params.maxTotalBits ∧
      blockBits .sha1 ≤ s.params.maxTotalBits ∧
      (∃ k : List Byte, k = (if key.length > blockBits .sha1 / 8 then digestOf .sha1 ((outBits .sha1).getD 0) key else key) ∧
        k0 = k ++ List.replicate (blockBits .sha1 / 8 - k.length) 0) ∧
      s.din = 1 :: (kw ++ rest)) :=
  ⟨⟨{ State.reset with params := ⟨512, 0⟩, din := 1 :: ([0, 512] ++ List.replicate 16 0 ++ [7]) }, [7], _,
     List.replicate 64 0, _, rfl, rfl, wire_block, by decide, by decide, ⟨_, rfl, rfl⟩, rfl⟩,
   ⟨{ State.reset with params := ⟨520, 0⟩, din := 1 :: ([0, 520] ++ List.replicate 17 0 ++ [7]) }, [7], _,
     List.replicate 65 0, _, rfl, rfl, wire_long, by decide, by decide, ⟨_, rfl, rfl⟩, rfl⟩⟩

theorem witness_InitCshake :
    (∃ (s : State) (rest fw cw : List Word) (fn cust : List Byte),
      WireIf true .le fn fw ∧ WireIf false .le cust cw ∧ fn ≠ [] ∧ 8 * fn.length ≤ s.params.maxTotalBits ∧
      8 * cust.length ≤ s.params.maxTotalBits ∧ s.din = 1 :: (fw ++ (cw ++ rest))) ∧
    (∃ (s : State) (rest fw cw : List Word) (fn cust : List Byte),
      WireIf true .le fn fw ∧ WireIf true .le cust cw ∧ fn = [] ∧ cust = [] ∧ 8 * fn.length ≤ s.params.maxTotalBits ∧
      8 * cust.length ≤ s.params.maxTotalBits ∧ s.din = 1 :: (fw ++ (cw ++ rest))) :=
  ⟨⟨{ State.reset with din := [1, 0, 24, 0xff636261] }, [], _, [], abc, [], wire_abc_le, ⟨rfl, rfl⟩, by decide, by decide,
     by decide, rfl⟩,
   ⟨{ State.reset with din := [1, 0, 0, 0, 0] }, [], _, _, [], [], wire_empty .le, wire_empty .le, rfl, rfl, by decide,
     by decide, rfl⟩⟩

theorem witness_InitKmac :
    ∃ (s : State) (rest kw fw cw : List Word) (key fn cust : List Byte),
      Wire .le key kw ∧ WireIf false .le fn fw ∧ WireIf true .le cust cw ∧ 8 * key.length ≤ s.params.maxTotalBits ∧
      8 * fn.length ≤ s.params.maxTotalBits ∧ 8 * cust.length ≤ s.params.maxTotalBits ∧
      s.din = 1 :: (kw ++ (fw ++ (cw ++ rest))) :=
  ⟨{ State.reset with din := [1, 0, 0, 0, 24, 0xff636261] }, [], _, [], _, [], [], abc, wire_empty .le, ⟨rfl, rfl⟩,
    wire_abc_le, by decide, by decide, by decide, rfl⟩

/-- For every error of INIT, operands and parameters that raise it: its code is not 0x00. -/
theorem witness_InitErrors :
    (run 0x01F00000 [0] = (0x01, [], []) ∧
    run 0x01002000 [0, 0, 20, 0] = (0x13, [], []) ∧
    run 0x01902000 [0, 0, 8, 0] = (0x02, [], []) ∧
    run 0x01902000 [1, 0, 8, 0] = (0x24, [], []) ∧
    run 0x01d00000 [2] = (0x05, [], []) ∧
    run 0x01b00000 [2] = (0x04, [], []) ∧
    run 0x01002000 [2, 0, 8, 0] = (0x03, [], []) ∧
    stepIn { State.reset with params := ⟨511, 0⟩ } 0x01002000 [1, 0, 8, 0] = (0x43, [], []) ∧
    stepIn { State.reset with params := ⟨512, 0⟩ } 0x01002000 [1, 0, 8, 0] = (0x00, [], [])) ∧
    WireBitsIf true 20 [0, 20, 0] ∧ WireBitsIf true 8 [0, 8, 0] ∧ WireBitsIf false 0 [] :=
  ⟨by and_intros <;> decide +kernel, ⟨by decide, [0], by decide, by decide⟩, ⟨by decide, [0], by decide, by decide⟩, ⟨rfl, rfl⟩⟩

/-- An empty UPDATE at the very bound, and one that completes no block. -/
theorem witness_UpdateAbsorbs :
    (∃ (s : State) (rest dw : List Word), Ready s unkeyed ∧ Wire (orderOf unkeyed.variant) [] dw ∧
      unkeyed.processedBits + 8 * unkeyed.rem.length + 8 * ([] : List Byte).length = s.params.maxTotalBits ∧
      s.din = dw ++ rest) ∧
    (∃ (s : State) (rest dw : List Word), Ready s unkeyed ∧ Wire (orderOf unkeyed.variant) abc dw ∧
      unkeyed.processedBits + 8 * unkeyed.rem.length + 8 * abc.length ≤ s.params.maxTotalBits ∧ s.din = dw ++ rest) :=
  ⟨⟨{ holding unkeyed with params := ⟨24, 0⟩, din := [0, 0, 9] }, [9], _, ⟨rfl, rfl, rfl⟩, wire_empty .be, by decide, rfl⟩,
   ⟨{ holding unkeyed with din := [0, 24, 0x61626300] }, [], _, ⟨rfl, rfl, rfl⟩, wire_abc, by decide, rfl⟩⟩

theorem witness_UpdateIsIncremental :
    ∃ (s : State) (rest aw bw abw : List Word), Ready s unkeyed ∧ Wire (orderOf unkeyed.variant) abc aw ∧
      Wire (orderOf unkeyed.variant) [] bw ∧ Wire (orderOf unkeyed.variant) (abc ++ []) abw ∧
      unkeyed.processedBits + 8 * unkeyed.rem.length + 8 * (abc ++ []).length ≤ s.params.maxTotalBits ∧
      s.din = aw ++ (bw ++ rest) :=
  ⟨{ holding unkeyed with din := [0, 24, 0x61626300, 0, 0] }, [], _, _, _, ⟨rfl, rfl, rfl⟩, wire_abc, wire_empty .be,
    wire_abc, by decide, rfl⟩

theorem witness_SetHmacKeyAppliesKey :
    (∃ (s : State) (rest kw : List Word) (key k0 : List Byte), key.length = 64 ∧ Ready s (freshContext .sha1 1) ∧
      hmacOk .sha1 = true ∧ (freshContext .sha1 1).macKeySet = false ∧ (freshContext .sha1 1).updateCalled = false ∧
      (freshContext .sha1 1).numRounds.toNat ≤ 1 ∧ Wire (orderOf .sha1) key kw ∧
      8 * key.length ≤ s.params.maxTotalBits ∧ blockBits .sha1 ≤ s.params.maxTotalBits ∧
      (∃ k : List Byte, k = (if key.length > blockBits .sha1 / 8 then digestOf .sha1 ((outBits .sha1).getD 0) key else key) ∧
        k0 = k ++ List.replicate (blockBits .sha1 / 8 - k.length) 0) ∧ s.din = kw ++ rest) ∧
    (∃ (s : State) (rest kw : List Word) (key k0 : List Byte), key.length = 65 ∧ Ready s (freshContext .sha1 1) ∧
      hmacOk .sha1 = true ∧ (freshContext .sha1 1).macKeySet = false ∧ (freshContext .sha1 1).updateCalled = false ∧
      (freshContext .sha1 1).numRounds.toNat ≤ 1 ∧ Wire (orderOf .sha1) key kw ∧
      8 * key.length ≤ s.params.maxTotalBits ∧ blockBits .sha1 ≤ s.params.maxTotalBits ∧
      (∃ k : List Byte, k = (if key.length > blockBits .sha1 / 8 then digestOf .sha1 ((outBits .sha1).getD 0) key else key) ∧
        k0 = k ++ List.replicate (blockBits .sha1 / 8 - k.length) 0) ∧ s.din = kw ++ rest) :=
  ⟨⟨{ holding (freshContext .sha1 1) with params := ⟨512, 0⟩, din := [0, 512] ++ List.replicate 16 0 ++ [7] }, [7], _,
     List.replicate 64 0, _, rfl, ⟨rfl, rfl, rfl⟩, rfl, rfl, rfl, by decide, wire_block, by decide, by decide,
     ⟨_, rfl, rfl⟩, rfl⟩,
   ⟨{ holding (freshContext .sha1 1) with params := ⟨520, 0⟩, din := [0, 520] ++ List.replicate 17 0 ++ [7] }, [7], _,
     List.replicate 65 0, _, rfl, ⟨rfl, rfl, rfl⟩, rfl, rfl, rfl, by decide, wire_long, by decide, by decide,
     ⟨_, rfl, rfl⟩, rfl⟩⟩

theorem witness_KeyPathsAgree :
    ∃ (s s₁ s₂ s₃ : State) (kw rest : List Word), Wire (orderOf .sha1) abc kw ∧ s.din = 1 :: (kw ++ rest) ∧
      exec (.init (some .sha1) true false false) s = .next s₁ ∧ s₁.status = 0x00 ∧
      exec (.init (some .sha1) false false false) s = .next s₂ ∧ s₂.status = 0x00 ∧
      exec .setHmacKey s₂ = .next s₃ ∧ s₃.status = 0x00 :=
  ⟨start (.init (some .sha1) true false false) [1, 0, 24, 0x61626300], _, _, _, [0, 24, 0x61626300], [], wire_abc, rfl,
    exec_after _ _, by decide +kernel, exec_after _ _, by decide +kernel, exec_after _ _, by decide +kernel⟩

/-- A fixed output length with a length given, and a variable one at the bound. -/
theorem witness_GetHashWritesDigest :
    (∃ (s : State) (rest lw : List Word), Ready s unkeyed ∧ unkeyed.macKeySet = false ∧
      OutLength s.params unkeyed.variant (some 7) 160 ∧
      (unkeyed.h.family = .sha3 ∨ family unkeyed.variant = .sha3 → unkeyed.delim = some 0) ∧
      (∀ n, some 7 = some n → n < 2 ^ 64) ∧ lw = lenWords 7 ∧ s.din = lw ++ rest) ∧
    (∃ (s : State) (rest lw : List Word) (c : Context), c = freshContext .shake128 2 ∧ Ready s c ∧ c.macKeySet = false ∧
      OutLength s.params c.variant (some 256) 256 ∧ s.params.maxOutputBits = 256 ∧
      (c.h.family = .sha3 ∨ family c.variant = .sha3 → c.delim = some 0x1F) ∧
      (∀ n, some 256 = some n → n < 2 ^ 64) ∧ lw = lenWords 256 ∧ s.din = lw ++ rest) :=
  ⟨⟨{ holding unkeyed with din := [0, 7] }, [], _, ⟨rfl, rfl, rfl⟩, rfl, .inl rfl, by decide, by rintro n h; cases h; decide,
     rfl, by decide⟩,
   ⟨{ holding (freshContext .shake128 2) with params := ⟨512, 256⟩, din := [0, 256] }, [], _, _, rfl, ⟨rfl, rfl, rfl⟩, rfl,
     .inr ⟨rfl, rfl, rfl, by decide⟩, rfl, fun _ => rfl, by rintro n h; cases h; decide, rfl, by decide⟩⟩

/-- Every clause of a family: each fixed variant's fresh context has its family's shape and one round, and so has SHAKE's
at output length 0. -/
theorem witness_GetHashFamilies :
    (∀ v ∈ [Variant.sha1, .sha224, .sha256, .sha384, .sha512, .sha3x224, .sha3x256, .sha3x384, .sha3x512],
      Ready (holding (freshContext v 1)) (freshContext v 1) ∧ (freshContext v 1).macKeySet = false ∧
      (∃ ob, OutLength Config.Params.default v none ob) ∧
      (∃ d, (freshContext v 1).h.family = .sha3 ∨ family v = .sha3 → (freshContext v 1).delim = some d) ∧
      (freshContext v 1).h.family = family v ∧ (freshContext v 1).numRounds = 1) ∧
    (freshContext .shake256 1).h = .sha3 zeroLanes ∧ OutLength Config.Params.default .shake256 (some 0) 0 := by
  refine ⟨fun v hv => ?_, rfl, .inr ⟨rfl, rfl, rfl, by decide⟩⟩
  fin_cases hv <;> refine ⟨⟨rfl, rfl, rfl⟩, rfl, ⟨_, .inl rfl⟩, ?_, rfl, rfl⟩ <;>
    first | exact ⟨0, by decide⟩ | exact ⟨0x06, by decide⟩

theorem witness_GetHmacWritesOuterHash :
    ∃ (s : State) (opad : List Word) (d : Byte), Ready s keyed ∧ hmacOk keyed.variant = true ∧ keyed.macKeySet = true ∧
      keyed.opad = some opad ∧ (keyed.h.family = .sha3 ∨ family keyed.variant = .sha3 → keyed.delim = some d) ∧
      keyed.h.family = family keyed.variant :=
  ⟨holding keyed, _, 0, ⟨rfl, rfl, rfl⟩, rfl, rfl, rfl, (by rintro (h | h) <;> cases h), rfl⟩

/-- A KMAC context with the permutation state left at its start: `GetMacFollowsVariant` asks nothing of the lanes. -/
def kmacBare : Context := { freshContext .kmac128 1 with macKeySet := true }

theorem witness_GetMacFollowsVariant :
    (∃ (s : State) (rest lw : List Word), Ready s keyed ∧ hmacOk keyed.variant = true ∧ keyed.macKeySet = true ∧
      keyed.opad ≠ none ∧ (∀ n, some (2 ^ 64 - 1) = some n → n < 2 ^ 64) ∧ lw = lenWords (2 ^ 64 - 1) ∧ s.din = lw ++ rest) ∧
    (∃ (s : State) (rest : List Word) (a : Lanes) (n : Nat), Ready s kmacBare ∧ kmacBare.variant ∈ [Variant.kmac128, .kmac256] ∧
      kmacBare.macKeySet = true ∧ kmacBare.h = .sha3 a ∧ kmacBare.delim = some 0x04 ∧ n % 8 = 0 ∧ n = s.params.maxOutputBits ∧
      n < 2 ^ 64 ∧ s.din = lenWords n ++ rest) :=
  ⟨⟨{ holding keyed with din := [0xffffffff, 0xffffffff] }, [], _, ⟨rfl, rfl, rfl⟩, rfl, rfl, by simp [keyed, applyHmacKey],
     by rintro n h; cases h; decide, rfl, by decide⟩,
   ⟨{ holding kmacBare with params := ⟨10000, 256⟩, din := [0, 256] }, [], _, 256, ⟨rfl, rfl, rfl⟩, by decide, rfl, rfl, rfl,
     by decide, rfl, by decide, by decide⟩⟩

/-- For each command, a context and operands whose code is not 0x00; at the bound of UPDATE both sides. -/
theorem witness_ContextCommandErrors :
    stepIn (holding unkeyed) 0x02000000 [0, 20, 0] = (0x13, [], []) ∧
    stepIn { holding unkeyed with params := ⟨31, 0⟩ } 0x02000000 [0, 8, 0] = (0x43, [], []) ∧
    stepIn { holding unkeyed with params := ⟨32, 0⟩ } 0x02000000 [0, 8, 0] = (0x00, [], []) ∧
    stepIn (holding { unkeyed with updateCalled := false, numRounds := 2 }) 0x03000000 [0, 8, 0] = (0x03, [], []) ∧
    stepIn (holding { unkeyed with updateCalled := false }) 0x03000000 [0, 8, 0] = (0x00, [], []) ∧
    stepIn (holding keyed) 0x04000000 [] = (0x22, [], []) ∧
    stepIn (holding (freshContext .shake128 1)) 0x04000000 [] = (0x30, [], []) ∧
    stepIn { holding (freshContext .shake128 1) with params := ⟨512, 255⟩ } 0x04002000 [0, 256] = (0x43, [], []) ∧
    stepIn (holding kmac) 0x06002000 [0, 7] = (0x31, [], []) ∧
    stepIn (holding kmac) 0x05000000 [] = (0x24, [], []) := by
  and_intros <;> decide +kernel

theorem witness_ReadsDoNotMutate :
    (∃ (s t : State) (w : Word) (ops out : List Word), exec (.getHash false) s = .next t ∧ s.cmd = w :: t.cmd ∧
      t.status = 0x00 ∧ s.din = ops ++ t.din ∧ t.dout = s.dout ++ out) ∧
    (∃ s t : State, exec .getHmac s = .next t ∧ t.status ≠ 0x00) ∧
    (∃ s t : State, exec (.getMac true) s = .next t ∧ t.status = 0x00) :=
  ⟨⟨given unkeyed (.getHash false) [], _, _, [], _, exec_after _ _, rfl, by decide +kernel, by decide +kernel, rfl⟩,
   ⟨given unkeyed .getHmac [], _, exec_after _ _, by decide +kernel⟩,
   ⟨given kmac (.getMac true) [0, 256], _, exec_after _ _, by decide +kernel⟩⟩

/-- Every phase is some state's, and a command that completes there leaves the phase of the table. -/
theorem witness_PhaseTable :
    State.reset.phase = .unbound ∧ { State.reset with poisoned := true }.phase = .poisoned ∧
    (holding (freshContext .sha1 1)).phase = .fresh ∧ (holding unkeyed).phase = .finalizable ∧
    (holding { keyed with updateCalled := false }).phase = .keyedFresh ∧ (holding keyed).phase = .keyedFinalizable ∧
    (∃ (s t : State) (w : Word), exec .setHmacKey s = .next t ∧ s.cmd = w :: t.cmd ∧ s.phase = .fresh ∧
      t.status = 0x00) ∧
    (∃ (s t : State) (w : Word), exec .update s = .next t ∧ s.cmd = w :: t.cmd ∧ s.phase = .keyedFinalizable ∧
      t.status = 0x00) :=
  ⟨rfl, rfl, rfl, rfl, rfl, rfl,
   ⟨given (freshContext .sha1 1) .setHmacKey [0, 8, 0], _, _, exec_after _ _, rfl, rfl, by decide +kernel⟩,
   ⟨given keyed .update [0, 8, 0], _, _, exec_after _ _, rfl, rfl, by decide +kernel⟩⟩

theorem witness_HashRun :
    (∃ s : State, Idle s ∧ s.params.legal = true ∧ Variant.sha3x512 ∉ [Variant.kmac128, .kmac256] ∧
      (0xffffffff : Word) ≠ 0 ∧ (Variant.sha3x512 ∈ [Variant.cshake128, .cshake256] → (0xffffffff : Word) = 1) ∧
      8 * abc.length = s.params.maxTotalBits ∧ OutLength s.params .sha3x512 none 512 ∧
      ∀ n, (none : Option Nat) = some n → n < 2 ^ 64) ∧
    (∃ s : State, Idle s ∧ s.params.legal = true ∧ Variant.cshake256 ∉ [Variant.kmac128, .kmac256] ∧ (1 : Word) ≠ 0 ∧
      (Variant.cshake256 ∈ [Variant.cshake128, .cshake256] → (1 : Word) = 1) ∧ 8 * abc.length ≤ s.params.maxTotalBits ∧
      OutLength s.params .cshake256 (some 0) 0 ∧ ∀ n, some 0 = some n → n < 2 ^ 64) :=
  ⟨⟨{ State.reset with params := ⟨24, 0⟩ }, ⟨rfl, rfl, rfl⟩, by decide, by decide, by decide, by decide, by decide, .inl rfl,
     by rintro n h; cases h⟩,
   ⟨{ State.reset with params := ⟨24, 0⟩ }, ⟨rfl, rfl, rfl⟩, by decide, by decide, by decide, by decide, by decide,
     .inr ⟨rfl, rfl, rfl, by decide⟩, by rintro n h; cases h; decide⟩⟩

theorem witness_HmacRun :
    (∃ (s : State) (key k0 : List Byte), key.length = 64 ∧ Idle s ∧ s.params.legal = true ∧ hmacOk .sha1 = true ∧
      outBits .sha1 = some 160 ∧ 8 * key.length ≤ s.params.maxTotalBits ∧
      blockBits .sha1 + 8 * abc.length = s.params.maxTotalBits ∧
      ∃ k : List Byte, k = (if key.length > blockBits .sha1 / 8 then digestOf .sha1 160 key else key) ∧
        k0 = k ++ List.replicate (blockBits .sha1 / 8 - k.length) 0) ∧
    (∃ (s : State) (key k0 : List Byte), key.length = 65 ∧ Idle s ∧ s.params.legal = true ∧ hmacOk .sha1 = true ∧
      outBits .sha1 = some 160 ∧ 8 * key.length ≤ s.params.maxTotalBits ∧
      blockBits .sha1 + 8 * abc.length ≤ s.params.maxTotalBits ∧
      ∃ k : List Byte, k = (if key.length > blockBits .sha1 / 8 then digestOf .sha1 160 key else key) ∧
        k0 = k ++ List.replicate (blockBits .sha1 / 8 - k.length) 0) :=
  ⟨⟨{ State.reset with params := ⟨536, 0⟩ }, List.replicate 64 0, _, rfl, ⟨rfl, rfl, rfl⟩, by decide, rfl, rfl, by decide,
     by decide, _, rfl, rfl⟩,
   ⟨State.reset, List.replicate 65 0, _, rfl, ⟨rfl, rfl, rfl⟩, by decide, rfl, rfl, by decide, by decide, _, rfl, rfl⟩⟩

/-- A string given, with the bound met exactly; and both strings empty, one given as empty and one absent. -/
theorem witness_CshakeRun :
    (∃ s : State, Idle s ∧ s.params.legal = true ∧ Variant.cshake128 ∈ [Variant.cshake128, .cshake256] ∧
      8 * abc.length ≤ s.params.maxTotalBits ∧ 8 * ([] : List Byte).length ≤ s.params.maxTotalBits ∧
      8 * (bytePad (encodeString abc ++ encodeString []) (blockBits .cshake128 / 8) ++ abc).length = s.params.maxTotalBits ∧
      256 % 8 = 0 ∧ 256 ≤ s.params.maxOutputBits) ∧
    (∃ (s : State) (fn cust : Option (List Byte)), Idle s ∧ s.params.legal = true ∧
      Variant.cshake256 ∈ [Variant.cshake128, .cshake256] ∧ fn = some [] ∧ cust = none ∧
      (fn.getD [] = [] ∧ cust.getD [] = []) ∧ 8 * (fn.getD []).length ≤ s.params.maxTotalBits ∧
      8 * (cust.getD []).length ≤ s.params.maxTotalBits ∧ 8 * ([] ++ abc).length = s.params.maxTotalBits ∧
      256 % 8 = 0 ∧ 256 = s.params.maxOutputBits) :=
  ⟨⟨{ State.reset with params := ⟨1368, 256⟩ }, ⟨rfl, rfl, rfl⟩, by decide, by decide, by decide, by decide,
     by decide +kernel, by decide, by decide⟩,
   ⟨{ State.reset with params := ⟨24, 256⟩ }, some [], none, ⟨rfl, rfl, rfl⟩, by decide, by decide, rfl, rfl, by decide,
     by decide, by decide, by decide, by decide, by decide⟩⟩

theorem witness_KmacRun :
    ∃ s : State, Idle s ∧ s.params.legal = true ∧ Variant.kmac128 ∈ [Variant.kmac128, .kmac256] ∧
      8 * (bytePad (encodeString [0x4b, 0x4d, 0x41, 0x43] ++ encodeString []) (blockBits .kmac128 / 8) ++
        bytePad (encodeString abc) (blockBits .kmac128 / 8) ++ abc).length = s.params.maxTotalBits ∧
      256 % 8 = 0 ∧ 256 ≤ s.params.maxOutputBits :=
  ⟨{ State.reset with params := ⟨2712, 256⟩ }, ⟨rfl, rfl, rfl⟩, by decide, by decide, by decide +kernel, by decide,
    by decide⟩

/-- For each block operation with checks, operands whose code is not 0x00 for each of its errors. -/
theorem witness_BlockOperationErrors :
    (run 0x11000000 (List.replicate 5 0 ++ [0, 100, 0, 20, 0]) = (0x13, [], []) ∧
    stepIn { State.reset with params := ⟨515, 0⟩ } 0x11000000 (List.replicate 5 0 ++ [0, 512, 0, 8, 0]) = (0x43, [], []) ∧
    run 0x13100000 (List.replicate 8 0 ++ [0, 511, 0, 0]) = (0x44, [], []) ∧
    run 0x15300000 (List.replicate 16 0 ++ [0, 512, 0, 0]) = (0x44, [], []) ∧
    stepIn { State.reset with params := ⟨8, 8⟩ } 0x18600006 (List.replicate 50 0 ++ [0, 16, 0, 0]) = (0x43, [], []) ∧
    run 0x18600006 (List.replicate 50 0 ++ [0, 7, 0, 8, 0]) = (0x31, [], []) ∧
    stepIn { State.reset with params := ⟨8, 8⟩ } 0x1b000000 [0, 16, 0] = (0x43, [], []) ∧
    run 0x1c000000 [0, 0, 8, 0] = (0x44, [], [])) ∧ WireBits 20 [0, 20, 0] ∧ WireBits 0 [0, 0] :=
  ⟨by and_intros <;> decide +kernel, ⟨by decide, [0], by decide, by decide⟩, ⟨by decide, [], by decide, by decide⟩⟩

theorem witness_CompressRounds :
    (∃ blk : List Word, blk.length = 16) ∧ (∃ blk : List Word, blk.length = 32) ∧
    ∃ (s : State) (rest : List Word), s.din = ivSha1.toList ++ List.replicate 16 0 ++ rest :=
  ⟨⟨List.replicate 16 0, rfl⟩, ⟨List.replicate 32 0, rfl⟩,
   ⟨{ State.reset with din := ivSha1.toList ++ List.replicate 16 0 }, [], by simp⟩⟩

/-- The largest rate and the smallest. -/
theorem witness_Sha3AbsorbBlock :
    (∃ (lanes : List DWord) (blk : List Word), Variant.shake128.isSha3 = true ∧ lanes.length = 25 ∧
      blk.length = blockBits .shake128 / 32) ∧
    (∃ (lanes : List DWord) (blk : List Word), Variant.sha3x512.isSha3 = true ∧ lanes.length = 25 ∧
      blk.length = blockBits .sha3x512 / 32) :=
  ⟨⟨List.replicate 25 0, List.replicate 42 0, rfl, rfl, rfl⟩, ⟨List.replicate 25 0, List.replicate 18 0, rfl, rfl, rfl⟩⟩

theorem witness_FinalizePads :
    (∃ p : Nat, p % 512 = 0 ∧ p < 2 ^ 64 ∧ Wire .be abc [0, 24, 0x61626300] ∧
      ∃ params : Config.Params, 8 * abc.length ≤ params.maxTotalBits ∧ p + 8 * abc.length = params.maxTotalBits) ∧
    (∃ p : Nat, p % 1024 = 0 ∧ p = 2 ^ 64 - 1024 ∧ p < 2 ^ 64 ∧ Wire .be [] [0, 0]) ∧
    Variant.sha224 ∈ [Variant.sha224, .sha256] ∧ Variant.sha384 ∈ [Variant.sha384, .sha512] :=
  ⟨⟨512, by decide, by decide, wire_abc, ⟨536, 0⟩, by decide, by decide⟩,
   ⟨2 ^ 64 - 1024, by decide, rfl, by decide, wire_empty .be⟩, by decide, by decide⟩

theorem witness_Sha3FinalizeSponge :
    ∃ (lanes : List DWord) (n : Nat) (params : Config.Params), Variant.kmac256.isSha3 = true ∧
      (0x04 : Byte) ∈ [(0x06 : Byte), 0x1F, 0x04] ∧ lanes.length = 25 ∧ n % 8 = 0 ∧ n < 2 ^ 64 ∧
      Wire .le abc [0, 24, 0xff636261] ∧ 8 * abc.length = params.maxTotalBits ∧ n = params.maxOutputBits :=
  ⟨List.replicate 25 0, 2 ^ 53 - 8, ⟨24, 2 ^ 53 - 8⟩, rfl, by decide, rfl, by decide, by decide, wire_abc_le, rfl, rfl⟩

theorem witness_EncodeStringAndBytePad :
    Wire .le abc [0, 24, 0xff636261] ∧ (1 : Word) ≠ 0 ∧ (0xffffffff : Word) ≠ 0 ∧ (0 : Nat) < 2 ^ 64 ∧
    2 ^ 64 - 1 < 2 ^ 64 :=
  ⟨wire_abc_le, by decide, by decide, by decide, by decide⟩

/-- The operands of the additions, and the amounts at the ends of the two ranges of the 64-bit rotate. -/
theorem witness_Words :
    ([0xffffffff, 1] : List Word).length = 2 ∧ ([0, 0, 0, 0] : List Word).length = 4 ∧
    ([1, 2, 3, 4, 5] : List Word).length = 5 ∧ (28 : BitVec 6).toNat < 32 ∧ ¬(36 : BitVec 6).toNat < 32 ∧
    ∃ (s : State) (rest : List Word), s.din = [0xffffffff, 1] ++ rest :=
  ⟨rfl, rfl, rfl, by decide, by decide, { State.reset with din := [0xffffffff, 1] }, [], rfl⟩

end Sys2Proof.Tests
end

section
/-! PROOFS. The state (spec 10_state.md): the invariant and reset, `CTX.BOUND`, and the read-only tables.  First what a step
can do and which updates of the state keep the invariant; then the statements, each a short use of those. -/

namespace Sys2Proof.Machine

/-! ### What a step can do -/

/-- A step is idle, rejects an illegal word, or runs the command of a legal one (R80, R93, R340). -/
theorem step_cases {s t : State} (h : step s = .next t) :
    (s.cmd = [] ∧ t = s) ∨
    (∃ w rest r, s.cmd = w :: rest ∧ decode w = .illegal r ∧ t = s.rejectCommand w) ∨
    (∃ w rest i, s.cmd = w :: rest ∧ decode w = .instr i ∧ exec i s = .next t) := by
  unfold step at h
  split at h
  · next hcmd => cases h; exact .inl ⟨hcmd, rfl⟩
  · next w rest hcmd =>
    split at h
    · next r hw => cases h; exact .inr (.inl ⟨w, rest, r, hcmd, hw, rfl⟩)
    · next i hw => exact .inr (.inr ⟨w, rest, i, hcmd, hw, h⟩)

/-- R12, R179, R180: a command is a test-port operation, a context command other than INIT, or INIT. -/
theorem instr_class_cases (i : Instr) :
    i.commandClass = .testPort ∨ (i.commandClass = .context ∧ ∀ v p f c, i ≠ .init v p f c) ∨
    ∃ v p f c, i = .init v p f c := by
  cases i with
  | init v p f c => exact .inr (.inr ⟨v, p, f, c, rfl⟩)
  | update | setHmacKey | getHash | getHmac | getMac => exact .inr (.inl ⟨rfl, by simp⟩)
  | _ => exact .inl rfl

/-- Every error of a test-port operation is one the block raises (R303, R309). -/
theorem portErrors_not_reserved {e : Error} (h : e ∈ portErrors) : e.reserved = false := by
  revert e; decide

/-- No error's code is `OK` (R303). -/
theorem Error.code_ne_ok (e : Error) : e.code ≠ 0x00#8 := by cases e <;> decide

/-- A command that took its command word did not wait. -/
theorem State.ne_of_cmd_eq_cons {s t : State} {w : Word} (h : s.cmd = w :: t.cmd) : t ≠ s := by
  rintro rfl
  simp at h

/-! ### Each update of the state keeps the invariant -/

section
variable {s : State}

theorem State.Inv.take (h : s.Inv) (din : List Word) : (s.take din).Inv :=
  ⟨h.params, h.boundHasContext, h.freshHasNone, h.context, h.status⟩

theorem State.Inv.complete (h : s.Inv) (out : List Word) : (State.complete out s).Inv :=
  ⟨h.params, h.boundHasContext, h.freshHasNone, h.context, by simp [statusCodes]⟩

theorem State.Inv.raise (h : s.Inv) (k : CommandClass) {e : Error} (he : e.reserved = false) :
    (State.raise k e s).Inv where
  params := h.params
  boundHasContext := h.boundHasContext
  freshHasNone hb hp := h.freshHasNone hb (Bool.or_eq_false_iff.mp hp).1
  context := h.context
  status := Error.code_mem he

/-- R180, R305: an INIT that errs leaves the context unbound, and poisoned, so that it may keep its registers. -/
theorem State.Inv.raise_unbound (h : s.Inv) {e : Error} (he : e.reserved = false) (hi : e ≠ .illegalCommand) :
    (State.raise .context e { s with bound := false }).Inv where
  params := h.params
  boundHasContext hb := by simp at hb
  freshHasNone _ hp := by simp [hi] at hp
  context := h.context
  status := Error.code_mem he

/-- R179: a bound context may be replaced by any that meets the invariant. -/
theorem State.Inv.setContext (h : s.Inv) (hb : s.bound = true) {c : Context} (hc : c.Inv s.params) :
    ({ s with ctx := some c } : State).Inv where
  params := h.params
  boundHasContext _ := rfl
  freshHasNone hn := by simp [hb] at hn
  context c' hc' := by cases hc'; exact hc
  status := h.status

/-- R180: so may INIT bind one. -/
theorem State.Inv.bind (h : s.Inv) {c : Context} (hc : c.Inv s.params) :
    ({ s with ctx := some c, poisoned := false, bound := true } : State).Inv where
  params := h.params
  boundHasContext _ := rfl
  freshHasNone hn := by simp at hn
  context c' hc' := by cases hc'; exact hc
  status := h.status

theorem State.Inv.rejectCommand (h : s.Inv) (w : Word) : (s.rejectCommand w).Inv :=
  (h.take s.din).raise _ rfl

end

/-! ### Each command keeps the invariant -/

/-- R182: what the passed checks of UPDATE say. -/
theorem updateChecks_none {p : Config.Params} {c : Context} {x : WireString} (h : firstError (updateChecks p c x) = none) :
    x.bitLen % 8 = 0 ∧ c.processedBits + 8 * c.rem.length + x.bitLen ≤ p.maxTotalBits := by
  simp only [updateChecks, firstError_eq_none] at h
  simpa [WireString.unaligned] using h

/-- R184: what the passed checks of SET_HMAC_KEY say. -/
theorem setKeyChecks_none {p : Config.Params} {c : Context} {x : WireString}
    (h : firstError (setKeyChecks p c x) = none) :
    hmacOk c.variant = true ∧ c.updateCalled = false ∧ c.numRounds.toNat ≤ 1 ∧ blockBits c.variant ≤ p.maxTotalBits := by
  simp only [setKeyChecks, firstError_eq_none, List.forall_mem_cons, List.not_mem_nil, Bool.or_eq_false_iff,
    Bool.not_eq_false', decide_eq_false_iff_not, not_lt, gt_iff_lt] at h
  obtain ⟨-, hv, -, hu, hr, ⟨-, hl⟩, -⟩ := h
  exact ⟨hv, hu, hr, hl⟩

/-- R77: a string on the wire has an eighth of its bit length in bytes. -/
@[simp] theorem WireString.bytes_length (o : ByteOrder) (x : WireString) : (x.bytes o).length = x.bitLen / 8 :=
  unpack_length o x.words _

/-- R25: a round count that is not 0 and does not exceed 1 is 1. -/
theorem Context.Inv.numRounds_eq_one {p : Config.Params} {c : Context} (hc : c.Inv p) (h : c.numRounds.toNat ≤ 1) :
    c.numRounds = 1 := by
  have h0 := hc.rounds
  bv_omega

/-- R182, R184, R192: a context command other than INIT leaves a context that meets the invariant. -/
theorem contextChange_inv {i : Instr} {p : Config.Params} {c c' : Context} (hc : c.Inv p)
    (h : contextChange i p c c') : c'.Inv p := by
  cases i with
  | update =>
    obtain ⟨x, hx, rfl⟩ := h
    obtain ⟨haligned, hl⟩ := updateChecks_none hx
    exact absorbData_inv hc (by rw [WireString.bytes_length]; omega)
  | setHmacKey =>
    obtain ⟨x, hx, rfl⟩ := h
    obtain ⟨hv, hu, hr, hl⟩ := setKeyChecks_none hx
    exact applyHmacKey_inv _ hc hv hu (hc.numRounds_eq_one hr) hl
  | _ => cases h; exact hc

theorem PortEffect.inv {s t : State} (hs : s.Inv) (h : PortEffect s t) : t.Inv := by
  obtain rfl | ⟨rest, e, he, rfl⟩ | ⟨rest, out, rfl⟩ := h
  · exact hs
  · exact (hs.take rest).raise _ (portErrors_not_reserved he)
  · exact (hs.take rest).complete out

theorem BoundEffect.inv {ok : Config.Params → Context → Context → Prop} {s t : State} (hs : s.Inv)
    (hok : ∀ c c', c.Inv s.params → ok s.params c c' → c'.Inv s.params) (h : BoundEffect ok s t) : t.Inv := by
  obtain rfl | ⟨rest, e, he, -, rfl⟩ | ⟨rest, c, c', out, hentry, hcc, rfl⟩ := h
  · exact hs
  · exact (hs.take rest).raise _ he
  · obtain ⟨-, hb, hctx⟩ := State.entry_ok.mp hentry
    exact ((hs.take rest).setContext hb (hok c c' (hs.context c hctx) hcc)).complete out

theorem exec_init_inv {v : Option Variant} {p f c : Bool} {s t : State} (hs : s.Inv)
    (h : exec (.init v p f c) s = .next t) : t.Inv := by
  obtain rfl | ⟨rest, e, he, hi, rfl⟩ | ⟨rest, x, w, -, hx, -, rfl⟩ := exec_init h
  · exact hs
  · exact (hs.take rest).raise_unbound he hi
  · exact ((hs.take rest).bind (keyContext_inv hx)).complete []

theorem exec_inv {i : Instr} {s t : State} (hs : s.Inv) (h : exec i s = .next t) : t.Inv := by
  obtain hi | ⟨hi, hn⟩ | ⟨v, p, f, c, rfl⟩ := instr_class_cases i
  · exact (exec_testPort hi h).inv hs
  · exact (exec_context hi hn h).inv hs fun _ _ => contextChange_inv
  · exact exec_init_inv hs h

/-- Settles O8: a step is idle, rejects its word, or runs a command, and each keeps the invariant. -/
theorem stepKeepsInvariant : Obligations.StepKeepsInvariant := by
  intro s t hs h
  obtain ⟨-, rfl⟩ | ⟨w, -, -, -, -, rfl⟩ | ⟨-, -, i, -, -, hexec⟩ := step_cases h
  · exact hs
  · exact hs.rejectCommand w
  · exact exec_inv hs hexec

/-! ### Reset -/

theorem State.reset_inv : State.reset.Inv where
  params := by decide
  boundHasContext hb := by cases hb
  freshHasNone _ _ := rfl
  context _ hc := by cases hc
  status := by decide

/-- R330: reset keeps the parameters, so it takes them legal to a state that meets the invariant. -/
theorem State.hostReset_inv {s : State} (h : s.params.legal = true) : s.hostReset.Inv :=
  ⟨h, State.reset_inv.boundHasContext, State.reset_inv.freshHasNone, (fun _ hc => by cases hc), State.reset_inv.status⟩

/-- Settles O9. -/
theorem resetMeetsInvariant : Obligations.ResetMeetsInvariant :=
  ⟨State.reset_inv, fun _ => State.hostReset_inv⟩

/-- Settles O10: the two reset states differ in the parameters alone, and no register here is one. -/
theorem resetLeaves : Obligations.ResetLeaves := by
  rintro s (rfl | ⟨s', rfl⟩)
  · exact ⟨rfl, rfl, rfl, rfl, rfl, rfl, rfl, rfl⟩
  · exact ⟨rfl, rfl, rfl, rfl, rfl, rfl, rfl, rfl⟩

/-! ### `CTX.BOUND` -/

theorem PortEffect.bound_eq {s t : State} (h : PortEffect s t) : t.bound = s.bound := by
  obtain rfl | ⟨_, _, _, rfl⟩ | ⟨_, _, rfl⟩ := h <;> rfl

theorem BoundEffect.bound_eq {ok : Config.Params → Context → Context → Prop} {s t : State} (h : BoundEffect ok s t) :
    t.bound = s.bound := by
  obtain rfl | ⟨_, _, _, _, rfl⟩ | ⟨_, _, _, _, _, _, rfl⟩ := h <;> rfl

/-- R22: no command but INIT writes `CTX.BOUND`. -/
theorem exec_bound_of_not_init {i : Instr} {s t : State} (hn : ∀ v p f c, i ≠ .init v p f c)
    (h : exec i s = .next t) : t.bound = s.bound := by
  obtain hi | ⟨hi, -⟩ | ⟨v, p, f, c, rfl⟩ := instr_class_cases i
  · exact (exec_testPort hi h).bound_eq
  · exact (exec_context hi hn h).bound_eq
  · exact absurd rfl (hn v p f c)

/-- R22: nor does a step that runs no INIT. -/
theorem step_bound_of_not_init {s t : State} (h : step s = .next t)
    (hn : ∀ (w : Word) (rest : List Word), s.cmd = w :: rest → ∀ v p f c, decode w ≠ .instr (.init v p f c)) :
    t.bound = s.bound := by
  obtain ⟨-, rfl⟩ | ⟨w, -, -, -, -, rfl⟩ | ⟨w, rest, i, hcmd, hw, hexec⟩ := step_cases h
  · rfl
  · rfl
  · exact exec_bound_of_not_init (fun v p f c hi => hn w rest hcmd v p f c (hi ▸ hw)) hexec

/-- R22, R180: an INIT that took its words leaves the context bound where it completes, and poisoned where it errs. -/
theorem exec_init_flags {v : Option Variant} {p f c : Bool} {s t : State} (h : exec (.init v p f c) s = .next t)
    (ht : t ≠ s) : t.bound = decide (t.status = 0x00) ∧ t.poisoned = decide (t.status ≠ 0x00) := by
  obtain rfl | ⟨rest, e, -, hi, rfl⟩ | ⟨rest, x, w, -, -, -, rfl⟩ := exec_init h
  · exact absurd rfl ht
  · simp [hi, e.code_ne_ok]
  · simp

/-- R179: the common entry of a context that is not bound. -/
theorem State.entry_of_unbound {s : State} (h : s.bound = false) :
    s.entry = .error (if s.poisoned then .contextPoisoned else .notInitialised) := by
  cases hp : s.poisoned <;> simp [State.entry, h, hp]

/-- R179, R304: a context command other than INIT that took its words in an unbound context raised the entry's error. -/
theorem exec_context_of_unbound {i : Instr} {s t : State} (hi : i.commandClass = .context)
    (hn : ∀ v p f c, i ≠ .init v p f c) (h : exec i s = .next t) (ht : t ≠ s) (hb : s.bound = false) :
    t.status = (if s.poisoned then 0x42 else 0x41) ∧ t.poisoned = true := by
  have hentry := State.entry_of_unbound hb
  rcases shape i with ⟨_, _, _, _, hi', -⟩ | ⟨_, read, run, -, -, -, -, -, he⟩ | ⟨v, p, f, c, rfl, -⟩
  · simp [hi] at hi'
  · rw [he] at h
    obtain ⟨-, rfl⟩ | ⟨x, rest, -, hr, -, -⟩ | ⟨_, _, c, _, _, -, hc, -⟩ := boundCommand_cases h
    · exact absurd rfl ht
    · rw [boundCommand_entry hr hentry] at h
      cases h
      cases hp : s.poisoned <;> simp [Error.code]
    · simp [hentry] at hc
  · exact absurd rfl (hn v p f c)

/-- Settles O11, from what a step, INIT and the other context commands each do to `CTX.BOUND`. -/
theorem unboundContextRefuses : Obligations.UnboundContextRefuses :=
  ⟨fun _ _ => step_bound_of_not_init,
   fun _ _ _ _ _ _ _ h hcmd => exec_init_flags h (State.ne_of_cmd_eq_cons hcmd),
   fun _ => ⟨rfl, rfl⟩,
   fun _ _ _ _ hi hn h hcmd => exec_context_of_unbound hi hn h (State.ne_of_cmd_eq_cons hcmd)⟩

/-! ### The read-only tables -/

section
open Sys2Proof.Claims

/-- The primes the SHA-2 tables are made from, found once: the checks of each table read them from this list. -/
theorem primes_eq : primes =
    [2, 3, 5, 7, 11, 13, 17, 19, 23, 29, 31, 37, 41, 43, 47, 53, 59, 61, 67, 71, 73, 79, 83, 89, 97, 101, 103, 107, 109,
     113, 127, 131, 137, 139, 149, 151, 157, 163, 167, 173, 179, 181, 191, 193, 197, 199, 211, 223, 227, 229, 233, 239,
     241, 251, 257, 263, 269, 271, 277, 281, 283, 293, 307, 311, 313, 317, 331, 337, 347, 349, 353, 359, 367, 373, 379,
     383, 389, 397, 401, 409] := by
  decide +kernel

/-- R45: `K256` from the cube roots. -/
theorem k256_isRootFraction :
    ∀ t, t < 64 → isRootFraction 3 (primes.getD t 0) 32 (k256.getD t 0).toNat = true := by
  rw [primes_eq]
  decide +kernel

/-- R46: `K512` from the cube roots. -/
theorem k512_isRootFraction :
    ∀ t, t < 80 → isRootFraction 3 (primes.getD t 0) 64 (k512.getD t 0).toNat = true := by
  rw [primes_eq]
  decide +kernel

/-- R39 to R42: the initial values of SHA-2 from the square roots. -/
theorem ivSha2_isRootFraction :
    ∀ i, i < 8 → isRootFraction 2 (primes.getD i 0) 32 (ivSha256.get i).toNat = true ∧
      isRootFraction 2 (primes.getD i 0) 64 (ivSha512.get i).toNat = true ∧
      isRootFraction 2 (primes.getD (i + 8) 0) 64 (ivSha384.get i).toNat = true ∧
      (ivSha224.get i).toNat = (ivSha384.get i).toNat % 2 ^ 32 := by
  rw [primes_eq]
  decide +kernel

/-- R47: the Keccak round constants from the shift register. -/
theorem keccakRC_getLsbD :
    ∀ i, i < 24 → ∀ j, j < 64 → (keccakRC.getD i 0).getLsbD j =
      (List.range 7).any fun k => j == 2 ^ k - 1 && rcBit (k + 7 * i) := by
  decide +kernel

/-- R48: the rho offsets along their walk. -/
theorem keccakRot_of_mem_rotWalk : ∀ x ∈ rotWalk 24 0 1 0, (keccakRot.get x.1).get x.2.1 = x.2.2 := by decide

/-- R43, R170: the SHA-3 variants start from zero lanes. -/
theorem newState_of_isSha3 {v : Variant} (hv : v.isSha3 = true) : newState v = .sha3 zeroLanes := by
  cases v with
  | sha1 | sha224 | sha256 | sha384 | sha512 => cases hv
  | _ => rfl

theorem zeroLanes_get : ∀ x, x < 5 → ∀ y, y < 5 → (zeroLanes.get x).get y = 0 := by decide

/-- Settles O55, table by table. -/
theorem constantTables : Obligations.ConstantTables :=
  ⟨rfl, rfl, rfl, by rw [primes_eq]; rfl, k256_isRootFraction, k512_isRootFraction, ivSha2_isRootFraction,
   keccakRC_getLsbD, keccakRot_of_mem_rotWalk, rfl, rfl, rfl, rfl, rfl, rfl,
   fun _ hv => ⟨zeroLanes, newState_of_isSha3 hv, zeroLanes_get⟩⟩

/-- The row of R30's table that the model's functions give a variant. -/
def descriptorOf (v : Variant) : Descriptor where
  code := v.code.toNat
  variant := v
  family := family v
  blockBits := blockBits v
  outBits := outBits v
  order := orderOf v
  hmacOk := hmacOk v
  varLen := varLen v
  initDelim := initDelim v

/-- R30, R31: every row of the table is the one the model gives its variant. -/
theorem eq_descriptorOf_of_mem : ∀ r ∈ descriptors, r = descriptorOf r.variant := by
  simp only [descriptors, List.forall_mem_cons]
  exact ⟨rfl, rfl, rfl, rfl, rfl, rfl, rfl, rfl, rfl, rfl, rfl, rfl, rfl, rfl, rfl, by simp⟩

/-- R2, R30: every variant has a row. -/
theorem descriptorOf_mem (v : Variant) : descriptorOf v ∈ descriptors := by
  have hcode : descriptors[v.code.toNat]? = some (descriptorOf v) := by cases v <;> rfl
  exact List.mem_of_getElem? hcode

/-- R90, R94: a variant's code in the field `VAR` of an INIT word selects the variant. -/
theorem decode_initWord (v : Variant) :
    decode (BitVec.ofNat 32 (0x01000000 + v.code.toNat * 2 ^ 20)) = .instr (.init (some v) false false false) := by
  cases v <;> rfl

/-- R94, R95: the variants of F_SHA3 are those with the codes 5 to 14. -/
theorem isSha3_eq_decide_code (v : Variant) : v.isSha3 = decide (5 ≤ v.code.toNat) := by cases v <;> rfl

theorem isCshake_eq_decide_code (v : Variant) : isCshake v = decide (v.code.toNat ∈ [11, 12]) := by cases v <;> rfl

theorem isKmac_eq_decide_code (v : Variant) : isKmac v = decide (v.code.toNat ∈ [13, 14]) := by cases v <;> rfl

theorem hasNoMac_eq_decide_code (v : Variant) : hasNoMac v = decide (v.code.toNat ∈ [9, 10, 11, 12]) := by
  cases v <;> rfl

/-- Settles O56: a row of the table is its variant's `descriptorOf`, so each clause is about the variant alone. -/
theorem variantDescriptors : Obligations.VariantDescriptors := by
  refine ⟨fun v => ⟨descriptorOf v, descriptorOf_mem v, rfl⟩, fun r hr => ?_⟩
  obtain ⟨v, rfl⟩ : ∃ v, r = descriptorOf v := ⟨_, eq_descriptorOf_of_mem r hr⟩
  exact ⟨decode_initWord v, rfl, rfl, rfl, rfl, rfl, rfl, rfl, isSha3_eq_decide_code v, isCshake_eq_decide_code v,
    isKmac_eq_decide_code v, hasNoMac_eq_decide_code v⟩

end

end Sys2Proof.Machine
end

section
/-! PROOFS. The channels (spec 20_memory.md): the packings of byte strings into words, in both byte orders at once; the
words a step takes and the results it appends; and the dispatch of a step. -/

namespace Sys2Proof.Machine

/-! ### Packed byte strings -/

/-- R73, R74: the lowest bit of byte `i` of a string in the word that holds it, word `i div 4`. -/
def byteShift : ByteOrder → Nat → Nat
  | .be, i => 24 - 8 * (i % 4)
  | .le, i => 8 * (i % 4)

/-- R73, R74: the word of the four bytes from byte `i` on. -/
def packedWord : ByteOrder → List Byte → Nat → Word
  | .be => wordBE
  | .le => wordLE

theorem byteShift_mod (o : ByteOrder) (i : Nat) : byteShift o (i % 4) = byteShift o i := by
  cases o <;> simp [byteShift]

theorem pack_eq (o : ByteOrder) (s : List Byte) :
    pack o s = (List.range ((s.length + 3) / 4)).map fun j => packedWord o s (4 * j) := by
  cases o <;> rfl

theorem unpack_eq (o : ByteOrder) (ws : List Word) (n : Nat) :
    unpack o ws n = (List.range n).map fun i => (ws.getD (i / 4) 0).extractLsb' (byteShift o i) 8 := by
  cases o <;> rfl

/-- The four bytes of a word do not overlap: each is read back at its own place, bit by bit. -/
theorem packedWord_extract (o : ByteOrder) (s : List Byte) (i : Nat) {k : Nat} (hk : k < 4) :
    (packedWord o s i).extractLsb' (byteShift o k) 8 = s.getD (i + k) 0 := by
  apply BitVec.eq_of_getLsbD_eq
  intro j hj
  cases o <;> interval_cases k <;>
    simp (disch := omega) [packedWord, byteShift, wordBE, wordLE, byteAt, hj, BitVec.getLsbD_of_ge, decide_eq_true,
      decide_eq_false]

theorem pack_getD (o : ByteOrder) (s : List Byte) {j : Nat} (hj : j < (s.length + 3) / 4) :
    (pack o s).getD j 0 = packedWord o s (4 * j) := by
  rw [List.getD_eq_getElem _ _ (by simpa using hj)]
  simp [pack_eq]

theorem unpack_getD (o : ByteOrder) (ws : List Word) {n i : Nat} (hi : i < n) :
    (unpack o ws n).getD i 0 = (ws.getD (i / 4) 0).extractLsb' (byteShift o i) 8 := by
  rw [List.getD_eq_getElem _ _ (by simpa using hi)]
  simp [unpack_eq]

/-- R73, R74: byte `i` of a string, and the zero fill of its last word, stand at their place in the packed words. -/
theorem pack_extract (o : ByteOrder) (s : List Byte) {i : Nat} (hi : i < 4 * ((s.length + 3) / 4)) :
    ((pack o s).getD (i / 4) 0).extractLsb' (byteShift o i) 8 = s.getD i 0 := by
  rw [pack_getD o s (by omega), ← byteShift_mod, packedWord_extract o s _ (Nat.mod_lt i (by decide)), Nat.div_add_mod]

/-- R73, R74: unpacking gives a packed string back. -/
theorem unpack_pack (o : ByteOrder) (s : List Byte) : unpack o (pack o s) s.length = s := by
  refine List.ext_getElem (unpack_length o _ _) fun i hi hs => ?_
  rw [← List.getD_eq_getElem _ 0 hi, ← List.getD_eq_getElem _ 0 hs, unpack_getD o _ hs, pack_extract o s (by omega)]

/-- A byte of a word as a number. -/
theorem toNat_extract_byte (w : Word) (k : Nat) : (w.extractLsb' k 8).toNat = w.toNat / 2 ^ k % 256 := by
  rw [BitVec.extractLsb'_toNat, Nat.shiftRight_eq_div_pow]

theorem pack_toNat (o : ByteOrder) (s : List Byte) {i : Nat} (hi : i < 4 * ((s.length + 3) / 4)) :
    ((pack o s).getD (i / 4) 0).toNat / 2 ^ byteShift o i % 256 = (s.getD i 0).toNat := by
  rw [← toNat_extract_byte, pack_extract o s hi]

theorem unpack_toNat (o : ByteOrder) (ws : List Word) {n i : Nat} (hi : i < n) :
    ((unpack o ws n).getD i 0).toNat = (ws.getD (i / 4) 0).toNat / 2 ^ byteShift o i % 256 := by
  rw [unpack_getD o ws hi, toNat_extract_byte]

/-- Settles O15: each clause is a fact about both orders, taken at the big-endian and at the little-endian one. -/
theorem packedBytes : Obligations.PackedBytes := fun b =>
  ⟨pack_length .be b, pack_length .le b,
   fun _ hi => ⟨pack_toNat .be b hi, pack_toNat .le b hi⟩,
   unpack_pack .be b, unpack_pack .le b,
   fun ws n => ⟨unpack_length .be ws n, unpack_length .le ws n,
     fun _ hi => ⟨unpack_toNat .be ws hi, unpack_toNat .le ws hi⟩⟩,
   fun hl order => stringWords_of_lt order b hl⟩

/-! ### What a step takes and writes -/

/-- R77, R78: the channels and the parameters after a command that took its command word and the operand words `ops`, and
raised an error or completed. -/
structure TookWords (ops : List Word) (s t : State) : Prop where
  cmd : t.cmd = s.cmd.tail
  din : s.din = ops ++ t.din
  params : t.params = s.params
  results : ∃ out, t.dout = s.dout ++ out ∧ (t.status ≠ 0x00 → out = [])

section
variable {ops rest : List Word} {s : State}

/-- R305: an error writes no result, whatever the command did to the context registers. -/
theorem TookWords.raise (hd : s.din = ops ++ rest) (b p : Bool) (c : Option Context) (k : CommandClass) (e : Error) :
    TookWords ops s (State.raise k e { s.take rest with bound := b, poisoned := p, ctx := c }) where
  cmd := rfl
  din := hd
  params := rfl
  results := ⟨[], (List.append_nil _).symm, fun _ => rfl⟩

/-- R78: a command that completes appends its results and leaves `STATUS` at 0. -/
theorem TookWords.complete (hd : s.din = ops ++ rest) (b p : Bool) (c : Option Context) (out : List Word) :
    TookWords ops s (State.complete out { s.take rest with bound := b, poisoned := p, ctx := c }) where
  cmd := rfl
  din := hd
  params := rfl
  results := ⟨out, rfl, fun h => absurd rfl h⟩

end

/-- R77: a command waits, or takes its words. -/
theorem exec_eq_or_tookWords {i : Instr} {s t : State} (h : exec i s = .next t) : t = s ∨ ∃ ops, TookWords ops s t := by
  obtain ⟨rfl, -⟩ | ⟨ops, rest, hd, h⟩ := exec_effect h
  · exact .inl rfl
  · refine .inr ⟨ops, ?_⟩
    obtain ⟨-, e, -, rfl, -⟩ | ⟨-, out, rfl, -⟩ | ⟨-, -, e, -, -, rfl, -⟩ | ⟨-, -, c, c', out, -, -, rfl, -⟩ |
      ⟨_, _, _, _, -, e, -, -, rfl, -⟩ | ⟨_, _, _, _, c', -, rfl, -⟩ := h
    · exact .raise hd s.bound s.poisoned s.ctx _ e
    · exact .complete hd s.bound s.poisoned s.ctx out
    · exact .raise hd s.bound s.poisoned s.ctx _ e
    · exact .complete hd s.bound s.poisoned c' out
    · exact .raise hd false s.poisoned s.ctx _ e
    · exact .complete hd true false c' []

/-- R305: an illegal word takes no operand. -/
theorem State.rejectCommand_tookWords (s : State) (w : Word) : TookWords [] s (s.rejectCommand w) :=
  .raise rfl s.bound s.poisoned s.ctx _ .illegalCommand

/-- Settles O6: a step that does not leave the state alone rejects its word or runs a command that took its words. -/
theorem commandTakesItsWords : Obligations.CommandTakesItsWords := by
  intro s t h
  obtain ⟨-, rfl⟩ | ⟨w, rest, r, hcmd, hw, rfl⟩ | ⟨w, rest, i, hcmd, hw, hexec⟩ := step_cases h
  · exact .inl rfl
  · obtain ⟨htail, hdin, hparams, out, hdout, hout⟩ := s.rejectCommand_tookWords w
    exact .inr ⟨w, [], out, by rw [htail, hcmd, List.tail_cons], hdin, hdout, hparams, hout, fun _ => rfl⟩
  · refine (exec_eq_or_tookWords hexec).imp_right fun ⟨ops, htail, hdin, hparams, out, hdout, hout⟩ => ?_
    exact ⟨w, ops, out, by rw [htail, hcmd, List.tail_cons], hdin, hdout, hparams, hout, by simp [hw]⟩

/-! ### The dispatch of a step -/

/-- R80: a step runs the command of a legal word. -/
theorem step_of_instr {s : State} {w : Word} {rest : List Word} {i : Instr} (hcmd : s.cmd = w :: rest)
    (hw : decode w = .instr i) : step s = exec i s := by
  simp only [step, hcmd, hw]

/-- R340: with no command word on `CMD` the engine is idle. -/
theorem step_of_cmd_nil {s : State} (hcmd : s.cmd = []) : step s = .next s := by
  simp only [step, hcmd]

/-- Settles O5. -/
theorem stepRunsDecodedCommand : Obligations.StepRunsDecodedCommand :=
  ⟨fun _ _ _ _ => step_of_instr, fun _ => step_of_cmd_nil⟩

end Sys2Proof.Machine
end

section
/-! PROOFS. The command word (spec 30_encoding.md): decoding and encoding are inverse to each other on the legal words, and
the illegal words are those of R93.  Each is said of the fields first, opcode by opcode, and then of the word. -/

namespace Sys2Proof

/-! ### Encoding, then decoding -/

/-- R93 (b), (c): a word whose reserved bits and unused fields are zero is what its opcode's line says. -/
theorem Fields.only_of_zero {x : Fields} {u : Uses} (d : Decoded) (hr : x.rsv = 0) (hu : x.unusedZero u = true) :
    x.only u d = d := by
  simp [Fields.only, hr, hu]

theorem ifAdmitted_of_wellFormed {i : Instr} (r : Illegal) (h : i.wellFormed = true) : ifAdmitted i r = .instr i :=
  if_pos h

/-- R94, R95: `VAR` names the variant whose code it holds. -/
theorem Fields.withVariant_of_code {x : Fields} {mk : Variant → Instr} {v : Variant} (hx : x.var = v.code)
    (h : (mk v).wellFormed = true) : x.withVariant mk = .instr (mk v) := by
  simp only [Fields.withVariant, hx, Variant.ofCode_code, ifAdmitted_of_wellFormed _ h]

@[simp] theorem Variant.ofCode_variantField (v : Option Variant) : Variant.ofCode (variantField v) = v := by
  cases v with
  | none => rfl
  | some v => exact Variant.ofCode_code v

/-- R103: the fields of a command's word decode to the command. -/
theorem decodeFields_fields {i : Instr} (h : i.wellFormed = true) : decodeFields i.fields = .instr i := by
  cases i with
  | init v p f c =>
    refine (Fields.only_of_zero (u := usesInit) _ rfl rfl).trans ?_
    simp [Instr.fields, ifAdmitted_of_wellFormed _ h]
  | sha256Finalize | sha512Finalize | sha3Absorb =>
    exact (Fields.only_of_zero (u := usesVar) _ rfl rfl).trans (Fields.withVariant_of_code rfl h)
  | sha3Finalize v d =>
    exact (Fields.only_of_zero (u := usesVarImm) _ rfl rfl).trans (Fields.withVariant_of_code rfl h)
  | rotl32 | rotr32 | shr32 | rotl64 | rotr64 | shr64 =>
    exact (Fields.only_of_zero (u := usesN) _ rfl rfl).trans (ifAdmitted_of_wellFormed _ h)
  | _ => rfl

/-- Settles O1. -/
theorem encodedCommandDecodes : Obligations.EncodedCommandDecodes := by
  intro i h
  rw [decode, encode, Fields.ofWord_toWord, decodeFields_fields h]

/-! ### Decoding, then encoding -/

/-- The fields an opcode uses, every other field zero. -/
def Fields.keep (x : Fields) (u : Uses) (opc : BitVec 8) : Fields where
  opc := opc
  var := bif u.var then x.var else 0
  n := bif u.n then x.n else 0
  p := bif u.p then x.p else false
  f := bif u.f then x.f else false
  s := bif u.s then x.s else false
  rsv := 0
  imm8 := bif u.imm8 then x.imm8 else 0

/-- A field that is used, or zero, stays as it was where it is zeroed unless used. -/
theorem cond_eq_of_or_beq {α : Type} [BEq α] [LawfulBEq α] {u : Bool} {a zero : α} (h : (u || a == zero) = true) :
    (bif u then a else zero) = a := by
  cases u
  · exact (eq_of_beq h).symm
  · rfl

/-- R93 (b), (c): a word that decodes has nothing in it but its opcode and the fields the opcode uses. -/
theorem Fields.keep_of_only {x : Fields} {u : Uses} {d : Decoded} {i : Instr} {k : Nat} (hk : x.opc.toNat = k)
    (h : x.only u d = .instr i) : x.keep u (BitVec.ofNat 8 k) = x ∧ d = .instr i := by
  obtain ⟨hrsv, hzero, hd⟩ := Fields.only_instr h
  simp only [Fields.unusedZero, Bool.and_eq_true, ← beq_false] at hzero
  obtain ⟨⟨⟨⟨⟨hvar, hn⟩, hp⟩, hf⟩, hs⟩, himm8⟩ := hzero
  refine ⟨?_, hd⟩
  rw [Fields.keep, ← hk, BitVec.ofNat_toNat, BitVec.setWidth_eq, cond_eq_of_or_beq hvar, cond_eq_of_or_beq hn,
    cond_eq_of_or_beq hp, cond_eq_of_or_beq hf, cond_eq_of_or_beq hs, cond_eq_of_or_beq himm8, ← hrsv]

@[simp] theorem variantField_ofCode (c : BitVec 4) : variantField (Variant.ofCode c) = c := by
  revert c; decide

/-- R100, R103: fields that decode are those of the command's word, and the command is well formed. -/
theorem wellFormed_and_fields_eq {x : Fields} {i : Instr} (h : decodeFields x = .instr i) :
    i.wellFormed = true ∧ i.fields = x := by
  unfold decodeFields at h
  split at h
  -- INIT
  case h_1 hk =>
    obtain ⟨hx, hd⟩ := Fields.keep_of_only hk h
    obtain ⟨hw, rfl⟩ := ifAdmitted_instr hd
    exact ⟨hw, by rw [Instr.fields, variantField_ofCode]; exact hx⟩
  -- the opcodes of the test port that use `VAR`
  case h_10 hk | h_12 hk | h_14 hk | h_15 hk =>
    obtain ⟨hx, hd⟩ := Fields.keep_of_only hk h
    obtain ⟨v, hv, hw, rfl⟩ := Fields.withVariant_instr hd
    exact ⟨hw, by rw [Instr.fields, hv]; exact hx⟩
  -- those that use `N`
  case h_20 hk | h_21 hk | h_22 hk | h_33 hk | h_34 hk | h_35 hk =>
    obtain ⟨hx, hd⟩ := Fields.keep_of_only hk h
    obtain ⟨hw, rfl⟩ := ifAdmitted_instr hd
    exact ⟨hw, hx⟩
  -- the unassigned opcodes
  case h_47 => cases h
  -- every other opcode uses at most `P`, and admits each value of it
  all_goals
    obtain ⟨hx, hd⟩ := Fields.keep_of_only ‹_› h
    cases hd
    exact ⟨rfl, hx⟩

/-- Settles O2. -/
theorem legalWordIsItsCommandsWord : Obligations.LegalWordIsItsCommandsWord := by
  intro w i h
  obtain ⟨hw, hf⟩ := wellFormed_and_fields_eq h
  exact ⟨hw, by rw [encode, hf, Fields.toWord_ofWord]⟩

/-! ### Illegal words -/

/-- R93 (c): the fields an opcode does not use, as numbers. -/
theorem Fields.unusedZero_eq_false {x : Fields} {u : Uses} :
    x.unusedZero u = false ↔
      (u.var = false ∧ x.var.toNat ≠ 0) ∨ (u.n = false ∧ x.n.toNat ≠ 0) ∨ (u.p = false ∧ x.p.toNat ≠ 0) ∨
      (u.f = false ∧ x.f.toNat ≠ 0) ∨ (u.s = false ∧ x.s.toNat ≠ 0) ∨ (u.imm8 = false ∧ x.imm8.toNat ≠ 0) := by
  have hbool : ∀ b : Bool, (!b) = false ↔ b.toNat ≠ 0 := by decide
  simp only [Fields.unusedZero, Bool.and_eq_false_iff, Bool.or_eq_false_iff, beq_eq_false_iff_ne, hbool, or_assoc,
    ne_eq, ← BitVec.toNat_inj, BitVec.ofNat_eq_ofNat, BitVec.toNat_ofNat, Nat.zero_mod]

/-- R93 (b), (c): an opcode's word is illegal for its reserved bits, for an unused field, or for what its line says. -/
theorem Fields.only_eq_illegal {x : Fields} {u : Uses} {d : Decoded} :
    (∃ r, x.only u d = .illegal r) ↔ x.rsv.toNat ≠ 0 ∨ x.unusedZero u = false ∨ ∃ r, d = .illegal r := by
  have hrsv : x.rsv.toNat = 0 ↔ x.rsv = 0#3 := by simp [← BitVec.toNat_inj]
  by_cases hr : x.rsv = 0#3 <;> cases hu : x.unusedZero u <;> simp [Fields.only, hrsv, hr, hu]

theorem ifAdmitted_eq_illegal {i : Instr} {r : Illegal} :
    (∃ r', ifAdmitted i r = .illegal r') ↔ i.wellFormed = false := by
  cases h : i.wellFormed <;> simp [ifAdmitted, h]

/-- R94, R95: `VAR` names no variant, or one that is not admitted. -/
theorem Fields.withVariant_eq_illegal {x : Fields} {mk : Variant → Instr} :
    (∃ r, x.withVariant mk = .illegal r) ↔ ((Variant.ofCode x.var).any fun v => (mk v).wellFormed) = false := by
  cases h : Variant.ofCode x.var <;> simp [Fields.withVariant, h, ifAdmitted_eq_illegal]

/-! R95 to R97, R93 (e): the admitted values of each field as numbers. -/

theorem rotl32_illformed (n : BitVec 6) : (Instr.rotl32 n).wellFormed = false ↔ n.toNat ∉ [1, 5, 30] := by
  revert n; decide

theorem rotr32_illformed (n : BitVec 6) :
    (Instr.rotr32 n).wellFormed = false ↔ n.toNat ∉ [2, 6, 7, 11, 13, 17, 18, 19, 22, 25] := by
  revert n; decide

theorem shr32_illformed (n : BitVec 6) : (Instr.shr32 n).wellFormed = false ↔ n.toNat ∉ [3, 10] := by
  revert n; decide

theorem rotl64_illformed (n : BitVec 6) :
    (Instr.rotl64 n).wellFormed = false ↔
      n.toNat ∉ [0, 1, 2, 3, 6, 8, 10, 14, 15, 18, 20, 21, 25, 27, 28, 36, 39, 41, 43, 44, 45, 55, 56, 61, 62] := by
  revert n; decide

theorem rotr64_illformed (n : BitVec 6) :
    (Instr.rotr64 n).wellFormed = false ↔ n.toNat ∉ [1, 8, 14, 18, 19, 28, 34, 39, 41, 61] := by
  revert n; decide

theorem shr64_illformed (n : BitVec 6) : (Instr.shr64 n).wellFormed = false ↔ n.toNat ∉ [6, 7] := by
  revert n; decide

theorem sha256Finalize_illformed (c : BitVec 4) :
    ((Variant.ofCode c).any fun v => (Instr.sha256Finalize v).wellFormed) = false ↔ c.toNat ∉ [1, 2] := by
  revert c; decide

theorem sha512Finalize_illformed (c : BitVec 4) :
    ((Variant.ofCode c).any fun v => (Instr.sha512Finalize v).wellFormed) = false ↔ c.toNat ∉ [3, 4] := by
  revert c; decide

theorem sha3Absorb_illformed (c : BitVec 4) :
    ((Variant.ofCode c).any fun v => (Instr.sha3Absorb v).wellFormed) = false ↔ ¬(5 ≤ c.toNat ∧ c.toNat ≤ 14) := by
  revert c; decide

theorem sha3Finalize_illformed (c : BitVec 4) (d : Byte) :
    ((Variant.ofCode c).any fun v => (Instr.sha3Finalize v d).wellFormed) = false ↔
      ¬(5 ≤ c.toNat ∧ c.toNat ≤ 14) ∨ d.toNat ∉ [0x06, 0x1F, 0x04] := by
  have hd : sha3Delimiters.contains d = false ↔ d.toNat ∉ [0x06, 0x1F, 0x04] := by
    simp [sha3Delimiters, ← BitVec.toNat_inj]
  rw [← sha3Absorb_illformed, ← hd]
  cases Variant.ofCode c <;> simp [Instr.wellFormed, imp_iff_not_or]

/-- R93 (e): INIT of a variant that takes no strings, the unrecognized one included. -/
theorem init_illformed (c : BitVec 4) (p f s : Bool) :
    (Instr.init (Variant.ofCode c) p f s).wellFormed = false ↔
      (f.toNat = 1 ∨ s.toNat = 1) ∧ c.toNat ∉ [11, 12, 13, 14] := by
  revert c p f s; decide

/-- The cases (a) to (e) of R93, of the fields as numbers; `p`, `f` and `c` are the flags. -/
def IllegalFields (opc var n p f c rsv imm8 : Nat) : Prop :=
  (opc = 0x00 ∨ (0x07 ≤ opc ∧ opc ≤ 0x0F) ∨ (0x1D ≤ opc ∧ opc ≤ 0x1F) ∨ (0x2D ≤ opc ∧ opc ≤ 0x2F) ∨ 0x3E ≤ opc) ∨
  rsv ≠ 0 ∨
  (var ≠ 0 ∧ opc ∉ [0x01, 0x13, 0x15, 0x17, 0x18]) ∨ (n ≠ 0 ∧ opc ∉ [0x20, 0x21, 0x22, 0x30, 0x31, 0x32]) ∨
  (p ≠ 0 ∧ opc ∉ [0x01, 0x04, 0x06]) ∨ (f ≠ 0 ∧ opc ≠ 0x01) ∨ (c ≠ 0 ∧ opc ≠ 0x01) ∨ (imm8 ≠ 0 ∧ opc ≠ 0x18) ∨
  (opc = 0x13 ∧ var ∉ [1, 2]) ∨ (opc = 0x15 ∧ var ∉ [3, 4]) ∨ (opc ∈ [0x17, 0x18] ∧ ¬(5 ≤ var ∧ var ≤ 14)) ∨
  (opc = 0x20 ∧ n ∉ [1, 5, 30]) ∨ (opc = 0x21 ∧ n ∉ [2, 6, 7, 11, 13, 17, 18, 19, 22, 25]) ∨
  (opc = 0x22 ∧ n ∉ [3, 10]) ∨
  (opc = 0x30 ∧ n ∉ [0, 1, 2, 3, 6, 8, 10, 14, 15, 18, 20, 21, 25, 27, 28, 36, 39, 41, 43, 44, 45, 55, 56, 61, 62]) ∨
  (opc = 0x31 ∧ n ∉ [1, 8, 14, 18, 19, 28, 34, 39, 41, 61]) ∨ (opc = 0x32 ∧ n ∉ [6, 7]) ∨
  (opc = 0x18 ∧ imm8 ∉ [0x06, 0x1F, 0x04]) ∨
  (opc = 0x01 ∧ (f = 1 ∨ c = 1) ∧ var ∉ [11, 12, 13, 14])

/-- R93, opcode by opcode: with the opcode known, a clause of R93 either does not apply or is one of the reasons its line
of the map gives. -/
theorem decodeFields_eq_illegal (x : Fields) :
    (∃ r, decodeFields x = .illegal r) ↔
      IllegalFields x.opc.toNat x.var.toNat x.n.toNat x.p.toNat x.f.toNat x.s.toNat x.rsv.toNat x.imm8.toNat := by
  unfold decodeFields
  split
  -- the unassigned opcodes
  case h_47 =>
    have hopc := x.opc.isLt
    refine iff_of_true ⟨_, rfl⟩ (.inl ?_)
    simp only [imp_false] at *
    omega
  all_goals rw [Fields.only_eq_illegal, Fields.unusedZero_eq_false, IllegalFields, ‹x.opc.toNat = _›]
  -- INIT
  case h_1 =>
    rw [ifAdmitted_eq_illegal, init_illformed]
    simp [usesInit, usesNone, or_assoc]
  -- the opcodes of the test port that use `VAR`
  case h_10 | h_12 | h_14 | h_15 =>
    rw [Fields.withVariant_eq_illegal]
    simp [usesVar, usesVarImm, usesNone, or_assoc, sha256Finalize_illformed, sha512Finalize_illformed,
      sha3Absorb_illformed, sha3Finalize_illformed]
  -- those that use `N`
  case h_20 | h_21 | h_22 | h_33 | h_34 | h_35 =>
    rw [ifAdmitted_eq_illegal]
    simp [usesN, usesNone, or_assoc, rotl32_illformed, rotr32_illformed, shr32_illformed, rotl64_illformed,
      rotr64_illformed, shr64_illformed]
  -- every other opcode uses at most `P`, and admits each value of it
  all_goals simp [usesNone, usesP]

/-- R91: a field of more than one bit as a number. -/
theorem toNat_extractLsb' (w : Word) (k n : Nat) : (w.extractLsb' k n).toNat = w.toNat / 2 ^ k % 2 ^ n := by
  rw [BitVec.extractLsb'_toNat, Nat.shiftRight_eq_div_pow]

/-- R91: a field of one bit as a number. -/
theorem toNat_getLsbD (w : Word) (k : Nat) : (w.getLsbD k).toNat = w.toNat / 2 ^ k % 2 := by
  rw [BitVec.getLsbD, Nat.toNat_testBit]

theorem decode_eq_illegal (w : Word) :
    (∃ r, decode w = .illegal r) ↔
      IllegalFields (w.toNat / 2 ^ 24) (w.toNat / 2 ^ 20 % 16) (w.toNat / 2 ^ 14 % 64) (w.toNat / 2 ^ 13 % 2)
        (w.toNat / 2 ^ 12 % 2) (w.toNat / 2 ^ 11 % 2) (w.toNat / 2 ^ 8 % 8) (w.toNat % 256) := by
  have hopc : w.toNat / 16777216 % 256 = w.toNat / 16777216 := by have := w.isLt; omega
  rw [decode, decodeFields_eq_illegal]
  simp only [Fields.ofWord, toNat_extractLsb', toNat_getLsbD, Nat.reducePow, Nat.div_one, hopc]

end Sys2Proof

namespace Sys2Proof.Machine

/-- R93, R305: a step on an illegal word drops the word and sets `STATUS`; it takes no operand. -/
theorem step_of_illegal {s : State} {w : Word} {rest : List Word} {r : Illegal} (hcmd : s.cmd = w :: rest)
    (hw : decode w = .illegal r) : step s = .next { s with cmd := rest, status := 0x40 } := by
  simp only [step, hcmd, hw, State.rejectCommand_eq, List.tail_cons]

/-- R180: INIT of the unrecognized variant takes its operands and raises `INVALID_VARIANT`. -/
theorem exec_init_none {p f c : Bool} {s t : State} (h : exec (.init none p f c) s = .next t) (ht : t ≠ s) :
    t.status = 0x01 := by
  have h' : constructCommand (dinInit p f c) (buildContext none) s = .next t := h
  obtain ⟨-, rfl⟩ | ⟨_, _, e, -, he, rfl⟩ | ⟨_, _, _, -, hb, -⟩ := constructCommand_cases h'
  · exact absurd rfl ht
  · cases he; rfl
  · cases hb

/-- R94: both legal INIT words whose `VAR` is 15. -/
theorem decode_init_none {w : Word} (h : w = 0x01F00000 ∨ w = 0x01F02000) :
    ∃ p, decode w = .instr (.init none p false false) := by
  obtain rfl | rfl := h
  · exact ⟨false, rfl⟩
  · exact ⟨true, rfl⟩

/-- Settles O3. -/
theorem illegalWords : Obligations.IllegalWords := by
  refine ⟨decode_eq_illegal, fun s w rest hcmd ⟨r, hr⟩ => step_of_illegal hcmd hr, fun s t w rest hcmd hw h ht => ?_⟩
  obtain ⟨p, hp⟩ := decode_init_none hw
  exact exec_init_none ((step_of_instr hcmd hp).symm.trans h) (State.ne_of_cmd_eq_cons (ht ▸ hcmd))

/-- Settles O4, each word by running the decoder on it. -/
theorem exampleWords : Obligations.ExampleWords := by
  unfold Obligations.ExampleWords
  decide

end Sys2Proof.Machine
end

section
/-! PROOFS. What a digest is a function of (spec 42_engine_hmac.md R171, R172, R182 to R187): the finalize of each family may
take a whole block off the front of its message and compress it first, so the digest of a context is the digest of all the
bytes it absorbed, however they came; and the model's finalize is the digest the statements spell out family by family. -/

namespace Sys2Proof.Machine

open Sys2Proof.Claims

/-! ### Packing whole words -/

/-- R73, R74: a packed word is a function of its four bytes. -/
theorem packedWord_congr (o : ByteOrder) {s t : List Byte} {i j : Nat}
    (h : ∀ k < 4, s.getD (i + k) 0 = t.getD (j + k) 0) : packedWord o s i = packedWord o t j := by
  have hbyte : ∀ k < 4, byteAt s (i + k) = byteAt t (j + k) := fun k hk => congrArg (BitVec.setWidth 32) (h k hk)
  have h0 := hbyte 0 (by omega)
  have h1 := hbyte 1 (by omega)
  have h2 := hbyte 2 (by omega)
  have h3 := hbyte 3 (by omega)
  cases o <;> simp_all only [packedWord, wordBE, wordLE, Nat.add_zero]

/-- R73, R74: a string of whole words and a string after it are packed one after the other. -/
theorem pack_append (o : ByteOrder) {b : List Byte} {n : Nat} (hb : b.length = 4 * n) (m : List Byte) :
    pack o (b ++ m) = pack o b ++ pack o m := by
  have hlen : ((b ++ m).length + 3) / 4 = (b.length + 3) / 4 + (m.length + 3) / 4 := by
    rw [List.length_append]
    omega
  rw [pack_eq, pack_eq, pack_eq, hlen, List.range_add, List.map_append, List.map_map]
  congr 1
  · refine List.map_congr_left fun j hj => packedWord_congr o fun k hk => ?_
    have hj := List.mem_range.mp hj
    rw [List.getD_append _ _ _ _ (by omega)]
  · refine List.map_congr_left fun j _ => packedWord_congr o fun k hk => ?_
    have hi : 4 * ((b.length + 3) / 4 + j) + k = b.length + (4 * j + k) := by omega
    rw [hi, List.getD_append_right _ _ _ _ (by omega), Nat.add_sub_cancel_left]

/-! ### A block taken off the front of a message -/

/-- One block in front is folded first. -/
theorem foldBlocks_succ_append {σ α : Type} {size : Nat} (f : σ → List α → σ) (k : Nat) (h : σ) {b : List α}
    (hb : b.length = size) (l : List α) : foldBlocks size f (k + 1) h (b ++ l) = foldBlocks size f k (f h b) l := by
  rw [foldBlocks, List.take_left' hb, List.drop_left' hb]

theorem extendTo_append {α : Type} (zero : α) {n : Nat} {b : List α} (hb : b.length = n) (k : Nat) (l : List α) :
    extendTo zero (n + k) (b ++ l) = b ++ extendTo zero k l := by
  rw [extendTo, extendTo, List.length_append, hb, Nat.add_sub_add_left, List.append_assoc]

theorem modify_append_add {α : Type} {n : Nat} {b : List α} (hb : b.length = n) (l : List α) (i : Nat) (f : α → α) :
    (b ++ l).modify (n + i) f = b ++ l.modify i f := by
  subst hb
  exact List.modifyTailIdx_add _ _ _ _

theorem set_append_add {α : Type} {n : Nat} {b : List α} (hb : b.length = n) (l : List α) (i : Nat) (a : α) :
    (b ++ l).set (n + i) a = b ++ l.set i a := by
  rw [List.set_append_right _ _ (by omega), hb, Nat.add_sub_cancel_left]

/-- R215, R247: whole words before the message stand before its padded words. -/
theorem withOneBit_append {b : List Byte} {n : Nat} (hb : b.length = 4 * n) (m : List Byte) (k : Nat) :
    withOneBit (b ++ m) (n + k) = packBE b ++ withOneBit m k := by
  have hpack : packBE (b ++ m) = packBE b ++ packBE m := pack_append .be hb m
  have hpb : (packBE b).length = n := (pack_length .be b).trans (by omega)
  have hword : (8 * (b ++ m).length) >>> 5 = n + (8 * m.length) >>> 5 := by
    simp only [Nat.shiftRight_eq_div_pow, List.length_append]
    omega
  have hbit : 8 * (b ++ m).length % 32 = 8 * m.length % 32 := by
    rw [List.length_append]
    omega
  rw [withOneBit, withOneBit, hpack, hword, hbit, extendTo_append _ hpb, modify_append_add hpb]

/-- R215: a block before the message moves the end of the padded buffer by a block. -/
theorem padOff512_add (r : Nat) : padOff512 (512 + r) = 16 + padOff512 r := by
  simp only [padOff512, Nat.shiftRight_eq_div_pow]
  omega

theorem padOff1024_add (r : Nat) : padOff1024 (1024 + r) = 32 + padOff1024 r := by
  simp only [padOff1024, Nat.shiftRight_eq_div_pow]
  omega

/-- R215, R216: a block before the message stands before its padded buffer, whose length field counts the block either
way. -/
theorem padBuffer512_append {b : List Byte} (hb : b.length = 64) (m : List Byte) (p : Nat) :
    padBuffer512 (b ++ m) p = packBE b ++ padBuffer512 m (p + 512) := by
  have hpb : (packBE b).length = 16 := (pack_length .be b).trans (by rw [hb])
  have hlen : 8 * (b ++ m).length = 512 + 8 * m.length := by
    rw [List.length_append, hb]
    omega
  have hoff : 16 + padOff512 (8 * m.length) - 1 = 16 + (padOff512 (8 * m.length) - 1) := by
    have : 15 ≤ padOff512 (8 * m.length) := Nat.le_add_left _ _
    omega
  have htotal : 512 + 8 * m.length + p = 8 * m.length + (p + 512) := by omega
  simp only [padBuffer512, hlen, padOff512_add, hoff, htotal, Nat.add_assoc 16, withOneBit_append (n := 16) hb,
    set_append_add hpb]

/-- R247: the same in F_SHA512. -/
theorem padBuffer1024_append {b : List Byte} (hb : b.length = 128) (m : List Byte) (p : Nat) :
    padBuffer1024 (b ++ m) p = packBE b ++ padBuffer1024 m (p + 1024) := by
  have hpb : (packBE b).length = 32 := (pack_length .be b).trans (by rw [hb])
  have hlen : 8 * (b ++ m).length = 1024 + 8 * m.length := by
    rw [List.length_append, hb]
    omega
  have hoff : ∀ k ≤ 3, 32 + padOff1024 (8 * m.length) - k = 32 + (padOff1024 (8 * m.length) - k) := fun k hk => by
    have : 31 ≤ padOff1024 (8 * m.length) := Nat.le_add_left _ _
    omega
  have htotal : 1024 + 8 * m.length + p = 8 * m.length + (p + 1024) := by omega
  simp only [padBuffer1024, hlen, padOff1024_add, hoff 1 (by decide), hoff 2 (by decide), hoff 3 (by decide), htotal,
    Nat.add_assoc 32, withOneBit_append (n := 32) hb, set_append_add hpb]

/-! ### The finalize of each family takes a block off the front -/

theorem sha1Finalize_append {b : List Byte} (hb : b.length = 64) (m : List Byte) (p : Nat) (h : Five Word) :
    sha1Finalize (b ++ m) p h = sha1Finalize m (p + 512) (sha1Compress h (packBE b)) := by
  have hpb : (packBE b).length = 16 := (pack_length .be b).trans (by rw [hb])
  have hcount : (padOff512 (8 * (b ++ m).length) + 1) / 16 = (padOff512 (8 * m.length) + 1) / 16 + 1 := by
    rw [List.length_append, hb, Nat.mul_add, padOff512_add]
    omega
  rw [sha1Finalize, sha1Finalize, hcount, padBuffer512_append hb, foldBlocks_succ_append _ _ _ hpb]

theorem sha256Finalize_append {b : List Byte} (hb : b.length = 64) (m : List Byte) (p : Nat) (h : Eight Word) :
    sha256Finalize (b ++ m) p h = sha256Finalize m (p + 512) (sha256Compress h (packBE b)) := by
  have hpb : (packBE b).length = 16 := (pack_length .be b).trans (by rw [hb])
  have hcount : (padOff512 (8 * (b ++ m).length) + 1) / 16 = (padOff512 (8 * m.length) + 1) / 16 + 1 := by
    rw [List.length_append, hb, Nat.mul_add, padOff512_add]
    omega
  rw [sha256Finalize, sha256Finalize, hcount, padBuffer512_append hb, foldBlocks_succ_append _ _ _ hpb]

theorem sha512Finalize_append {b : List Byte} (hb : b.length = 128) (m : List Byte) (p : Nat) (h : Eight DWord) :
    sha512Finalize (b ++ m) p h = sha512Finalize m (p + 1024) (sha512Compress h (packBE b)) := by
  have hpb : (packBE b).length = 32 := (pack_length .be b).trans (by rw [hb])
  have hcount : (padOff1024 (8 * (b ++ m).length) + 1) / 32 = (padOff1024 (8 * m.length) + 1) / 32 + 1 := by
    rw [List.length_append, hb, Nat.mul_add, padOff1024_add]
    omega
  rw [sha512Finalize, sha512Finalize, hcount, padBuffer1024_append hb, foldBlocks_succ_append _ _ _ hpb]

/-- R276: the sponge absorbs the block first. -/
theorem sha3Finalize_append {b : List Byte} {n : Nat} (hn : 0 < n) (hb : b.length = 4 * n) (m : List Byte) (a : Lanes)
    (d : Byte) (ob : Nat) :
    sha3Finalize a (b ++ m) d (32 * n) ob = sha3Finalize (absorb (32 * n) a (packLE b)) m d (32 * n) ob := by
  have hpack : packLE (b ++ m) = packLE b ++ packLE m := pack_append .le hb m
  have hpb : (packLE b).length = n := (pack_length .le b).trans (by omega)
  have hlen : 8 * (b ++ m).length = 8 * m.length + 32 * n := by
    rw [List.length_append, hb]
    omega
  have hfull : (8 * m.length + 32 * n) / (32 * n) = 8 * m.length / (32 * n) + 1 :=
    Nat.add_div_right _ (by omega)
  have hleft : ∀ k, 8 * m.length + 32 * n - (k + 1) * (32 * n) = 8 * m.length - k * (32 * n) := fun k => by
    rw [Nat.succ_mul k, Nat.add_sub_add_right]
  have hbw : 32 * n / 32 = n := Nat.mul_div_cancel_left _ (by decide)
  have hdrop : ∀ k, (packLE b ++ packLE m).drop ((k + 1) * n) = (packLE m).drop (k * n) := fun k => by
    rw [Nat.succ_mul, Nat.add_comm, List.drop_append, List.drop_of_length_le (by omega)]
    simp [hpb]
  simp only [sha3Finalize, hlen, hpack, hfull, hleft, hbw, hdrop, foldBlocks_succ_append _ _ _ hpb]

theorem eq_of_family_sha1 {v : Variant} (h : family v = .sha1) : v = .sha1 := by
  revert h; cases v <;> decide

theorem eq_of_family_sha256 {v : Variant} (h : family v = .sha256) : v = .sha224 ∨ v = .sha256 := by
  revert h; cases v <;> decide

theorem eq_of_family_sha512 {v : Variant} (h : family v = .sha512) : v = .sha384 ∨ v = .sha512 := by
  revert h; cases v <;> decide

/-- R30: a block is a whole number of words, and not empty. -/
theorem blockBits_words (v : Variant) : 32 * (blockBits v / 32) = blockBits v ∧ 0 < blockBits v / 32 := by
  cases v <;> decide

/-- R171, R172: `Finalize` may take a block off the front of its message and compress it first. -/
theorem finalize_append {v : Variant} {h : HashState} (hf : h.family = family v) {b : List Byte}
    (hb : b.length = blockBytes v) (m : List Byte) (p ob : Nat) (d : Byte) :
    finalize v (b ++ m) p h ob d = finalize v m (p + blockBits v) (compress v h b) ob d := by
  cases h with
  | sha1 h =>
    obtain rfl := eq_of_family_sha1 hf.symm
    simp only [finalize, compress, blockBits, sha1Finalize_append hb]
  | sha256 h =>
    obtain rfl | rfl := eq_of_family_sha256 hf.symm <;>
    simp only [finalize, compress, blockBits, sha256Finalize_append hb]
  | sha512 h =>
    obtain rfl | rfl := eq_of_family_sha512 hf.symm <;>
    simp only [finalize, compress, blockBits, sha512Finalize_append hb]
  | sha3 a =>
    obtain ⟨hw, hpos⟩ := blockBits_words v
    have hbits := blockBits_eq v
    have := sha3Finalize_append hpos (b := b) (by omega) m a d ob
    simpa only [finalize, compress, hw] using this

/-- R171, R172: so it may any number of blocks. -/
theorem finalize_foldBlocks {v : Variant} {h : HashState} (hf : h.family = family v) (ob : Nat) (d : Byte) {k : Nat}
    {m : List Byte} (p : Nat) (hk : k * blockBytes v ≤ m.length) :
    finalize v (m.drop (k * blockBytes v)) (p + k * blockBits v) (foldBlocks (blockBytes v) (compress v) k h m) ob d =
      finalize v m p h ob d := by
  induction k generalizing h m p with
  | zero => simp
  | succ k ih =>
    rw [Nat.succ_mul] at hk
    have hb : (m.take (blockBytes v)).length = blockBytes v := List.length_take_of_le (by omega)
    calc
      _ = finalize v ((m.drop (blockBytes v)).drop (k * blockBytes v)) (p + blockBits v + k * blockBits v)
            (foldBlocks (blockBytes v) (compress v) k (compress v h (m.take (blockBytes v))) (m.drop (blockBytes v)))
            ob d := by
        rw [foldBlocks, List.drop_drop, Nat.succ_mul, Nat.succ_mul, Nat.add_assoc p, Nat.add_comm (blockBits v),
          Nat.add_comm (blockBytes v)]
      _ = finalize v (m.drop (blockBytes v)) (p + blockBits v) (compress v h (m.take (blockBytes v))) ob d :=
        ih (by rw [compress_family, hf]) _ (by rw [List.length_drop]; omega)
      _ = finalize v m p h ob d := by
        rw [← finalize_append hf hb, List.take_append_drop]

/-! ### The digest, family by family -/

/-- R73, R74: the first whole words hold the first bytes. -/
theorem take_unpack (o : ByteOrder) (ws : List Word) {k n : Nat} (hk : 4 * k ≤ n) :
    (unpack o ws n).take (4 * k) = unpack o (ws.take k) (4 * k) := by
  rw [unpack_eq, unpack_eq, ← List.map_take, List.take_range, Nat.min_eq_left hk]
  refine List.map_congr_left fun i hi => ?_
  have hi := List.mem_range.mp hi
  rw [List.getD_eq_getElem?_getD, List.getD_eq_getElem?_getD, List.getElem?_take_of_lt (by omega)]

/-- R77: the two words of a 64-bit value. -/
theorem pairs_eq_wordsOf (vs : List DWord) : pairs vs = wordsOf vs := by
  have hpair : ∀ v : DWord, pair v = [hiWord v, loWord v] := fun v => by
    simp only [pair, hiWord, loWord, List.cons.injEq, ← BitVec.toNat_inj, BitVec.extractLsb'_toNat, BitVec.toNat_ofNat,
      Nat.shiftRight_eq_div_pow, Nat.pow_zero, Nat.div_one, and_self]
  rw [pairs, wordsOf, funext hpair]

/-- R172, R219, R235, R239, R246, R250: `Finalize` with the variant's own output length is its family's finalize, cut to
that length. -/
theorem finalize_eq_digestBytes {v : Variant} {h : HashState} (hf : h.family = family v) {ob : Nat}
    (hob : ∀ n, outBits v = some n → ob = n) (m : List Byte) (p : Nat) (d : Byte) :
    finalize v m p h ob d = digestBytes v m p h ob d := by
  cases h with
  | sha1 h =>
    obtain rfl := eq_of_family_sha1 hf.symm
    rw [hob 160 rfl]; rfl
  | sha256 h =>
    obtain rfl | rfl := eq_of_family_sha256 hf.symm
    · rw [hob 224 rfl]; rfl
    · rw [hob 256 rfl]; rfl
  | sha512 h =>
    simp only [finalize, digestBytes, pairs_eq_wordsOf]
    obtain rfl | rfl := eq_of_family_sha512 hf.symm
    · rw [hob 384 rfl]
      exact (take_unpack .be _ (k := 12) (by decide)).symm
    · rw [hob 512 rfl]
      exact (take_unpack .be _ (k := 16) (by decide)).symm
  | sha3 a => rfl

/-! ### What a context has absorbed -/

/-- R182: the context holds the message `m`: its whole blocks so far compressed from the variant's initial state and
counted, the rest buffered. -/
def Context.Absorbed (c : Context) (m : List Byte) : Prop :=
  ∃ k, k * blockBytes c.variant ≤ m.length ∧ c.rem = m.drop (k * blockBytes c.variant) ∧
    c.processedBits = k * blockBits c.variant ∧
    c.h = foldBlocks (blockBytes c.variant) (compress c.variant) k (newState c.variant) m

theorem freshContext_absorbed (v : Variant) (nr : Word) : (freshContext v nr).Absorbed [] :=
  ⟨0, by simp, by simp [freshContext], by simp [freshContext], rfl⟩

section
variable {c : Context} {m : List Byte}

/-- R34: the bits processed and buffered are those of the message. -/
theorem Context.Absorbed.bits (h : c.Absorbed m) : c.processedBits + 8 * c.rem.length = 8 * m.length := by
  obtain ⟨k, hk, hrem, hbits, -⟩ := h
  have : k * blockBits c.variant = 8 * (k * blockBytes c.variant) := by rw [blockBits_eq]; ring
  rw [hrem, List.length_drop, hbits]
  omega

/-- R182: UPDATE absorbs its data after what the context holds. -/
theorem Context.Absorbed.absorbData (h : c.Absorbed m) (data : List Byte) : (absorbData data c).Absorbed (m ++ data) := by
  obtain ⟨k, hk, hrem, hbits, hh⟩ := h
  have hbuf : c.rem ++ data = (m ++ data).drop (k * blockBytes c.variant) := by
    rw [hrem, List.drop_append_of_le_length hk]
  refine ⟨k + (c.rem ++ data).length / blockBytes c.variant, ?_, ?_, ?_, ?_⟩
  · have hdiv : (c.rem ++ data).length / blockBytes c.variant * blockBytes c.variant ≤ (c.rem ++ data).length :=
      Nat.div_mul_le_self _ _
    have hlen := congrArg List.length hbuf
    rw [List.length_drop] at hlen
    have : k * blockBytes c.variant ≤ (m ++ data).length := by rw [List.length_append]; omega
    show (k + _) * blockBytes c.variant ≤ _
    rw [Nat.add_mul]
    omega
  · show (c.rem ++ data).drop _ = (m ++ data).drop ((k + _) * blockBytes c.variant)
    rw [Nat.add_mul, ← List.drop_drop, ← hbuf]
  · show c.processedBits + _ = (k + _) * blockBits c.variant
    rw [hbits, Nat.add_mul]
  · show foldBlocks _ _ _ c.h (c.rem ++ data) =
      foldBlocks (blockBytes c.variant) (compress c.variant) (k + _) (newState c.variant) _
    rw [foldBlocks_add, foldBlocks_append _ _ k _ _ _ hk, ← hh, ← hbuf]

/-- R182, R284: whole blocks absorbed by INIT are absorbed as data would be, where nothing is buffered. -/
theorem absorbPrefix_eq_absorbData (hc : c.rem = []) {x : List Byte} (hx : x.length % blockBytes c.variant = 0) :
    absorbPrefix x c = { absorbData x c with updateCalled := c.updateCalled } := by
  have hdiv : x.length / blockBytes c.variant * blockBytes c.variant = x.length :=
    Nat.div_mul_cancel (Nat.dvd_of_mod_eq_zero hx)
  have hbits : x.length / blockBytes c.variant * blockBits c.variant = 8 * x.length := by
    rw [blockBits_eq, Nat.mul_left_comm, hdiv]
  simp [absorbPrefix, absorbData, hc, hdiv, hbits]

/-- R284: INIT absorbs whole blocks after what a context without a remainder holds. -/
theorem Context.Absorbed.absorbPrefix (h : c.Absorbed m) (hc : c.rem = []) {x : List Byte}
    (hx : x.length % blockBytes c.variant = 0) : (absorbPrefix x c).Absorbed (m ++ x) := by
  rw [absorbPrefix_eq_absorbData hc hx]
  exact h.absorbData x

/-- R172, R183: the digest of a context and a tail is the digest of all its bytes and the tail from the initial state. -/
theorem Context.Absorbed.finalize (h : c.Absorbed m) (tail : List Byte) (ob : Nat) (d : Byte) :
    finalize c.variant (c.rem ++ tail) c.processedBits c.h ob d =
      Machine.finalize c.variant (m ++ tail) 0 (newState c.variant) ob d := by
  obtain ⟨k, hk, hrem, hbits, hh⟩ := h
  have hfold := finalize_foldBlocks (newState_family c.variant) ob d (k := k) (m := m ++ tail) 0
    (by rw [List.length_append]; omega)
  rwa [List.drop_append_of_le_length hk, ← hrem, Nat.zero_add, ← hbits, foldBlocks_append _ _ _ _ _ _ hk, ← hh] at hfold

end

end Sys2Proof.Machine
end

section
/-! PROOFS. Runs (spec 30_encoding.md R102, 70_reset_and_hazards.md R340): what the host observes of each context command
that completes, as a step from one context to the next; and the runs of HASH and KMAC made of three such steps. -/

namespace Sys2Proof.Machine

open Sys2Proof.Claims

/-! ### Strings on the wire -/

/-- The operand a string the host packs arrives as. -/
def wireOf (o : ByteOrder) (s : List Byte) : WireString where
  bitLen := 8 * s.length
  words := pack o s

@[simp] theorem wireOf_bytes (o : ByteOrder) (s : List Byte) : (wireOf o s).bytes o = s := by
  rw [WireString.bytes, wireOf, Nat.mul_div_cancel_left _ (by decide), unpack_pack]

@[simp] theorem wireOf_bitLen (o : ByteOrder) (s : List Byte) : (wireOf o s).bitLen = 8 * s.length := rfl

@[simp] theorem wireOf_unaligned (o : ByteOrder) (s : List Byte) : (wireOf o s).unaligned = false := by
  simp [WireString.unaligned, wireOf]

/-- R77: a string the host writes is taken as its operand. -/
theorem dinString_stringWords (o : ByteOrder) {s : List Byte} (hs : 8 * s.length < 2 ^ 64) (rest : List Word) :
    dinString (stringWords o s ++ rest) = some (wireOf o s, rest) := by
  rw [stringWords_of_lt o s hs]
  exact dinString_append _ _ _ hs (by rw [pack_length]; omega)

/-- R98: so is an optional string. -/
theorem dinString_when (o : ByteOrder) {s : Option (List Byte)} (hs : 8 * (s.getD []).length < 2 ^ 64)
    (rest : List Word) : dinString.when s.isSome (optionWords o s ++ rest) = some (s.map (wireOf o), rest) := by
  cases s with
  | none => rfl
  | some s => exact Din.map_some (dinString_stringWords o hs rest)

/-- R98: and an optional length. -/
theorem dinLen_when {l : Option Nat} (hl : ∀ n, l = some n → n < 2 ^ 64) :
    dinLen.when l.isSome (optionLen l) = some (l, []) := by
  cases l with
  | none => rfl
  | some n => exact Din.map_some (by simpa [optionLen] using dinLen_lenWords n (hl n rfl) [])

@[simp] theorem bytesOr_map_wireOf (o : ByteOrder) (s : Option (List Byte)) :
    bytesOr o (s.map (wireOf o)) = s.getD [] := by
  cases s with
  | none => rfl
  | some s => exact wireOf_bytes o s

/-! ### One command of a run -/

/-- The state of a run between two commands: a bound context, `STATUS` 0, and nothing on the channels. -/
def State.ready (p : Config.Params) (c : Context) : State where
  params := p
  bound := true
  poisoned := false
  status := 0x00
  ctx := some c
  cmd := []
  din := []
  dout := []

/-- R340: what the host observes of a legal command issued to an idle engine. -/
theorem State.perform_of_exec {s t : State} {i : Instr} {ops : List Word} (hs : Idle s) (hi : i.wellFormed = true)
    (h : exec i (s.issue (encode i) ops) = .next t) :
    s.perform (issueOf i ops) = ((t.status, t.dout), { t with dout := [] }) := by
  obtain ⟨hcmd, -, -⟩ := hs
  have hcmd : (s.issue (encode i) ops).cmd = [encode i] := by rw [State.issue_cmd, hcmd, List.nil_append]
  have hstep := (step_of_instr hcmd (encodedCommandDecodes i hi)).trans h
  simp only [State.perform, issueOf, hi, if_true, hstep]

/-- A context command other than INIT that completes takes a run from one context to the next. -/
theorem State.perform_bound {α : Type} {read : Din α} {i : Instr}
    {run : Config.Params → Context → α → Except Error (Context × List Word)} (hi : i.wellFormed = true)
    (he : ∀ s, exec i s = boundCommand read run s) {p : Config.Params} {c c' : Context} {x : α} {ops out : List Word}
    (hread : read ops = some (x, [])) (hrun : run p c x = .ok (c', out)) :
    (State.ready p c).perform (issueOf i ops) = ((0x00, out), State.ready p c') := by
  have h := (he _).trans (boundCommand_completes (s := (State.ready p c).issue (encode i) ops) hread rfl hrun)
  exact State.perform_of_exec ⟨rfl, rfl, rfl⟩ hi h

/-- R6: legal limits fit a Len64. -/
theorem limits_lt {p : Config.Params} (hp : p.legal = true) : p.maxTotalBits < 2 ^ 64 ∧ p.maxOutputBits < 2 ^ 64 := by
  simp only [Config.Params.legal, Bool.and_eq_true, decide_eq_true_eq] at hp
  omega

section
variable {p : Config.Params} {c : Context} {data : List Byte} {len : Option Nat} {out : List Byte}

/-- R182: UPDATE within the limit. -/
theorem State.perform_update (hp : p.legal = true)
    (hl : c.processedBits + 8 * c.rem.length + 8 * data.length ≤ p.maxTotalBits) :
    (State.ready p c).perform ((Line.update data).issue (orderOf c.variant)) =
      ((0x00, []), State.ready p (absorbData data c)) := by
  have hread := dinString_stringWords (orderOf c.variant) (s := data) (by have := limits_lt hp; omega) []
  rw [List.append_nil] at hread
  have hchecks : firstError (updateChecks p c (wireOf (orderOf c.variant) data)) = none := by
    simp [updateChecks, hl]
  exact State.perform_bound (i := .update) rfl execUpdate.eq_1 hread
    ((checked_of_none hchecks).trans (by rw [wireOf_bytes]))

/-- R186, R192: GET_HASH of a context whose digest has a length. -/
theorem State.perform_getHash (hlen : ∀ n, len = some n → n < 2 ^ 64) (h : hashResult p c len = .ok out)
    (o : ByteOrder) :
    (State.ready p c).perform ((Line.getHash len).issue o) =
      ((0x00, stringWords (orderOf c.variant) out), State.ready p c) :=
  State.perform_bound (i := .getHash len.isSome) rfl (execGetHash.eq_1 _) (dinLen_when hlen) (by rw [h, getAnswer])

/-- R190, R192: GET_MAC likewise. -/
theorem State.perform_getMac (hlen : ∀ n, len = some n → n < 2 ^ 64) (h : macResult p c len = .ok out)
    (o : ByteOrder) :
    (State.ready p c).perform ((Line.getMac len).issue o) =
      ((0x00, stringWords (orderOf c.variant) out), State.ready p c) :=
  State.perform_bound (i := .getMac len.isSome) rfl (execGetMac.eq_1 _) (dinLen_when hlen) (by rw [h, getAnswer])

end

/-! ### INIT in a run -/

/-- R180, R181: an INIT of this variant, round count and strings completes. -/
structure InitOk (p : Config.Params) (v : Variant) (nr : Word) (key fn cust : Option (List Byte)) : Prop where
  rounds : nr ≠ 0
  mac : key.isSome = true → hasNoMac v = false
  kmac : isKmac v = true → key.isSome = true
  oneRound : key.isSome = true ∨ isKmac v = true ∨ isCshake v = true → nr = 1
  strings : v.takesStrings = true ∨ fn = none ∧ cust = none
  lengths : 8 * (key.getD []).length ≤ p.maxTotalBits ∧ 8 * (fn.getD []).length ≤ p.maxTotalBits ∧
    8 * (cust.getD []).length ≤ p.maxTotalBits
  prefixed : prefixBits v key.isSome (key.getD []) (fn.getD []) (cust.getD []) ≤ p.maxTotalBits

/-- The operands INIT takes of the strings the host packs. -/
def initOperands (v : Variant) (nr : Word) (key fn cust : Option (List Byte)) : InitOperands where
  nr := nr
  key := key.map (wireOf (orderOf v))
  fn := fn.map (wireOf (orderOf v))
  cust := cust.map (wireOf (orderOf v))

section
variable {p : Config.Params} {v : Variant} {nr : Word} {key fn cust : Option (List Byte)}

theorem dinInit_issue (hkey : 8 * (key.getD []).length < 2 ^ 64) (hfn : 8 * (fn.getD []).length < 2 ^ 64)
    (hcust : 8 * (cust.getD []).length < 2 ^ 64) :
    dinInit key.isSome fn.isSome cust.isSome
      (nr :: optionWords (orderOf v) key ++ optionWords (orderOf v) fn ++ optionWords (orderOf v) cust) =
      some (initOperands v nr key fn cust, []) := by
  have hcust' := dinString_when (orderOf v) hcust []
  rw [List.append_nil] at hcust'
  rw [dinInit, List.cons_append, List.cons_append, List.append_assoc, Din.bind_some (dinWord_cons _ _),
    Din.bind_some (dinString_when _ hkey _), Din.bind_some (dinString_when _ hfn _), Din.map_some hcust']
  rfl

theorem any_map_wireOf {o : ByteOrder} {s : Option (List Byte)} {bad : WireString → Bool}
    (h : bad (wireOf o (s.getD [])) = false) : (s.map (wireOf o)).any bad = false := by
  cases s with
  | none => rfl
  | some b => exact h

theorem anyString_initOperands {bad : WireString → Bool} (hkey : bad (wireOf (orderOf v) (key.getD [])) = false)
    (hfn : bad (wireOf (orderOf v) (fn.getD [])) = false) (hcust : bad (wireOf (orderOf v) (cust.getD [])) = false) :
    (initOperands v nr key fn cust).anyString bad = false := by
  simp only [InitOperands.anyString, initOperands, any_map_wireOf, hkey, hfn, hcust, Bool.or_self]

/-- R180, R307: none of INIT's checks applies. -/
theorem InitOk.checks (h : InitOk p v nr key fn cust) :
    firstError (initChecks p v (initOperands v nr key fn cust)) = none := by
  obtain ⟨hrounds, hmac, hkmac, hone, -, ⟨hkey, hfn, hcust⟩, hprefix⟩ := h
  simp only [firstError_eq_none, initChecks, List.forall_mem_cons]
  refine ⟨?_, ?_, ?_, ?_, ?_, ?_, ?_, by simp⟩
  · exact anyString_initOperands (wireOf_unaligned _ _) (wireOf_unaligned _ _) (wireOf_unaligned _ _)
  · simpa [initOperands] using hrounds
  · simpa [initOperands] using hmac
  · cases hk : isKmac v
    · simp
    · simp [initOperands, hkmac hk]
  · cases hc : isCshake v
    · simp
    · simp [initOperands, hone (.inr (.inr hc))]
  · by_cases hk : key.isSome = true ∨ isKmac v = true
    · simp [initOperands, hone (hk.imp_right .inl)]
    · simp_all [initOperands]
  · rw [anyString_initOperands (by simpa using hkey) (by simpa using hfn) (by simpa using hcust)]
    simpa [initOperands] using hprefix

/-- R180: so INIT constructs this context. -/
theorem buildContext_initOperands (h : InitOk p v nr key fn cust) :
    buildContext (some v) p (initOperands v nr key fn cust) =
      .ok (keyContext v key (fn.getD []) (cust.getD []) (freshContext v nr)) := by
  have hkey : (key.map (wireOf (orderOf v))).map (WireString.bytes (orderOf v)) = key := by
    cases key <;> simp
  rw [buildContext, checked_of_none h.checks]
  simp only [initOperands, hkey, bytesOr_map_wireOf]

end

/-- R180: INIT in a run, whatever the state before it. -/
theorem State.perform_init {s : State} (hs : Idle s) (hp : s.params.legal = true) {v : Variant} {nr : Word}
    {key fn cust : Option (List Byte)} (h : InitOk s.params v nr key fn cust) (o : ByteOrder) :
    s.perform ((Line.init v nr key fn cust).issue o) =
      ((0x00, []), State.ready s.params (keyContext v key (fn.getD []) (cust.getD []) (freshContext v nr))) := by
  have hmax := (limits_lt hp).1
  obtain ⟨hkey, hfn, hcust⟩ := h.lengths
  obtain ⟨hcmd, hdin, hdout⟩ := hs
  have hwf : (Instr.init (some v) key.isSome fn.isSome cust.isSome).wellFormed = true := by
    obtain hv | ⟨rfl, rfl⟩ := h.strings
    · simp [Instr.wellFormed, hv]
    · simp [Instr.wellFormed]
  have hexec := constructCommand_completes (build := buildContext (some v))
    (s := s.issue (encode (.init (some v) key.isSome fn.isSome cust.isSome))
      (nr :: optionWords (orderOf v) key ++ optionWords (orderOf v) fn ++ optionWords (orderOf v) cust))
    (by rw [State.issue_din, hdin, List.nil_append]
        exact dinInit_issue (hkey.trans_lt hmax) (hfn.trans_lt hmax) (hcust.trans_lt hmax))
    (buildContext_initOperands h)
  refine (State.perform_of_exec ⟨hcmd, hdin, hdout⟩ hwf hexec).trans ?_
  simp [State.ready, State.complete, State.take, State.issue, hcmd, hdout, statusOk]

/-! ### Runs of three commands -/

/-- R102: INIT, UPDATE and a GET: the GET answers from the context that has absorbed what INIT and UPDATE gave it. -/
theorem runLines_init_update_get {s : State} (hs : Idle s) (hp : s.params.legal = true) {v : Variant} {nr : Word}
    {key fn cust : Option (List Byte)} (hinit : InitOk s.params v nr key fn cust) {c : Context} {m data : List Byte}
    (hkc : keyContext v key (fn.getD []) (cust.getD []) (freshContext v nr) = c) (hv : c.variant = v)
    (hc : c.Absorbed m) (hl : 8 * (m ++ data).length ≤ s.params.maxTotalBits) {get : Line} {out : List Word}
    (hget : (State.ready s.params (absorbData data c)).perform (get.issue (orderOf v)) =
      ((0x00, out), State.ready s.params (absorbData data c))) :
    (s.runLines [.init v nr key fn cust, .update data, get]).1 = [(0x00, []), (0x00, []), (0x00, out)] := by
  have hlimit : c.processedBits + 8 * c.rem.length + 8 * data.length ≤ s.params.maxTotalBits := by
    rw [hc.bits, ← Nat.mul_add, ← List.length_append]
    exact hl
  have hupdate := State.perform_update (c := c) hp hlimit
  rw [hv] at hupdate
  simp only [State.runLines, assemble, Line.orderAfter, State.runIssues, State.perform_init hs hp hinit, hkc, hupdate,
    hget]

/-! ### HASH -/

/-- R180: without key and strings INIT leaves the fresh context, cSHAKE's included (R286). -/
theorem keyContext_freshContext {v : Variant} (hv : isKmac v = false) (nr : Word) :
    keyContext v none [] [] (freshContext v nr) = freshContext v nr := by
  cases hc : isCshake v
  · simp [keyContext, hc, hv]
  · have hd : initDelim v = some 0x1F := by revert hc; cases v <;> decide
    simp [keyContext, hc, cshakeInit, freshContext, hd]

theorem initOk_of_no_strings {p : Config.Params} {v : Variant} {nr : Word} (hv : isKmac v = false) (hnr : nr ≠ 0)
    (hc : isCshake v = true → nr = 1) : InitOk p v nr none none none where
  rounds := hnr
  mac hk := by cases hk
  kmac hk := by simp [hv] at hk
  oneRound h := hc (by simpa [hv] using h)
  strings := .inr ⟨rfl, rfl⟩
  lengths := by simp
  prefixed := by simp [prefixBits, hv]

theorem outBitsOf_eq_ok {p : Config.Params} {v : Variant} {len : Option Nat} {ob : Nat} (h : OutLength p v len ob) :
    outBitsOf p v len = .ok ob := by
  obtain h | ⟨hv, rfl, haligned, hmax⟩ := h
  · simp [outBitsOf, h]
  · simp [outBitsOf, hv, checked, haligned, not_lt.mpr hmax]

theorem repeated_eq_iterate {α : Type} (f : α → α) (n : Nat) (a : α) : repeated f n a = f^[n] a := by
  induction n generalizing a with
  | zero => rfl
  | succ n ih => exact ih (f a)

/-- R28, R172: the digest of a whole message from the variant's initial state; the families without a delimiter read
none. -/
theorem finalize_newState {v : Variant} {ob : Nat} (hob : ∀ n, outBits v = some n → ob = n) (m : List Byte) (d : Byte) :
    finalize v m 0 (newState v) ob ((initDelim v).getD d) = digestOf v ob m := by
  rw [finalize_eq_digestBytes (newState_family v) hob]
  cases v <;> rfl

/-- R183, R186, R187: the digest of a context is the one-round digest of what it has absorbed, `NUM_ROUNDS` times. -/
theorem Context.Absorbed.digest {c : Context} {m : List Byte} (h : c.Absorbed m) (hd : c.delim = initDelim c.variant)
    (hr : c.numRounds ≠ 0) {ob : Nat} (hob : ∀ n, outBits c.variant = some n → ob = n) :
    digest c ob = (digestOf c.variant ob)^[c.numRounds.toNat] m := by
  have hrounds : c.numRounds.toNat = c.numRounds.toNat - 1 + 1 := by bv_omega
  have hfirst := h.finalize [] ob ((initDelim c.variant).getD Config.absentDelim)
  rw [List.append_nil, List.append_nil, finalize_newState hob] at hfirst
  simp only [Machine.digest, hd, repeated_eq_iterate, hfirst, finalize_newState hob]
  rw [hrounds, Function.iterate_succ_apply, Nat.add_sub_cancel]

theorem eq_outBits_of_outLength {p : Config.Params} {v : Variant} {len : Option Nat} {ob : Nat}
    (h : OutLength p v len ob) (n : Nat) (hn : outBits v = some n) : ob = n := by
  obtain h | ⟨h, -⟩ := h
  · rw [h] at hn
    exact Option.some.inj hn
  · simp [h] at hn

/-- R186: GET_HASH of an unkeyed context. -/
theorem hashResult_eq_ok {p : Config.Params} {c : Context} {len : Option Nat} {ob : Nat} (hkey : c.macKeySet = false)
    (hob : OutLength p c.variant len ob) : hashResult p c len = .ok (digest c ob) := by
  simp [hashResult, hkey, outBitsOf_eq_ok hob]

/-- Settles O31. -/
theorem hashRun : Obligations.HashRun := by
  intro s v nr data len ob hs hp hv hnr hcshake hl hob hlen
  have hkmac : isKmac v = false := by simpa [isKmac] using hv
  have hinit := initOk_of_no_strings (p := s.params) hkmac hnr fun h => hcshake (by simpa [isCshake] using h)
  have hfresh := freshContext_absorbed v nr
  have hdigest := (hfresh.absorbData data).digest rfl hnr (eq_outBits_of_outLength hob)
  refine runLines_init_update_get hs hp hinit (keyContext_freshContext hkmac nr) rfl hfresh hl ?_
  exact State.perform_getHash hlen ((hashResult_eq_ok rfl hob).trans (congrArg _ hdigest)) _

/-! ### KMAC -/

/-- R287: KMAC absorbs cSHAKE's blocks under its own name, and then the key's. -/
theorem kmacInit_absorbed {c : Context} {m : List Byte} (h : c.Absorbed m) (hc : c.rem = []) (key cust : List Byte) :
    (kmacInit key cust c).Absorbed (m ++ cshakePrefix c.variant kmacName cust ++ kmacKeyBlocks c.variant key) := by
  have hB := blockBytes_pos c.variant
  have h1 : (cshakeInit kmacName cust c).Absorbed _ := h.absorbPrefix hc (bytePad_length_mod _ hB)
  exact h1.absorbPrefix hc (bytePad_length_mod _ hB)

theorem length_le_bytePad_encodeString (x y : List Byte) (w : Nat) :
    x.length ≤ (bytePad (y ++ encodeString x) w).length := by
  simp only [bytePad, encodeString, List.length_append]
  omega

/-- R174, R287: a limit that admits KMAC's blocks admits its strings. -/
theorem initOk_of_kmac {p : Config.Params} {v : Variant} (hv : isKmac v = true) {key : List Byte}
    {cust : Option (List Byte)}
    (hl : 8 * (cshakePrefix v kmacName (cust.getD []) ++ kmacKeyBlocks v key).length ≤ p.maxTotalBits) :
    InitOk p v 1 (some key) none cust := by
  have hstrings : isCshake v = false ∧ hasNoMac v = false ∧ v.takesStrings = true := by
    revert hv; cases v <;> decide
  obtain ⟨hcshake, hmac, htakes⟩ := hstrings
  have hkey : key.length ≤ (kmacKeyBlocks v key).length := length_le_bytePad_encodeString key [] _
  have hcust : (cust.getD []).length ≤ (cshakePrefix v kmacName (cust.getD [])).length :=
    length_le_bytePad_encodeString _ _ _
  rw [List.length_append] at hl
  exact
    { rounds := by decide
      mac := fun _ => hmac
      kmac := fun _ => rfl
      oneRound := fun _ => rfl
      strings := .inl htakes
      lengths := by simp only [Option.getD_some, Option.getD_none, List.length_nil]; omega
      prefixed := by simpa [prefixBits, hcshake, hv, Nat.mul_add] using hl }

/-- R289: GET_MAC of a KMAC context. -/
theorem macResult_eq_ok {p : Config.Params} {c : Context} {len : Option Nat} {ob : Nat} (hv : isKmac c.variant = true)
    (hkey : c.macKeySet = true) (hob : OutLength p c.variant len ob) : macResult p c len = .ok (kmacFinalize c ob) := by
  have hmac : hasNoMac c.variant = false := by
    revert hv; cases c.variant <;> decide
  simp [macResult, hmac, hkey, hv, outBitsOf_eq_ok hob]

/-- R289: the output of a KMAC context is the sponge's over what it has absorbed and the encoded length. -/
theorem Context.Absorbed.kmacFinalize {c : Context} {m : List Byte} (h : c.Absorbed m) (hv : c.variant.isSha3 = true)
    (hd : c.delim = some 0x04) (n : Nat) :
    kmacFinalize c n = sha3Finalize zeroLanes (m ++ rightEncode n) 0x04 (blockBits c.variant) n := by
  rw [Machine.kmacFinalize, hd, h.finalize, newState_of_isSha3 hv]
  rfl

/-- Settles O34. -/
theorem kmacRun : Obligations.KmacRun := by
  intro s v key data cust n hs hp hv rate x hl haligned hmax
  have hkmac : isKmac v = true := by simpa [isKmac] using hv
  have hvars : isCshake v = false ∧ v.isSha3 = true ∧ outBits v = none ∧ orderOf v = .le := by
    revert hkmac; cases v <;> decide
  obtain ⟨hcshake, hsha3, hvarlen, horder⟩ := hvars
  have hinit : InitOk s.params v 1 (some key) none cust :=
    initOk_of_kmac hkmac ((Nat.mul_le_mul_left 8 (List.prefix_append x data).length_le).trans hl)
  have hkc : keyContext v (some key) [] (cust.getD []) (freshContext v 1) =
      kmacInit key (cust.getD []) (freshContext v 1) := by
    simp [keyContext, hcshake, hkmac]
  have habsorbed : (kmacInit key (cust.getD []) (freshContext v 1)).Absorbed x :=
    kmacInit_absorbed (freshContext_absorbed v 1) rfl key (cust.getD [])
  have hresult := (macResult_eq_ok hkmac rfl (.inr ⟨hvarlen, rfl, haligned, hmax⟩)).trans
    (congrArg _ ((habsorbed.absorbData data).kmacFinalize hsha3 rfl n))
  refine runLines_init_update_get hs hp hinit hkc rfl habsorbed hl ?_
  rw [← horder]
  refine State.perform_getMac ?_ hresult _
  intro k hk
  cases hk
  exact hmax.trans_lt (limits_lt hp).2

end Sys2Proof.Machine
end

section
/-! PROOFS. The 32-bit word primitives (spec 40_word32.md).  First how a test-port operation without checks completes, and
what a word with an amount decodes to; then each function as the spec gives it, of a natural or of one bit; then the
statements, each a short use of those. -/

namespace Sys2Proof.Machine

open Sys2Proof.Claims

/-! ### Operations without checks complete -/

/-- R109: an operation without checks completes once its operands are on `DIN`. -/
theorem completes_of_noChecks {α : Type} {i : Instr} {read : Din α} {result : α → List Word} {x : α} {ops : List Word}
    (hi : ∀ s, exec i s = portCommand read noChecks result s) (hread : ∀ rest, read (ops ++ rest) = some (x, rest)) :
    Completes i ops (result x) :=
  fun s rest hs => (hi s).trans (portCommand_completes (hs ▸ hread rest) rfl)

theorem completes_unary32 {i : Instr} {f : Word → Word} (hi : ∀ s, exec i s = unary32 f s) (x : Word) :
    Completes i [x] [f x] :=
  completes_of_noChecks (result := fun r => [r]) hi fun _ => rfl

theorem completes_binary32 {i : Instr} {f : Word → Word → Word} (hi : ∀ s, exec i s = binary32 f s) (a b : Word) :
    Completes i [a, b] [f a b] :=
  completes_of_noChecks (result := fun r => [r]) hi fun _ => rfl

theorem completes_ternary32 {i : Instr} {f : Word → Word → Word → Word} (hi : ∀ s, exec i s = ternary32 f s)
    (x y z : Word) : Completes i [x, y, z] [f x y z] :=
  completes_of_noChecks (result := fun r => [r]) hi fun _ => rfl

theorem completes_quaternary32 {i : Instr} {f : Word → Word → Word → Word → Word}
    (hi : ∀ s, exec i s = quaternary32 f s) (a b c d : Word) : Completes i [a, b, c, d] [f a b c d] :=
  completes_of_noChecks (result := fun r => [r]) hi fun _ => rfl

theorem completes_quinary32 {i : Instr} {f : Word → Word → Word → Word → Word → Word}
    (hi : ∀ s, exec i s = quinary32 f s) (a b c d e : Word) : Completes i [a, b, c, d, e] [f a b c d e] :=
  completes_of_noChecks (result := fun r => [r]) hi fun _ => rfl

/-! ### Words with an amount -/

/-- R90, R91: the word of an opcode and an amount, every other field zero. -/
theorem toWord_bare_amount (opc : BitVec 8) (n : BitVec 6) :
    ({ Fields.bare opc with n := n } : Fields).toWord = opc ++ 0#4 ++ n ++ 0#14 := by
  have hzeros : (opc ++ 0#4 ++ n ++ 0#1 ++ 0#1 ++ 0#1 ++ 0#3 ++ 0#8).toNat = (opc ++ 0#4 ++ n ++ 0#14).toNat := by
    simp only [BitVec.toNat_append, BitVec.toNat_ofNat, Nat.zero_mod, Nat.or_zero, ← Nat.shiftLeft_add]
  exact BitVec.eq_of_toNat_eq hzeros

/-- R96, R100: the word of an opcode with an amount is that command where the amount is admitted, and illegal elsewhere.
What is claimed of the command is claimed for the admitted amounts. -/
theorem decode_amount {i : Instr} {opc : BitVec 8} {n : BitVec 6} {admitted claim : Prop} [Decidable admitted]
    (hfields : i.fields = { Fields.bare opc with n := n })
    (hline : decodeFields i.fields = i.fields.only usesN (ifAdmitted i .valueNotAdmitted))
    (hi : i.wellFormed = false ↔ ¬admitted) (hclaim : claim) :
    if admitted then decode (opc ++ 0#4 ++ n ++ 0#14) = .instr i ∧ claim
    else ∃ r, decode (opc ++ 0#4 ++ n ++ 0#14) = .illegal r := by
  have hdecode : decode (opc ++ 0#4 ++ n ++ 0#14) = ifAdmitted i .valueNotAdmitted := by
    rw [← toWord_bare_amount, ← hfields, decode, Fields.ofWord_toWord, hline]
    exact Fields.only_of_zero _ (by rw [hfields]; rfl) (by rw [hfields]; rfl)
  rw [hdecode]
  split
  · next ha => exact ⟨ifAdmitted_of_wellFormed _ (by simpa [ha] using hi), hclaim⟩
  · next ha => exact ifAdmitted_eq_illegal.mpr (hi.mpr ha)

/-! ### Rotates and shift, of a natural -/

theorem rotl32_eq_ofNat (x : Word) (n : Nat) :
    rotl32 x n = BitVec.ofNat 32 (((x.toNat <<< n) ||| (x.toNat >>> (32 - n))) % 2 ^ 32) := by
  apply BitVec.eq_of_toNat_eq
  have hlow : x.toNat >>> (32 - n) < 2 ^ 32 := (Nat.shiftRight_le _ _).trans_lt x.isLt
  rw [BitVec.toNat_ofNat, Nat.mod_mod, Nat.or_mod_two_pow, Nat.mod_eq_of_lt hlow]
  rfl

theorem rotr32_eq_ofNat (x : Word) (n : Nat) :
    rotr32 x n = BitVec.ofNat 32 (((x.toNat >>> n) ||| (x.toNat <<< (32 - n))) % 2 ^ 32) := by
  apply BitVec.eq_of_toNat_eq
  have hlow : x.toNat >>> n < 2 ^ 32 := (Nat.shiftRight_le _ _).trans_lt x.isLt
  rw [BitVec.toNat_ofNat, Nat.mod_mod, Nat.or_mod_two_pow, Nat.mod_eq_of_lt hlow]
  rfl

theorem shr32_eq_ofNat (x : Word) (n : Nat) : shr32 x n = BitVec.ofNat 32 (x.toNat / 2 ^ n) := by
  apply BitVec.eq_of_toNat_eq
  have hlt : x.toNat / 2 ^ n < 2 ^ 32 := (Nat.div_le_self _ _).trans_lt x.isLt
  rw [BitVec.toNat_ofNat, Nat.mod_eq_of_lt hlt, shr32, BitVec.toNat_ushiftRight, Nat.shiftRight_eq_div_pow]

/-- Settles O47: the amounts by `decode_amount`, the results by the functions' values as naturals. -/
theorem rotates32 : Obligations.Rotates32 := by
  intro n
  refine ⟨decode_amount rfl rfl (rotl32_illformed n) fun x => ?_,
    decode_amount rfl rfl (rotr32_illformed n) fun x => ?_, decode_amount rfl rfl (shr32_illformed n) fun x => ?_⟩
  · rw [← rotl32_eq_ofNat]
    exact completes_unary32 (f := fun x => rotl32 x n.toNat) (fun _ => rfl) x
  · rw [← rotr32_eq_ofNat]
    exact completes_unary32 (f := fun x => rotr32 x n.toNat) (fun _ => rfl) x
  · rw [← shr32_eq_ofNat]
    exact completes_unary32 (f := fun x => shr32 x n.toNat) (fun _ => rfl) x

/-! ### Choice, parity and majority, bit by bit -/

theorem getLsbD_ch32 (x y z : Word) {j : Nat} (hj : j < 32) :
    (ch32 x y z).getLsbD j = if x.getLsbD j then y.getLsbD j else z.getLsbD j := by
  simp only [ch32, BitVec.getLsbD_xor, BitVec.getLsbD_and, BitVec.getLsbD_not, hj, decide_true, Bool.true_and]
  cases x.getLsbD j <;> simp

theorem getLsbD_parity32 (x y z : Word) (j : Nat) :
    (parity32 x y z).getLsbD j =
      decide (((x.getLsbD j).toNat + (y.getLsbD j).toNat + (z.getLsbD j).toNat) % 2 = 1) := by
  have hbits : ∀ a b c : Bool, (a ^^ b ^^ c) = decide ((a.toNat + b.toNat + c.toNat) % 2 = 1) := by decide
  simp only [parity32, BitVec.getLsbD_xor, hbits]

theorem getLsbD_maj32 (x y z : Word) (j : Nat) :
    (maj32 x y z).getLsbD j =
      decide (2 ≤ (x.getLsbD j).toNat + (y.getLsbD j).toNat + (z.getLsbD j).toNat) := by
  have hbits : ∀ a b c : Bool, (a && b ^^ a && c ^^ b && c) = decide (2 ≤ a.toNat + b.toNat + c.toNat) := by decide
  simp only [maj32, BitVec.getLsbD_xor, BitVec.getLsbD_and, hbits]

/-- Settles O48: each result is the function's own word, and its bits are those said above. -/
theorem choiceParityMajority32 : Obligations.ChoiceParityMajority32 := by
  refine ⟨rfl, rfl, rfl, fun x y z => ⟨ch32 x y z, parity32 x y z, maj32 x y z, fun j hj => getLsbD_ch32 x y z hj,
    fun j _ => getLsbD_parity32 x y z j, fun j _ => getLsbD_maj32 x y z j, ?_, ?_, ?_⟩⟩
  all_goals exact completes_ternary32 (fun _ => rfl) x y z

/-! ### The mixing functions of SHA-256, bit by bit -/

/-- R111: rotating right by `n` brings bit `j + n` around the word to bit `j`. -/
theorem getLsbD_rotr32 (x : Word) {n j : Nat} (hn : n ≤ 32) (hj : j < 32) :
    (rotr32 x n).getLsbD j = x.getLsbD ((j + n) % 32) := by
  rw [rotr32, BitVec.getLsbD_or, BitVec.getLsbD_ushiftRight, BitVec.getLsbD_shiftLeft]
  by_cases h : j + n < 32
  · -- the bit comes from the shift right
    have hright : j < 32 - n := by omega
    simp [Nat.mod_eq_of_lt h, hright, Nat.add_comm n j]
  · -- it comes around from the low end, by the shift left
    have hleft : ¬j < 32 - n := by omega
    have hpast : x.getLsbD (n + j) = false := BitVec.getLsbD_of_ge x _ (by omega)
    have hwrap : j - (32 - n) = (j + n) % 32 := by omega
    simp [hj, hleft, hpast, hwrap]

/-- R112: shifting right by `n` brings bit `j + n` to bit `j`, and zeros from the end of the word on. -/
theorem getLsbD_shr32 (x : Word) (n j : Nat) :
    (shr32 x n).getLsbD j = (decide (j + n < 32) && x.getLsbD (j + n)) := by
  rw [shr32, BitVec.getLsbD_ushiftRight, Nat.add_comm]
  by_cases h : j + n < 32
  · simp [h]
  · simp [h, BitVec.getLsbD_of_ge x (j + n) (by omega)]

/-- Settles O49: each function is an XOR of rotates and a shift, so its bits are those of `getLsbD_rotr32` and
`getLsbD_shr32`. -/
theorem sigmaGamma256 : Obligations.SigmaGamma256 := by
  refine ⟨rfl, rfl, rfl, rfl, fun x =>
    ⟨sigma0x256 x, sigma1x256 x, gamma0x256 x, gamma1x256 x, fun j hj => ⟨?_, ?_, ?_, ?_⟩, ?_, ?_, ?_, ?_⟩⟩
  · simp (disch := omega) only [sigma0x256, BitVec.getLsbD_xor, getLsbD_rotr32]
  · simp (disch := omega) only [sigma1x256, BitVec.getLsbD_xor, getLsbD_rotr32]
  · simp (disch := omega) only [gamma0x256, BitVec.getLsbD_xor, getLsbD_rotr32, getLsbD_shr32]
  · simp (disch := omega) only [gamma1x256, BitVec.getLsbD_xor, getLsbD_rotr32, getLsbD_shr32]
  all_goals exact completes_unary32 (fun _ => rfl) x

/-! ### Additions -/

/-- R120 to R122: each addition writes the sum of its operands, reduced to a word. -/
theorem completes_add32 {i : Instr} {ops : List Word}
    (h : (i = .add32x2 ∧ ops.length = 2) ∨ (i = .add32x4 ∧ ops.length = 4) ∨ (i = .add32x5 ∧ ops.length = 5)) :
    Completes i ops [BitVec.ofNat 32 (ops.map BitVec.toNat).sum] := by
  obtain ⟨rfl, hlen⟩ | ⟨rfl, hlen⟩ | ⟨rfl, hlen⟩ := h
  · match ops, hlen with
    | [a, b], _ => simpa [add32x2] using completes_binary32 (f := add32x2) (fun _ => rfl) a b
  · match ops, hlen with
    | [a, b, c, d], _ =>
      simpa [add32x4, Nat.add_assoc] using completes_quaternary32 (f := add32x4) (fun _ => rfl) a b c d
  · match ops, hlen with
    | [a, b, c, d, e], _ =>
      simpa [add32x5, Nat.add_assoc] using completes_quinary32 (f := add32x5) (fun _ => rfl) a b c d e

/-- R123: a word is 2^16 times its high limb and its low limb. -/
theorem toNat_eq_limbs (a : Word) : a.toNat = 2 ^ 16 * (a.toNat >>> 16) + (a.toNat &&& 0xffff) := by
  rw [Nat.shiftRight_eq_div_pow, Nat.and_two_pow_sub_one_eq_mod a.toNat 16, Nat.div_add_mod]

/-- R123: so is a sum of words, of the sums of their limbs. -/
theorem sum_toNat_eq_limbs (ops : List Word) :
    (ops.map BitVec.toNat).sum =
      2 ^ 16 * (ops.map fun a => a.toNat >>> 16).sum + (ops.map fun a => a.toNat &&& 0xffff).sum := by
  rw [← List.sum_map_mul_left, ← List.sum_map_add]
  exact congrArg List.sum (List.map_congr_left fun a _ => toNat_eq_limbs a)

/-- R123: the limbs of a result, the carry of the low sum added to the high one, are those of the whole sum. -/
theorem ofNat_limbs (hi lo : Nat) :
    BitVec.ofNat 32 ((((hi + (lo >>> 16)) &&& 0xffff) <<< 16) ||| (lo &&& 0xffff)) = BitVec.ofNat 32 (2 ^ 16 * hi + lo) := by
  have hlow : ∀ n : Nat, n &&& 0xffff = n % 2 ^ 16 := fun n => Nat.and_two_pow_sub_one_eq_mod n 16
  rw [hlow, hlow, ← Nat.shiftLeft_add_eq_or_of_lt (Nat.mod_lt _ (by decide)), Nat.shiftLeft_eq, Nat.shiftRight_eq_div_pow]
  apply BitVec.eq_of_toNat_eq
  rw [BitVec.toNat_ofNat, BitVec.toNat_ofNat]
  omega

/-- Settles O50: the sum itself, and the limbs as a way to write the same word. -/
theorem additions32 : Obligations.Additions32 := by
  refine ⟨rfl, rfl, rfl, fun i ops h => ⟨?_, ?_⟩⟩
  · rw [← BitVec.toNat_ofNat, BitVec.ofNat_toNat, BitVec.setWidth_eq]
    exact completes_add32 h
  · intro lo hi
    rw [ofNat_limbs, ← sum_toNat_eq_limbs]
    exact completes_add32 h

end Sys2Proof.Machine
end

section
/-! PROOFS. The 64-bit word primitives (spec 41_word64.md).  First the (high, low) pair of words of a 64-bit value, and how
the operations on 64-bit values complete; then each function in the form its statement gives; then the statements, each a
short use of those. -/

namespace Sys2Proof.Machine

open Sys2Proof.Claims

/-! ### A 64-bit value as a pair of words -/

theorem dwordOf_eq_append (hi lo : Word) : dwordOf hi lo = hi ++ lo := by
  apply BitVec.eq_of_toNat_eq
  rw [dwordOf_toNat, BitVec.toNat_append, ← Nat.shiftLeft_add_eq_or_of_lt lo.isLt, Nat.shiftLeft_eq]

theorem pair_eq_words (x : DWord) : pair x = [hiWord x, loWord x] := by
  simpa [pairs, wordsOf] using pairs_eq_wordsOf [x]

@[simp] theorem pair_dwordOf (hi lo : Word) : pair (dwordOf hi lo) = [hi, lo] := by
  simp only [pair, dwordOf_toNat, List.cons.injEq, and_true]
  constructor <;> bv_omega

theorem dinU64_pair (x : DWord) (rest : List Word) : dinU64 (pair x ++ rest) = some (x, rest) := by
  rw [pair_eq_words, List.cons_append, List.cons_append, List.nil_append, dinU64_cons, dwordOf_words]

/-! ### Operations on 64-bit values complete -/

section
variable {i : Instr}

/-- R140: an operation without checks and with a 64-bit result completes with the pair of that result. -/
theorem completes_of_result64 {read : Din DWord} {ops : List Word} {r : DWord}
    (hexec : ∀ s, exec i s = portCommand read noChecks (fun r => [hiWord r, loWord r]) s)
    (hread : ∀ rest, read (ops ++ rest) = some (r, rest)) : Completes i ops (pair r) := by
  rw [pair_eq_words]
  exact completes_of_noChecks (result := fun r => [hiWord r, loWord r]) hexec hread

theorem completes_unary64 {f : DWord → DWord} (hexec : ∀ s, exec i s = unary64 f s) (a : DWord) :
    Completes i (pair a) (pair (f a)) :=
  completes_of_result64 hexec fun rest => Din.map_some (dinU64_pair a rest)

theorem completes_binary64 {f : DWord → DWord → DWord} (hexec : ∀ s, exec i s = binary64 f s) (a b : DWord) :
    Completes i (pairs [a, b]) (pair (f a b)) :=
  completes_of_result64 hexec fun rest =>
    (Din.bind_some (dinU64_pair a _)).trans (Din.map_some (dinU64_pair b rest))

theorem completes_ternary64 {f : DWord → DWord → DWord → DWord} (hexec : ∀ s, exec i s = ternary64 f s)
    (a b c : DWord) : Completes i (pairs [a, b, c]) (pair (f a b c)) :=
  completes_of_result64 hexec fun rest =>
    (Din.bind_some (dinU64_pair a _)).trans ((Din.bind_some (dinU64_pair b _)).trans
      (Din.map_some (dinU64_pair c rest)))

theorem completes_quaternary64 {f : DWord → DWord → DWord → DWord → DWord} (hexec : ∀ s, exec i s = quaternary64 f s)
    (a b c d : DWord) : Completes i (pairs [a, b, c, d]) (pair (f a b c d)) :=
  completes_of_result64 hexec fun rest =>
    (Din.bind_some (dinU64_pair a _)).trans ((Din.bind_some (dinU64_pair b _)).trans
      ((Din.bind_some (dinU64_pair c _)).trans (Din.map_some (dinU64_pair d rest))))

theorem completes_quinary64 {f : DWord → DWord → DWord → DWord → DWord → DWord}
    (hexec : ∀ s, exec i s = quinary64 f s) (a b c d e : DWord) :
    Completes i (pairs [a, b, c, d, e]) (pair (f a b c d e)) :=
  completes_of_result64 hexec fun rest =>
    (Din.bind_some (dinU64_pair a _)).trans ((Din.bind_some (dinU64_pair b _)).trans
      ((Din.bind_some (dinU64_pair c _)).trans ((Din.bind_some (dinU64_pair d _)).trans
        (Din.map_some (dinU64_pair e rest)))))

end

/-! ### Bitwise operations, half by half -/

theorem dwordOf_xor (ah al bh bl : Word) : dwordOf ah al ^^^ dwordOf bh bl = dwordOf (ah ^^^ bh) (al ^^^ bl) := by
  rw [dwordOf_eq_append, dwordOf_eq_append, dwordOf_eq_append]
  exact BitVec.xor_append

theorem dwordOf_and (ah al bh bl : Word) : dwordOf ah al &&& dwordOf bh bl = dwordOf (ah &&& bh) (al &&& bl) := by
  rw [dwordOf_eq_append, dwordOf_eq_append, dwordOf_eq_append]
  exact BitVec.and_append

theorem dwordOf_or (ah al bh bl : Word) : dwordOf ah al ||| dwordOf bh bl = dwordOf (ah ||| bh) (al ||| bl) := by
  rw [dwordOf_eq_append, dwordOf_eq_append, dwordOf_eq_append]
  exact BitVec.or_append

theorem dwordOf_not (hi lo : Word) : ~~~dwordOf hi lo = dwordOf (~~~hi) (~~~lo) := by
  rw [dwordOf_eq_append, dwordOf_eq_append]
  exact BitVec.not_append

/-- Settles O52: each function is made of operations that work half by half. -/
theorem bitwiseOperations64 : Obligations.BitwiseOperations64 := by
  refine ⟨rfl, rfl, rfl, rfl, fun ah al bh bl ch cl dh dl eh el => ⟨?_, ?_, ?_, ?_⟩⟩
  · simpa [pairs, xor64x2, dwordOf_xor] using
      completes_binary64 (i := .xor64x2) (fun _ => rfl) (dwordOf ah al) (dwordOf bh bl)
  · simpa [pairs, xor64x5, dwordOf_xor] using
      completes_quinary64 (i := .xor64x5) (fun _ => rfl) (dwordOf ah al) (dwordOf bh bl) (dwordOf ch cl) (dwordOf dh dl)
        (dwordOf eh el)
  · simpa [pairs, ch64, dwordOf_xor, dwordOf_and, dwordOf_not] using
      completes_ternary64 (i := .ch64) (fun _ => rfl) (dwordOf ah al) (dwordOf bh bl) (dwordOf ch cl)
  · simpa [pairs, maj64, dwordOf_xor, dwordOf_and] using
      completes_ternary64 (i := .maj64) (fun _ => rfl) (dwordOf ah al) (dwordOf bh bl) (dwordOf ch cl)

/-! ### Rotates and shift, in pair form -/

theorem getLsbD_dwordOf (hi lo : Word) (j : Nat) :
    (dwordOf hi lo).getLsbD j = if j < 32 then lo.getLsbD j else hi.getLsbD (j - 32) := by
  rw [dwordOf_eq_append, BitVec.getLsbD_append]

/-- R143: what a shift right takes from the high half, the low half gets. -/
theorem dwordOf_ushiftRight (hi lo : Word) {n : Nat} (hn : n ≤ 32) :
    dwordOf hi lo >>> n = dwordOf (hi >>> n) ((lo >>> n) ||| (hi <<< (32 - n))) := by
  apply BitVec.eq_of_getLsbD_eq
  intro j hj
  simp only [getLsbD_dwordOf, BitVec.getLsbD_ushiftRight, BitVec.getLsbD_or, BitVec.getLsbD_shiftLeft]
  -- by the half bit `j` is in and the half it comes from
  grind

/-- R141: what a shift left takes from the low half, the high half gets. -/
theorem dwordOf_shiftLeft (hi lo : Word) {n : Nat} (hn : n ≤ 32) :
    dwordOf hi lo <<< n = dwordOf ((hi <<< n) ||| (lo >>> (32 - n))) (lo <<< n) := by
  apply BitVec.eq_of_getLsbD_eq
  intro j hj
  simp only [getLsbD_dwordOf, BitVec.getLsbD_ushiftRight, BitVec.getLsbD_or, BitVec.getLsbD_shiftLeft]
  -- by the same two halves
  grind

theorem dwordOf_ushiftRight_32 (hi lo : Word) : dwordOf hi lo >>> 32 = dwordOf 0 hi := by
  rw [dwordOf_ushiftRight hi lo le_rfl]
  simp [BitVec.ushiftRight_eq_zero]

theorem dwordOf_shiftLeft_32 (hi lo : Word) : dwordOf hi lo <<< 32 = dwordOf lo 0 := by
  rw [dwordOf_shiftLeft hi lo le_rfl]
  simp

/-- R141: up to 32 each half shifts left, and takes at its low end what the other half loses. -/
theorem rotl64_dwordOf (hi lo : Word) {n : Nat} (hn : n ≤ 32) :
    rotl64 (dwordOf hi lo) n = dwordOf ((hi <<< n) ||| (lo >>> (32 - n))) ((lo <<< n) ||| (hi >>> (32 - n))) := by
  have hright : 64 - n = 32 + (32 - n) := by omega
  rw [rotl64, hright, BitVec.shiftRight_add, dwordOf_ushiftRight_32, dwordOf_shiftLeft hi lo hn,
    dwordOf_ushiftRight 0 hi (Nat.sub_le 32 n), dwordOf_or]
  simp

/-- R141: rotating by 32 more swaps the halves. -/
theorem rotl64_dwordOf_add_32 (hi lo : Word) {n : Nat} (hn : n ≤ 32) :
    rotl64 (dwordOf hi lo) (32 + n) = rotl64 (dwordOf lo hi) n := by
  have hright : 64 - (32 + n) = 32 - n := by omega
  rw [rotl64_dwordOf lo hi hn, rotl64, hright, BitVec.shiftLeft_add, dwordOf_shiftLeft_32, dwordOf_shiftLeft lo 0 hn,
    dwordOf_ushiftRight hi lo (Nat.sub_le 32 n), Nat.sub_sub_self hn, dwordOf_or]
  simp [BitVec.or_comm]

/-- R141: the pair form of a rotate left, with its case split at 32. -/
theorem pair_rotl64 (hi lo : Word) {n : Nat} (hn : n < 64) :
    pair (rotl64 (dwordOf hi lo) n) =
      if n < 32 then [(hi <<< n) ||| (lo >>> (32 - n)), (lo <<< n) ||| (hi >>> (32 - n))]
      else [(lo <<< (n - 32)) ||| (hi >>> (64 - n)), (hi <<< (n - 32)) ||| (lo >>> (64 - n))] := by
  split
  · next h => rw [rotl64_dwordOf hi lo h.le, pair_dwordOf]
  · next h =>
    obtain ⟨m, rfl⟩ := Nat.exists_eq_add_of_le (not_lt.mp h)
    have hm : m ≤ 32 := by omega
    have hright : 64 - (32 + m) = 32 - m := by omega
    rw [rotl64_dwordOf_add_32 hi lo hm, rotl64_dwordOf lo hi hm, pair_dwordOf, Nat.add_sub_cancel_left, hright]

theorem rotr64_eq_ofNat (x : DWord) (n : Nat) :
    rotr64 x n = BitVec.ofNat 64 (((x.toNat >>> n) ||| (x.toNat <<< (64 - n))) % 2 ^ 64) := by
  apply BitVec.eq_of_toNat_eq
  have hlow : x.toNat >>> n < 2 ^ 64 := (Nat.shiftRight_le _ _).trans_lt x.isLt
  rw [BitVec.toNat_ofNat, Nat.mod_mod, Nat.or_mod_two_pow, Nat.mod_eq_of_lt hlow]
  rfl

/-- R143: the pair form of a shift right. -/
theorem pair_shr64 (hi lo : Word) {n : Nat} (hn : n ≤ 32) :
    pair (shr64 (dwordOf hi lo) n) = [hi >>> n, (lo >>> n) ||| (hi <<< (32 - n))] := by
  rw [shr64, dwordOf_ushiftRight hi lo hn, pair_dwordOf]

/-- As `decode_amount`, where what is claimed of the command holds of the admitted amounts only. -/
theorem decode_amount_of_admitted {i : Instr} {opc : BitVec 8} {n : BitVec 6} {admitted claim : Prop}
    [Decidable admitted] (hfields : i.fields = { Fields.bare opc with n := n })
    (hline : decodeFields i.fields = i.fields.only usesN (ifAdmitted i .valueNotAdmitted))
    (hi : i.wellFormed = false ↔ ¬admitted) (hclaim : admitted → claim) :
    if admitted then decode (opc ++ 0#4 ++ n ++ 0#14) = .instr i ∧ claim
    else ∃ r, decode (opc ++ 0#4 ++ n ++ 0#14) = .illegal r := by
  have hdecode := decode_amount hfields hline hi hclaim
  split
  · next ha =>
    rw [if_pos ha] at hdecode
    exact hdecode.imp_right fun himp => himp ha
  · next ha => rwa [if_neg ha] at hdecode

/-- Settles O51: the amounts by `decode_amount`, the results by the functions' pair forms. -/
theorem rotates64 : Obligations.Rotates64 := by
  intro n
  refine ⟨decode_amount rfl rfl (rotl64_illformed n) fun hi lo => ?_,
    decode_amount rfl rfl (rotr64_illformed n) fun x => ?_,
    decode_amount_of_admitted rfl rfl (shr64_illformed n) fun hn hi lo => ?_⟩
  · rw [← pair_rotl64 hi lo n.isLt, ← pair_dwordOf hi lo]
    exact completes_unary64 (f := fun x => rotl64 x n.toNat) (fun _ => rfl) _
  · rw [← rotr64_eq_ofNat]
    exact completes_unary64 (f := fun x => rotr64 x n.toNat) (fun _ => rfl) x
  · have hle : n.toNat ≤ 32 := by
      simp only [List.mem_cons, List.not_mem_nil, or_false] at hn
      omega
    rw [← pair_shr64 hi lo hle, ← pair_dwordOf hi lo]
    exact completes_unary64 (f := fun x => shr64 x n.toNat) (fun _ => rfl) _

/-! ### The mixing functions of SHA-512, bit by bit -/

/-- R142: rotating right by `n` brings bit `j + n` around the value to bit `j`. -/
theorem getLsbD_rotr64 (x : DWord) {n j : Nat} (hn : n < 64) (hj : j < 64) :
    (rotr64 x n).getLsbD j = x.getLsbD ((j + n) % 64) := by
  have hrotate : rotr64 x n = x.rotateRight n := by rw [BitVec.rotateRight_def, Nat.mod_eq_of_lt hn, rotr64]
  rw [hrotate, BitVec.getLsbD_rotateRight, Nat.mod_eq_of_lt hn]
  by_cases h : j + n < 64
  · have hright : j < 64 - n := by omega
    simp [Nat.mod_eq_of_lt h, hright, Nat.add_comm n j]
  · have hleft : ¬j < 64 - n := by omega
    have hwrap : j - (64 - n) = (j + n) % 64 := by omega
    simp [hleft, hj, hwrap]

/-- R143: shifting right by `n` brings bit `j + n` to bit `j`, and zeros from the end of the value on. -/
theorem getLsbD_shr64 (x : DWord) (n j : Nat) :
    (shr64 x n).getLsbD j = (decide (j + n < 64) && x.getLsbD (j + n)) := by
  rw [shr64, BitVec.getLsbD_ushiftRight, Nat.add_comm]
  by_cases h : j + n < 64
  · simp [h]
  · simp [h, BitVec.getLsbD_of_ge x (j + n) (by omega)]

/-- Settles O53: each function is an XOR of rotates and a shift, so its bits are those of `getLsbD_rotr64` and
`getLsbD_shr64`. -/
theorem sigmaGamma512 : Obligations.SigmaGamma512 := by
  refine ⟨rfl, rfl, rfl, rfl, fun x =>
    ⟨sigma0x512 x, sigma1x512 x, gamma0x512 x, gamma1x512 x, fun j hj => ⟨?_, ?_, ?_, ?_⟩, ?_, ?_, ?_, ?_⟩⟩
  · simp (disch := omega) only [sigma0x512, BitVec.getLsbD_xor, getLsbD_rotr64]
  · simp (disch := omega) only [sigma1x512, BitVec.getLsbD_xor, getLsbD_rotr64]
  · simp (disch := omega) only [gamma0x512, BitVec.getLsbD_xor, getLsbD_rotr64, getLsbD_shr64]
  · simp (disch := omega) only [gamma1x512, BitVec.getLsbD_xor, getLsbD_rotr64, getLsbD_shr64]
  all_goals exact completes_unary64 (fun _ => rfl) x

/-! ### Additions -/

/-- R146 to R148: each addition writes the sum of its operands, reduced to 64 bits. -/
theorem completes_add64 {i : Instr} {xs : List DWord}
    (h : (i = .add64x2 ∧ xs.length = 2) ∨ (i = .add64x4 ∧ xs.length = 4) ∨ (i = .add64x5 ∧ xs.length = 5)) :
    Completes i (pairs xs) (pair (BitVec.ofNat 64 (xs.map BitVec.toNat).sum)) := by
  obtain ⟨rfl, hlen⟩ | ⟨rfl, hlen⟩ | ⟨rfl, hlen⟩ := h
  · match xs, hlen with
    | [a, b], _ => simpa [add64x2] using completes_binary64 (f := add64x2) (fun _ => rfl) a b
  · match xs, hlen with
    | [a, b, c, d], _ =>
      simpa [add64x4, Nat.add_assoc] using completes_quaternary64 (f := add64x4) (fun _ => rfl) a b c d
  · match xs, hlen with
    | [a, b, c, d, e], _ =>
      simpa [add64x5, Nat.add_assoc] using completes_quinary64 (f := add64x5) (fun _ => rfl) a b c d e

/-- R140: a sum of (high, low) pairs is 2^32 times the sum of their high words and the sum of their low ones. -/
theorem sum_zip_eq_halves {his los : List Word} (h : los.length = his.length) :
    ((his.zip los).map fun x => x.1.toNat * 2 ^ 32 + x.2.toNat).sum =
      2 ^ 32 * (his.map BitVec.toNat).sum + (los.map BitVec.toNat).sum := by
  have hhis : his.map BitVec.toNat = (his.zip los).map fun x => x.1.toNat := by
    conv_lhs => rw [← List.map_fst_zip h.ge, List.map_map]
    rfl
  have hlos : los.map BitVec.toNat = (his.zip los).map fun x => x.2.toNat := by
    conv_lhs => rw [← List.map_snd_zip h.le, List.map_map]
    rfl
  rw [List.sum_map_add, List.sum_map_mul_right, Nat.mul_comm, hhis, hlos]

/-- R146: the words of a sum, the carry of the low words added to the high ones. -/
theorem pair_ofNat_halves (hi lo : Nat) :
    pair (BitVec.ofNat 64 (2 ^ 32 * hi + lo)) =
      [BitVec.ofNat 32 ((hi + (lo >>> 32)) % 2 ^ 32), BitVec.ofNat 32 (lo % 2 ^ 32)] := by
  simp only [pair, List.cons.injEq, and_true, ← BitVec.toNat_inj, BitVec.toNat_ofNat, Nat.shiftRight_eq_div_pow]
  omega

theorem completes_add64_halves {i : Instr} {his los : List Word}
    (h : (i = .add64x2 ∧ his.length = 2) ∨ (i = .add64x4 ∧ his.length = 4) ∨ (i = .add64x5 ∧ his.length = 5))
    (hlos : los.length = his.length) :
    Completes i ((his.zip los).flatMap fun x => [x.1, x.2])
      (pair (BitVec.ofNat 64 (2 ^ 32 * (his.map BitVec.toNat).sum + (los.map BitVec.toNat).sum))) := by
  have hlen : ((his.zip los).map fun x => dwordOf x.1 x.2).length = his.length := by simp [hlos]
  rw [← hlen] at h
  rw [← sum_zip_eq_halves hlos]
  simpa only [pairs, List.flatMap_map, List.map_map, Function.comp_def, pair_dwordOf, dwordOf_toNat] using
    completes_add64 h

/-- Settles O54: the sum itself, and the halves as a way to write the same words. -/
theorem additions64 : Obligations.Additions64 := by
  refine ⟨rfl, rfl, rfl, fun i his los h hlos => ⟨?_, ?_⟩⟩
  · rw [← BitVec.toNat_ofNat, BitVec.ofNat_toNat, BitVec.setWidth_eq, sum_zip_eq_halves hlos]
    exact completes_add64_halves h hlos
  · intro lo hi
    rw [← pair_ofNat_halves]
    exact completes_add64_halves h hlos

end Sys2Proof.Machine
end

section
/-! PROOFS. What the engine's commands make of their checks (spec 42_engine_hmac.md R179, R194; 60_exceptions.md R307):
the operands as they stand on `DIN`, the code of the first check that applies, and the errors of the block operations and
of the context commands other than INIT. -/

namespace Sys2Proof.Machine

open Sys2Proof.Claims

/-! ### Operands on `DIN` -/

/-- R77: the operand words a wire form carries, after its two length words. -/
def operandOf (n : Nat) (ws : List Word) : WireString where
  bitLen := n
  words := ws.drop 2

@[simp] theorem operandOf_bitLen (n : Nat) (ws : List Word) : (operandOf n ws).bitLen = n := rfl

@[simp] theorem operandOf_unaligned (n : Nat) (ws : List Word) : (operandOf n ws).unaligned = decide (n % 8 ≠ 0) := by
  simp [WireString.unaligned, bne, beq_eq_decide]

/-- R77: a string of `n` bits on the wire is read as its length and its words. -/
theorem dinString_of_wireBits {n : Nat} {ws : List Word} (h : WireBits n ws) (rest : List Word) :
    dinString (ws ++ rest) = some (operandOf n ws, rest) := by
  obtain ⟨hn, packed, rfl, hlen⟩ := h
  exact dinString_append n packed rest hn hlen

/-- R77: the wire form of a byte string is one of its bit length. -/
theorem wireBits_of_wire {o : ByteOrder} {b : List Byte} {ws : List Word} (h : Wire o b ws) :
    WireBits (8 * b.length) ws := by
  obtain ⟨hb, packed, hws, hlen, -⟩ := h
  exact ⟨hb, packed, hws, hlen⟩

/-- R77: and its operand words hold the string's bytes. -/
theorem bytes_operandOf_of_wire {o : ByteOrder} {b : List Byte} {ws : List Word} (h : Wire o b ws) :
    (operandOf (8 * b.length) ws).bytes o = b := by
  obtain ⟨-, packed, rfl, -, hb⟩ := h
  rw [WireString.bytes, operandOf, Nat.mul_div_cancel_left _ (by decide)]
  exact hb

/-- R98: an optional length is read where its flag says it is there. -/
theorem dinLen_when_append {l : Option Nat} (hl : ∀ n, l = some n → n < 2 ^ 64) (rest : List Word) :
    dinLen.when l.isSome (optionLen l ++ rest) = some (l, rest) := by
  cases l with
  | none => rfl
  | some n => exact Din.map_some (dinLen_lenWords n (hl n rfl) rest)

/-! ### The code of the first check that applies -/

/-- R303, R307: a list of checks, with the code of each error. -/
def Checks.codes (l : Checks) : List (Bool × BitVec 8) := l.map fun x => (x.1, x.2.code)

/-- R307: where the first code is not `OK`, it is that of the error raised. -/
theorem exists_firstError_of_firstCode {l : Checks} (h : firstCode l.codes ≠ 0x00) :
    ∃ e, firstError l = some e ∧ e.code = firstCode l.codes := by
  induction l with
  | nil => exact absurd rfl h
  | cons x rest ih =>
    obtain ⟨b, e⟩ := x
    cases b
    · exact ih h
    · exact ⟨e, rfl, rfl⟩

theorem exists_firstError_of_codes {l : Checks} {codes : List (Bool × BitVec 8)} (hl : l.codes = codes)
    (h : firstCode codes ≠ 0x00) : ∃ e, firstError l = some e ∧ e.code = firstCode codes := by
  subst hl
  exact exists_firstError_of_firstCode h

theorem firstError_append (l m : Checks) : firstError (l ++ m) = (firstError l).or (firstError m) := by
  induction l with
  | nil => rfl
  | cons x rest ih =>
    obtain ⟨b, e⟩ := x
    cases b
    · simpa using ih
    · rfl

/-- R194: a test-port operation whose operands are there and one of whose checks applies raises the first such error. -/
theorem portCommand_portError {α : Type} {read : Din α} {checks : Config.Params → α → Checks}
    {result : α → List Word} {s : State} {x : α} {rest : List Word} (hread : read s.din = some (x, rest))
    (h : firstCode (checks s.params x).codes ≠ 0x00) :
    portCommand read checks result s = .next (portError s rest (firstCode (checks s.params x).codes)) := by
  obtain ⟨e, he, hcode⟩ := exists_firstError_of_firstCode h
  rw [portCommand_raises hread he, ← hcode]
  simp [State.raise, State.take, portError]

/-! ### The block operations of the test port -/

theorem dinFive_append {ws : List Word} (h : ws.length = 5) (rest : List Word) :
    dinFive (ws ++ rest) = some (fiveOf 0 ws, rest) :=
  Din.map_some (dinWords_append ws rest 5 h)

theorem dinEight_append {ws : List Word} (h : ws.length = 8) (rest : List Word) :
    dinEight (ws ++ rest) = some (eightOf 0 ws, rest) :=
  Din.map_some (dinWords_append ws rest 8 h)

theorem dinEightU64_append {ws : List Word} (h : ws.length = 16) (rest : List Word) :
    dinEightU64 (ws ++ rest) = some (eightOf 0 (dwordsOf ws), rest) :=
  Din.map_some (Din.map_some (dinWords_append ws rest 16 h))

theorem dinLanes_append {ws : List Word} (h : ws.length = 50) (rest : List Word) :
    dinLanes (ws ++ rest) = some (lanesOf (dwordsOf ws), rest) :=
  Din.map_some (Din.map_some (dinWords_append ws rest 50 h))

section
variable {σ : Type} {dinH : Din σ} {hw mw rest : List Word} {h : σ} {p n : Nat}

/-- R217, R241, R248: the operands of a finalize operation. -/
theorem dinFinalize_append (hH : ∀ later, dinH (hw ++ later) = some (h, later)) (hp : p < 2 ^ 64)
    (hm : WireBits n mw) :
    dinFinalize dinH (hw ++ (lenWords p ++ (mw ++ rest))) = some (⟨h, p, operandOf n mw⟩, rest) := by
  rw [dinFinalize, Din.bind_some (hH _), Din.bind_some (dinLen_lenWords p hp _),
    Din.map_some (dinString_of_wireBits hm rest)]

/-- R194 (1), (2), (3): the codes of its checks. -/
theorem codes_finalizeChecks (block : Nat) (params : Config.Params) :
    (finalizeChecks block params p (operandOf n mw)).codes =
      [(decide (n % 8 ≠ 0), 0x13), (decide (params.maxTotalBits < n ∨ params.maxTotalBits < p + n), 0x43),
       (decide (p % block ≠ 0), 0x44)] := by
  simp [Checks.codes, finalizeChecks, Error.code, bne, beq_eq_decide]

theorem portCommand_finalize_portError {block : Nat} {result : FinalizeOperands σ → List Word} {s : State}
    (hH : ∀ later, dinH (hw ++ later) = some (h, later)) (hp : p < 2 ^ 64) (hm : WireBits n mw)
    (hdin : s.din = hw ++ (lenWords p ++ (mw ++ rest)))
    (hcode : firstCode (finalizeChecks block s.params p (operandOf n mw)).codes ≠ 0x00) :
    portCommand (dinFinalize dinH) (fun params x => finalizeChecks block params x.p x.m) result s =
      .next (portError s rest (firstCode (finalizeChecks block s.params p (operandOf n mw)).codes)) :=
  portCommand_portError (hdin ▸ dinFinalize_append hH hp hm) hcode

end

/-- R278: the operands of SHA3_FINALIZE. -/
theorem dinSha3_append {aw mw rest : List Word} {ob n : Nat} (ha : aw.length = 50) (hob : ob < 2 ^ 64)
    (hm : WireBits n mw) :
    dinSha3 (aw ++ (lenWords ob ++ (mw ++ rest))) = some (⟨lanesOf (dwordsOf aw), ob, operandOf n mw⟩, rest) := by
  rw [dinSha3, Din.bind_some (dinLanes_append ha _), Din.bind_some (dinLen_lenWords ob hob _),
    Din.map_some (dinString_of_wireBits hm rest)]

/-- R278: the codes of its checks. -/
theorem codes_sha3Checks (params : Config.Params) (a : Lanes) (ob n : Nat) (mw : List Word) :
    (sha3Checks params ⟨a, ob, operandOf n mw⟩).codes =
      [(decide (n % 8 ≠ 0), 0x13), (decide (params.maxTotalBits < n), 0x43), (decide (ob % 8 ≠ 0), 0x31),
       (decide (params.maxOutputBits < ob), 0x43)] := by
  simp [Checks.codes, sha3Checks, Error.code, bne, beq_eq_decide]

/-- R194 (1), (2): the codes of the checks of a string operand. -/
theorem codes_stringChecks (params : Config.Params) (n : Nat) (mw : List Word) :
    Checks.codes (stringChecks params (operandOf n mw)) =
      [(decide (n % 8 ≠ 0), 0x13), (decide (params.maxTotalBits < n), 0x43)] := by
  simp [Checks.codes, stringChecks, Error.code]

/-- Settles O35: each operation's operands are read, and the codes of its checks are those of its list. -/
theorem blockOperationErrors : Obligations.BlockOperationErrors := by
  intro s rest mw n hm
  refine ⟨fun hw p hp hdin => ?_, fun aw ob v d ha hob hdin hcode => ?_, fun hdin hcode => ?_,
    fun w hdin hcode => ?_⟩
  · simp only [← codes_finalizeChecks (mw := mw)]
    refine ⟨fun hh hcode => ?_, fun hh hcode v => ?_, fun hh hcode v => ?_⟩
    · exact portCommand_finalize_portError (dinFive_append hh) hp hm hdin hcode
    · exact portCommand_finalize_portError (dinEight_append hh) hp hm hdin hcode
    · exact portCommand_finalize_portError (dinEightU64_append hh) hp hm hdin hcode
  · rw [← codes_sha3Checks s.params (lanesOf (dwordsOf aw)) ob n mw] at hcode ⊢
    exact portCommand_portError (hdin ▸ dinSha3_append ha hob hm) hcode
  · rw [← codes_stringChecks s.params n mw] at hcode ⊢
    exact portCommand_portError (hdin ▸ dinString_of_wireBits hm rest) hcode
  · have hcodes : Checks.codes (stringChecks s.params (operandOf n mw) ++ [(w == 0, .operandRange)]) =
        [(decide (n % 8 ≠ 0), 0x13), (decide (s.params.maxTotalBits < n), 0x43), (decide (w = 0), 0x44)] := by
      simp [Checks.codes, stringChecks, Error.code, beq_eq_decide]
    rw [← hcodes] at hcode ⊢
    have hread : (dinWord.bind fun w => dinString.map fun x => (w, x)) s.din = some ((w, operandOf n mw), rest) := by
      rw [hdin, Din.bind_some (dinWord_cons w _), Din.map_some (dinString_of_wireBits hm rest)]
    exact portCommand_portError (checks := fun params x => stringChecks params x.2 ++ [(x.1 == 0, .operandRange)])
      hread hcode

/-! ### The context commands other than INIT -/

/-- R305: what an error of a context command other than INIT leaves. -/
theorem raise_context_eq_contextError (s : State) (rest : List Word) {e : Error} (he : e ≠ .illegalCommand) :
    State.raise .context e (s.take rest) = contextError s rest e.code := by
  simp [State.raise, State.take, contextError, he]

/-- R179, R307: a context command whose operands are there raises the first error of the common entry and its checks,
whose codes are `codes`. -/
theorem exec_contextError {α : Type} {i : Instr} {read : Din α}
    {run : Config.Params → Context → α → Except Error (Context × List Word)}
    (hi : ∀ s, exec i s = boundCommand read run s) {s : State} {c : Context}
    (hc : s.poisoned = false → s.bound = true → s.ctx = some c) {x : α} {rest : List Word}
    (hread : read s.din = some (x, rest)) {checks : Checks} {codes : List (Bool × BitVec 8)}
    (hcodes : checks.codes = codes)
    (hrun : ∀ e, firstError checks = some e → e ≠ .illegalCommand ∧ run s.params c x = .error e)
    (hcode : firstCode ([(s.poisoned, 0x42), (!s.bound, 0x41)] ++ codes) ≠ 0x00) :
    exec i s = .next (contextError s rest (firstCode ([(s.poisoned, 0x42), (!s.bound, 0x41)] ++ codes))) := by
  subst hcodes
  rw [hi]
  cases hp : s.poisoned with
  | true =>
    have hentry : s.entry = .error .contextPoisoned := by simp [State.entry, hp]
    rw [boundCommand_entry hread hentry, raise_context_eq_contextError s rest (by decide)]
    rfl
  | false =>
    cases hb : s.bound with
    | false =>
      have hentry : s.entry = .error .notInitialised := by simp [State.entry, hp, hb]
      rw [boundCommand_entry hread hentry, raise_context_eq_contextError s rest (by decide)]
      rfl
    | true =>
      rw [hp, hb] at hcode
      obtain ⟨e, he, hcode⟩ := exists_firstError_of_firstCode hcode
      obtain ⟨hillegal, herr⟩ := hrun e he
      rw [boundCommand_raises hread (State.entry_ok.mpr ⟨hp, hb, hc hp hb⟩) herr,
        raise_context_eq_contextError s rest hillegal, hcode]
      rfl

section
variable (params : Config.Params) (c : Context) (n : Nat) (dw : List Word)

/-- R182: the codes of UPDATE's checks. -/
theorem codes_updateChecks :
    (updateChecks params c (operandOf n dw)).codes =
      [(decide (n % 8 ≠ 0), 0x13), (decide (params.maxTotalBits < c.processedBits + 8 * c.rem.length + n), 0x43)] := by
  simp [Checks.codes, updateChecks, Error.code]

/-- R184: the codes of SET_HMAC_KEY's checks. -/
theorem codes_setKeyChecks :
    (setKeyChecks params c (operandOf n dw)).codes =
      [(decide (n % 8 ≠ 0), 0x13), (!hmacOk c.variant, 0x24), (c.macKeySet, 0x20), (c.updateCalled, 0x21),
       (decide (1 < c.numRounds.toNat), 0x03),
       (decide (params.maxTotalBits < n ∨ params.maxTotalBits < blockBits c.variant), 0x43)] := by
  simp [Checks.codes, setKeyChecks, Error.code]

end

/-- R173, R307: the checks of an output length, made where the command reads one; `p` says whether it was given. -/
def lengthChecks (params : Config.Params) (reads p : Bool) (n : Nat) : Checks :=
  [(!p && reads, .outputLenMissing), (decide (n % 8 ≠ 0) && reads, .outputLenNotByte),
   (decide (params.maxOutputBits < n) && reads, .lengthLimit)]

/-- R98: an optional length operand. -/
def lengthOf (p : Bool) (n : Nat) : Option Nat := if p then some n else none

theorem dinLen_when_lengthOf {p : Bool} {n : Nat} (hn : n < 2 ^ 64) (rest : List Word) :
    dinLen.when p ((if p then lenWords n else []) ++ rest) = some (lengthOf p n, rest) := by
  cases p with
  | false => rfl
  | true => exact Din.map_some (dinLen_lenWords n hn rest)

/-- R30: the output length is variable exactly where the descriptor has none. -/
theorem varLen_eq (v : Variant) : varLen v = (outBits v).isNone := by cases v <;> rfl

section
variable {params : Config.Params} {c : Context} {v : Variant} {p : Bool} {n : Nat} {e : Error}

/-- R173: the error of an output length. -/
theorem outBitsOf_error (h : firstError (lengthChecks params (varLen v) p n) = some e) :
    outBitsOf params v (lengthOf p n) = .error e := by
  rw [varLen_eq] at h
  cases hv : outBits v with
  | some k => simp [hv, lengthChecks] at h
  | none =>
    cases p with
    | false => simpa [hv, lengthChecks, outBitsOf, lengthOf] using h
    | true =>
      simp only [hv, outBitsOf, lengthOf, if_true]
      refine checked_of_some ?_
      simpa [hv, lengthChecks] using h

/-- R186: the error of GET_HASH. -/
theorem hashResult_error
    (h : firstError ((c.macKeySet, .hashOnKeyed) :: lengthChecks params (varLen c.variant) p n) = some e) :
    hashResult params c (lengthOf p n) = .error e := by
  cases hkey : c.macKeySet with
  | true => simpa [hkey, hashResult] using h
  | false =>
    rw [hkey] at h
    simp only [hashResult, hkey, outBitsOf_error h]
    rfl

/-- R188: the error of GET_HMAC. -/
theorem hmacResult_error
    (h : firstError [(!hmacOk c.variant, .macUnsupported), (!c.macKeySet, .macWithoutKey)] = some e) :
    hmacResult c = .error e := by
  rw [hmacResult, h]

/-- R190: the error of GET_MAC, which reads a length on a KMAC context only. -/
theorem macResult_error
    (h : firstError ((hasNoMac c.variant, .macUnsupported) :: (!c.macKeySet, .macWithoutKey) ::
      lengthChecks params (isKmac c.variant) p n) = some e) :
    macResult params c (lengthOf p n) = .error e := by
  have hsplit := (firstError_append [(hasNoMac c.variant, .macUnsupported), (!c.macKeySet, .macWithoutKey)]
    (lengthChecks params (isKmac c.variant) p n)).symm.trans h
  unfold macResult
  cases hmac : firstError [(hasNoMac c.variant, .macUnsupported), (!c.macKeySet, .macWithoutKey)] with
  | some e' =>
    rw [hmac] at hsplit
    exact congrArg Except.error (Option.some.inj hsplit)
  | none =>
    rw [hmac, Option.none_or] at hsplit
    cases hk : isKmac c.variant with
    | false => simp [hk, lengthChecks] at hsplit
    | true =>
      have hvar : varLen c.variant = true := by revert hk; cases c.variant <;> decide
      rw [hk, ← hvar] at hsplit
      simp only [if_true, outBitsOf_error hsplit]

end

/-- The variants R175 and R190 name are those of the model's predicates. -/
theorem hasNoMac_eq (v : Variant) :
    hasNoMac v = decide (v = .shake128 ∨ v = .shake256 ∨ v = .cshake128 ∨ v = .cshake256) := by
  cases v <;> rfl

/-- Settles O28: each command's operands are read, and the codes of its checks are those of its list. -/
theorem contextCommandErrors : Obligations.ContextCommandErrors := by
  intro s rest c hc
  refine ⟨fun dw n hd hdin => ⟨?_, ?_⟩, fun p n hn hdin => ⟨?_, ?_⟩, fun hdin => ?_⟩
  · refine exec_contextError (i := .update) execUpdate.eq_1 hc (hdin ▸ dinString_of_wireBits hd rest)
      (codes_updateChecks s.params c n dw) fun e he => ?_
    exact ⟨(updateChecks_errors he).2, checked_of_some he⟩
  · refine exec_contextError (i := .setHmacKey) execSetHmacKey.eq_1 hc (hdin ▸ dinString_of_wireBits hd rest)
      (codes_setKeyChecks s.params c n dw) fun e he => ?_
    exact ⟨(setKeyChecks_errors he).2, checked_of_some he⟩
  · refine exec_contextError (i := .getHash p) (execGetHash.eq_1 p) hc (hdin ▸ dinLen_when_lengthOf hn rest)
      (checks := (c.macKeySet, .hashOnKeyed) :: lengthChecks s.params (varLen c.variant) p n) rfl fun e he => ?_
    have herr := hashResult_error he
    exact ⟨(hashResult_errors herr).2, by rw [herr, getAnswer]⟩
  · rw [← hasNoMac_eq]
    refine exec_contextError (i := .getMac p) (execGetMac.eq_1 p) hc (hdin ▸ dinLen_when_lengthOf hn rest)
      (checks := (hasNoMac c.variant, .macUnsupported) :: (!c.macKeySet, .macWithoutKey) ::
        lengthChecks s.params (isKmac c.variant) p n) rfl fun e he => ?_
    have herr := macResult_error he
    exact ⟨(macResult_errors herr).2, by rw [herr, getAnswer]⟩
  · refine exec_contextError (i := .getHmac) execGetHmac.eq_1 hc (congrArg (fun din => some ((), din)) hdin)
      (checks := [(!hmacOk c.variant, .macUnsupported), (!c.macKeySet, .macWithoutKey)]) rfl fun e he => ?_
    have herr := hmacResult_error he
    exact ⟨(hmacResult_errors herr).2, by rw [herr, getAnswer]⟩

end Sys2Proof.Machine
end

section
/-! PROOFS. What the context commands do to the context, whatever they compute (spec 42_engine_hmac.md R191 to R193):
the phase each leaves, the reads that change nothing, and what a step's results are a function of. -/

namespace Sys2Proof.Machine

/-! ### The phase of a state -/

section
variable {s t : State} {c : Context} {e : Error}

/-- R36, R179: past the common entry the phase is the context's. -/
theorem State.phase_of_entry_ok (h : s.entry = .ok c) : s.phase = c.phase := by
  obtain ⟨hp, hb, hctx⟩ := State.entry_ok.mp h
  simp [State.phase, hp, hb, hctx]

/-- R36, R179: the common entry refuses exactly the phases `POISONED` and `UNBOUND`. -/
theorem State.phase_of_entry_error (h : s.entry = .error e) :
    (s.phase = .poisoned ∧ e = .contextPoisoned) ∨ (s.phase = .unbound ∧ e = .notInitialised) := by
  unfold State.entry at h
  unfold State.phase
  cases hp : s.poisoned with
  | true => left; simpa [hp, eq_comm] using h
  | false =>
    right
    cases hb : s.bound with
    | false => simpa [hp, hb, eq_comm] using h
    | true => cases hctx : s.ctx <;> simp [hp, hb, hctx] at h ⊢; exact h.symm

end

/-- R305, R191: a context command that took its words and raised an error leaves the phase `POISONED`. -/
theorem exec_context_phase_of_error {i : Instr} (hi : i.commandClass = .context) {s t : State}
    (h : exec i s = .next t) (ht : t ≠ s) (hstatus : t.status ≠ 0x00) : t.phase = .poisoned := by
  obtain ⟨rfl, -⟩ | ⟨ops, rest, -, h⟩ := exec_effect h
  · exact absurd rfl ht
  · obtain ⟨hport, -⟩ | ⟨hport, -⟩ | ⟨-, -, e, -, he, rfl, -⟩ | ⟨-, -, c, c', out, -, -, rfl, -⟩ |
      ⟨_, _, _, _, -, e, -, he, rfl, -⟩ | ⟨_, _, _, _, c', -, rfl, -⟩ := h
    · rw [hi] at hport; cases hport
    · rw [hi] at hport; cases hport
    · simp [State.phase, he]
    · exact absurd rfl hstatus
    · simp [State.phase, he]
    · exact absurd rfl hstatus

/-- What the state after a context command shows of the command's run on the context: an error's code, or `STATUS` 0 and
the new context's phase. -/
def Ran (r : Except Error (Context × List Word)) (t : State) : Prop :=
  (∃ e, r = .error e ∧ t.status = e.code) ∨ ∃ c' out, r = .ok (c', out) ∧ t.status = 0x00 ∧ t.phase = c'.phase

theorem Ran.status_of_error {r : Except Error (Context × List Word)} {t : State} {e : Error} (h : Ran r t)
    (hr : r = .error e) : t.status = e.code := by
  subst hr
  obtain ⟨_, he, hstatus⟩ | ⟨_, _, hok, -⟩ := h
  · cases he; exact hstatus
  · cases hok

theorem Ran.phase_of_ok {r : Except Error (Context × List Word)} {t : State} (h : Ran r t) (hstatus : t.status = 0x00) :
    ∃ c' out, r = .ok (c', out) ∧ t.phase = c'.phase := by
  obtain ⟨e, -, he⟩ | ⟨c', out, hok, -, hphase⟩ := h
  · exact absurd (he.symm.trans hstatus) e.code_ne_ok
  · exact ⟨c', out, hok, hphase⟩

/-- R179, R191: a context command other than INIT that took its words was refused by the common entry, or ran on the
context, whose phase is the state's. -/
theorem exec_phase_cases {α : Type} {i : Instr} {read : Din α}
    {run : Config.Params → Context → α → Except Error (Context × List Word)}
    (hi : ∀ s, exec i s = boundCommand read run s) {s t : State} (h : exec i s = .next t) (ht : t ≠ s) :
    (s.phase = .unbound ∧ t.status = 0x41) ∨ (s.phase = .poisoned ∧ t.status = 0x42) ∨
    ∃ c x, s.ctx = some c ∧ s.phase = c.phase ∧ Ran (run s.params c x) t := by
  obtain ⟨-, rfl⟩ | ⟨x, rest, e, -, hentry | ⟨c, hc, hrun⟩, rfl⟩ | ⟨x, rest, c, c', out, -, hc, hrun, rfl⟩ :=
    boundCommand_cases ((hi s).symm.trans h)
  · exact absurd rfl ht
  · obtain ⟨hs, rfl⟩ | ⟨hs, rfl⟩ := State.phase_of_entry_error hentry
    · exact .inr (.inl ⟨hs, rfl⟩)
    · exact .inl ⟨hs, rfl⟩
  · obtain ⟨-, -, hctx⟩ := State.entry_ok.mp hc
    exact .inr (.inr ⟨c, x, hctx, State.phase_of_entry_ok hc, .inl ⟨e, hrun, rfl⟩⟩)
  · obtain ⟨hp, hb, hctx⟩ := State.entry_ok.mp hc
    have hphase : (State.complete out { s.take rest with ctx := some c' }).phase = c'.phase := by
      simp [State.phase, State.complete, State.take, hp, hb]
    exact .inr (.inr ⟨c, x, hctx, State.phase_of_entry_ok hc, .inr ⟨c', out, hrun, rfl, hphase⟩⟩)

/-! ### The phase INIT leaves -/

/-- R180: which contexts INIT leaves keyed. -/
theorem keyContext_macKeySet (v : Variant) (key : Option (List Byte)) (fn cust : List Byte) (nr : Word) :
    (keyContext v key fn cust (freshContext v nr)).macKeySet = (key.isSome && hmacOk v || isKmac v) := by
  unfold keyContext
  split
  · next hc =>
    have hv : hmacOk v = false ∧ isKmac v = false := by revert hc; cases v <;> decide
    unfold cshakeInit
    split <;> simp [hv, freshContext, absorbPrefix]
  · split
    · next hk => simp [hk, kmacInit]
    · next hk => cases key <;> cases hv : hmacOk v <;> simp [hk, applyHmacKey, freshContext]

theorem keyContext_updateCalled (v : Variant) (key : Option (List Byte)) (fn cust : List Byte) (nr : Word) :
    (keyContext v key fn cust (freshContext v nr)).updateCalled = false := by
  unfold keyContext
  split
  · unfold cshakeInit
    split <;> rfl
  · split
    · rfl
    · cases key with
      | none => rfl
      | some k => cases hv : hmacOk v <;> simp [applyHmacKey, freshContext]

/-- R36: before the first UPDATE the phase says whether a key is set. -/
theorem Context.phase_of_no_update {c : Context} (h : c.updateCalled = false) :
    c.phase = if c.macKeySet then .keyedFresh else .fresh := by
  cases hk : c.macKeySet <;> simp [Context.phase, h, hk]

/-- R98: INIT has a key exactly where its flag says so. -/
theorem dinInit_key_isSome {p f c : Bool} {din rest : List Word} {x : InitOperands}
    (h : dinInit p f c din = some (x, rest)) : x.key.isSome = p := by
  obtain ⟨nr, _, -, h⟩ := Din.bind_eq_some.mp h
  obtain ⟨key, _, hkey, h⟩ := Din.bind_eq_some.mp h
  obtain ⟨fn, _, -, h⟩ := Din.bind_eq_some.mp h
  obtain ⟨cust, -, rfl⟩ := Din.map_eq_some.mp h
  cases p with
  | false => cases hkey; rfl
  | true => obtain ⟨w, -, rfl⟩ := Din.map_eq_some.mp hkey; rfl

/-- R191: the phase an INIT that completed leaves. -/
theorem phase_of_init {v : Option Variant} {p f c : Bool} {s t : State} (h : exec (.init v p f c) s = .next t)
    (ht : t ≠ s) (hstatus : t.status = 0x00) :
    t.phase = if (p = true ∧ v.any hmacOk = true) ∨ v.any isKmac = true then .keyedFresh else .fresh := by
  obtain rfl | ⟨rest, e, -, -, rfl⟩ | ⟨rest, x, w, rfl, -, hread, rfl⟩ := exec_init h
  · exact absurd rfl ht
  · exact absurd hstatus e.code_ne_ok
  · have hkey := keyContext_macKeySet w (x.key.map (WireString.bytes (orderOf w))) (bytesOr (orderOf w) x.fn)
      (bytesOr (orderOf w) x.cust) x.nr
    rw [Option.isSome_map, dinInit_key_isSome hread] at hkey
    change Context.phase _ = _
    rw [Context.phase_of_no_update (keyContext_updateCalled ..), hkey]
    simp

/-! ### The rows of the table -/

/-- R36: the phase of a context names its two flags. -/
theorem Context.phase_cases (c : Context) :
    (c.phase = .fresh ∧ c.macKeySet = false ∧ c.updateCalled = false) ∨
    (c.phase = .finalizable ∧ c.macKeySet = false ∧ c.updateCalled = true) ∨
    (c.phase = .keyedFresh ∧ c.macKeySet = true ∧ c.updateCalled = false) ∨
    (c.phase = .keyedFinalizable ∧ c.macKeySet = true ∧ c.updateCalled = true) := by
  cases hk : c.macKeySet <;> cases hu : c.updateCalled <;> simp [Context.phase, hk, hu]

section
variable {p : Config.Params} {c : Context} {t : State}

/-- R182: an UPDATE that completed leaves the context after its first UPDATE, keyed or not as it was. -/
theorem phase_of_update {x : WireString} {data : List Byte}
    (h : Ran (checked (updateChecks p c x) (absorbData data c, [])) t) (hstatus : t.status = 0x00) :
    t.phase = if c.macKeySet then .keyedFinalizable else .finalizable := by
  obtain ⟨c', out, hok, hphase⟩ := h.phase_of_ok hstatus
  obtain ⟨-, hok⟩ := checked_ok hok
  cases hok
  rw [hphase]
  cases hk : c.macKeySet <;> simp [Context.phase, absorbData, hk]

/-- R184, R307: SET_HMAC_KEY refuses a context whose variant has no HMAC, that has a key, or that has been updated; a
string that is not whole bytes is refused before. -/
theorem setKeyChecks_refuses (x : WireString)
    (h : hmacOk c.variant = true → c.macKeySet = true ∨ c.updateCalled = true) :
    ∃ e, firstError (setKeyChecks p c x) = some e ∧ (e.code = 0x13 ∨
      e.code = if hmacOk c.variant then (if c.macKeySet then 0x20 else 0x21) else 0x24) := by
  cases hx : x.unaligned with
  | true => exact ⟨.unalignedLength, by simp [setKeyChecks, hx], .inl rfl⟩
  | false =>
    cases hv : hmacOk c.variant with
    | false => exact ⟨.macUnsupported, by simp [setKeyChecks, hx, hv], .inr rfl⟩
    | true =>
      cases hk : c.macKeySet with
      | true => exact ⟨.keyAlreadySet, by simp [setKeyChecks, hx, hv, hk], .inr rfl⟩
      | false =>
        have hu : c.updateCalled = true := by simpa [hk] using h hv
        exact ⟨.keyAfterUpdate, by simp [setKeyChecks, hx, hv, hk, hu], .inr rfl⟩

theorem status_of_setHmacKey {x : WireString} {key : List Byte}
    (h : Ran (checked (setKeyChecks p c x) (applyHmacKey key c, [])) t)
    (hc : hmacOk c.variant = true → c.macKeySet = true ∨ c.updateCalled = true) :
    t.status = 0x13 ∨ t.status = if hmacOk c.variant then (if c.macKeySet then 0x20 else 0x21) else 0x24 := by
  obtain ⟨e, he, hcode⟩ := setKeyChecks_refuses (p := p) x hc
  rw [h.status_of_error (checked_of_some he)]
  exact hcode

/-- R184: a SET_HMAC_KEY that completed leaves the context keyed. -/
theorem phase_of_setHmacKey {x : WireString} {key : List Byte}
    (h : Ran (checked (setKeyChecks p c x) (applyHmacKey key c, [])) t) (hu : c.updateCalled = false)
    (hstatus : t.status = 0x00) : t.phase = .keyedFresh := by
  obtain ⟨c', out, hok, hphase⟩ := h.phase_of_ok hstatus
  obtain ⟨-, hok⟩ := checked_ok hok
  cases hok
  rw [hphase]
  simp [Context.phase, applyHmacKey, hu]

/-- R192: a GET that completed leaves the phase as it was. -/
theorem phase_of_get {r : Except Error (List Byte)} (h : Ran (getAnswer c r) t) (hstatus : t.status = 0x00) :
    t.phase = c.phase := by
  obtain ⟨c', out, hok, hphase⟩ := h.phase_of_ok hstatus
  obtain ⟨rfl, -⟩ := getAnswer_ok hok
  exact hphase

theorem status_of_get {r : Except Error (List Byte)} {e : Error} (h : Ran (getAnswer c r) t) (hr : r = .error e) :
    t.status = e.code :=
  h.status_of_error (by rw [hr, getAnswer])

/-- R188, R190: what GET_HMAC and GET_MAC answer where the variant has no such code, and where no key is set. -/
theorem status_of_mac {r : Except Error (List Byte)} {unsupported : Bool} (h : Ran (getAnswer c r) t)
    (hunsupported : unsupported = true → r = .error .macUnsupported)
    (hunkeyed : unsupported = false → c.macKeySet = false → r = .error .macWithoutKey) :
    (unsupported = true → t.status = 0x24) ∧
    (c.macKeySet = false → t.status = if unsupported then 0x24 else 0x23) := by
  refine ⟨fun hu => status_of_get h (hunsupported hu), fun hk => ?_⟩
  cases hu : unsupported with
  | true => exact status_of_get h (hunsupported hu)
  | false => exact status_of_get h (hunkeyed hu hk)

end

/-- Settles O30, row by row: past the common entry the row is that of the context's phase. -/
theorem phaseTable : Obligations.PhaseTable := by
  intro s t w i hi h hcmd
  have ht := State.ne_of_cmd_eq_cons hcmd
  refine ⟨exec_context_phase_of_error hi h ht, ?_⟩
  cases i with
  | init v p f c => exact phase_of_init h ht
  | update =>
    obtain ⟨hs, hst⟩ | ⟨hs, hst⟩ | ⟨c, x, hctx, hs, hrun⟩ := exec_phase_cases (i := .update) execUpdate.eq_1 h ht
    · simpa only [hs] using hst
    · simpa only [hs] using hst
    · have hphase := phase_of_update hrun
      obtain ⟨hp, hk, -⟩ | ⟨hp, hk, -⟩ | ⟨hp, hk, -⟩ | ⟨hp, hk, -⟩ := c.phase_cases <;>
        simpa [hs, hp, hk] using hphase
  | setHmacKey =>
    obtain ⟨hs, hst⟩ | ⟨hs, hst⟩ | ⟨c, x, hctx, hs, hrun⟩ :=
      exec_phase_cases (i := .setHmacKey) execSetHmacKey.eq_1 h ht
    · simpa only [hs] using hst
    · simpa only [hs] using hst
    · have hstatus := status_of_setHmacKey hrun
      obtain ⟨hp, hk, hu⟩ | ⟨hp, hk, hu⟩ | ⟨hp, hk, -⟩ | ⟨hp, hk, -⟩ := c.phase_cases <;>
        simp only [hs, hp, hctx, Option.some.injEq, forall_eq']
      · exact ⟨fun hv => by simpa [hv] using hstatus, phase_of_setHmacKey hrun hu⟩
      · simpa [hk, hu] using hstatus
      · simpa [hk] using hstatus
      · simpa [hk] using hstatus
  | getHash p =>
    obtain ⟨hs, hst⟩ | ⟨hs, hst⟩ | ⟨c, len, -, hs, hrun⟩ :=
      exec_phase_cases (i := .getHash p) (execGetHash.eq_1 p) h ht
    · simpa only [hs] using hst
    · simpa only [hs] using hst
    · have hphase := phase_of_get hrun
      have hstatus : c.macKeySet = true → t.status = 0x22 := fun hk =>
        status_of_get (e := .hashOnKeyed) hrun (by simp [hashResult, hk])
      obtain ⟨hp, hk, -⟩ | ⟨hp, hk, -⟩ | ⟨hp, hk, -⟩ | ⟨hp, hk, -⟩ := c.phase_cases <;> simp only [hs, hp]
      · exact hp ▸ hphase
      · exact hp ▸ hphase
      · exact hstatus hk
      · exact hstatus hk
  | getHmac =>
    obtain ⟨hs, hst⟩ | ⟨hs, hst⟩ | ⟨c, x, hctx, hs, hrun⟩ := exec_phase_cases (i := .getHmac) execGetHmac.eq_1 h ht
    · simpa only [hs] using hst
    · simpa only [hs] using hst
    · have hphase := phase_of_get hrun
      obtain ⟨hunsupported, hunkeyed⟩ := status_of_mac (unsupported := !hmacOk c.variant) hrun
        (fun hv => hmacResult_error (by simp [hv])) (fun hv hk => hmacResult_error (by simp [hv, hk]))
      have hstatus : c.macKeySet = false → t.status = if hmacOk c.variant then 0x23 else 0x24 := fun hk => by
        rw [hunkeyed hk]
        cases hmacOk c.variant <;> rfl
      simp only [Bool.not_eq_true'] at hunsupported
      obtain ⟨hp, hk, -⟩ | ⟨hp, hk, -⟩ | ⟨hp, hk, -⟩ | ⟨hp, hk, -⟩ := c.phase_cases <;>
        simp only [hs, hp, hctx, Option.some.injEq, forall_eq']
      · exact hstatus hk
      · exact hstatus hk
      · exact ⟨hp ▸ hphase, hunsupported⟩
      · exact ⟨hp ▸ hphase, hunsupported⟩
  | getMac p =>
    obtain ⟨hs, hst⟩ | ⟨hs, hst⟩ | ⟨c, len, hctx, hs, hrun⟩ :=
      exec_phase_cases (i := .getMac p) (execGetMac.eq_1 p) h ht
    · simpa only [hs] using hst
    · simpa only [hs] using hst
    · have hphase := phase_of_get hrun
      obtain ⟨hunsupported, hunkeyed⟩ := status_of_mac (unsupported := hasNoMac c.variant) hrun
        (fun hv => by simp [macResult, hv]) (fun hv hk => by simp [macResult, hv, hk])
      obtain ⟨hp, hk, -⟩ | ⟨hp, hk, -⟩ | ⟨hp, hk, -⟩ | ⟨hp, hk, -⟩ := c.phase_cases <;>
        simp only [hs, hp, hctx, Option.some.injEq, forall_eq']
      · exact hunkeyed hk
      · exact hunkeyed hk
      · exact ⟨hp ▸ hphase, hunsupported⟩
      · exact ⟨hp ▸ hphase, hunsupported⟩
  | _ => cases hi

/-! ### Reads that change nothing, and what a step is a function of -/

/-- R179: the common entry reads the three registers and nothing else. -/
theorem State.entry_congr {s s' : State} (hp : s'.poisoned = s.poisoned) (hb : s'.bound = s.bound)
    (hc : s'.ctx = s.ctx) : s'.entry = s.entry := by
  simp only [State.entry, hp, hb, hc]

/-- Settles O29: a GET waits, errs or completes, and where it completes the context it writes is the one it read. -/
theorem readsDoNotMutate : Obligations.ReadsDoNotMutate := by
  intro s t i hi h
  have hget : i.commandClass = .context ∧ (∀ v p f c, i ≠ .init v p f c) ∧
      ∀ p c c', contextChange i p c c' → c' = c := by
    obtain ⟨p, rfl | rfl⟩ | rfl := hi <;> exact ⟨rfl, by simp, fun _ _ _ hc => hc⟩
  obtain ⟨hclass, hinit, hchange⟩ := hget
  obtain ⟨rfl, -⟩ | ⟨ops, rest, hdin, heffect⟩ := exec_effect h
  · exact ⟨rfl, rfl, fun _ => rfl, fun w ops out hcmd => absurd rfl (State.ne_of_cmd_eq_cons hcmd)⟩
  · obtain ⟨hport, -⟩ | ⟨hport, -⟩ | ⟨-, -, e, -, -, rfl, -⟩ | ⟨-, -, c, c', out, hentry, hcc, rfl, hrepeat⟩ |
      ⟨v, p, f, c, rfl, -⟩ | ⟨v, p, f, c, -, rfl, -⟩ := heffect
    · rw [hclass] at hport; cases hport
    · rw [hclass] at hport; cases hport
    · exact ⟨rfl, rfl, fun hst => absurd hst e.code_ne_ok, fun _ _ _ _ hst => absurd hst e.code_ne_ok⟩
    · obtain ⟨-, -, hctx⟩ := State.entry_ok.mp hentry
      obtain rfl := hchange _ _ _ hcc
      refine ⟨hctx.symm, rfl, fun _ => rfl, fun w ops' out' hcmd _ hdin' hdout => ?_⟩
      obtain rfl : ops' = ops := List.append_cancel_right (hdin'.symm.trans hdin)
      obtain rfl : out' = out := (List.append_cancel_left hdout).symm
      refine hrepeat _ ?_ (State.entry_congr ?_ ?_ hctx.symm) rest ?_ <;> rfl
    · exact absurd rfl (hinit v p f c)
    · exact absurd rfl (hinit v p f c)

/-- R193: a command that took its operand words does the same in every state with the same registers, parameters and
operands: each case of `exec_effect` says so. -/
theorem exec_of_agree {i : Instr} {s s' t : State} {ops out later : List Word} (hparams : s'.params = s.params)
    (hbound : s'.bound = s.bound) (hpoisoned : s'.poisoned = s.poisoned) (hctx : s'.ctx = s.ctx)
    (h : exec i s = .next t) (ht : t ≠ s) (hdin : s.din = ops ++ t.din) (hdout : t.dout = s.dout ++ out)
    (hdin' : s'.din = ops ++ later) :
    exec i s' = .next { s' with
      cmd := s'.cmd.tail, din := later, dout := s'.dout ++ out
      bound := t.bound, poisoned := t.poisoned, ctx := t.ctx, status := t.status } := by
  have hentry := State.entry_congr hpoisoned hbound hctx
  obtain ⟨rfl, -⟩ | ⟨ops', rest', hops, heffect⟩ := exec_effect h
  · exact absurd rfl ht
  · have htaken : t.din = rest' → ops' = ops := fun hrest =>
      List.append_cancel_right (hops.symm.trans (hrest ▸ hdin))
    obtain ⟨-, e, -, rfl, hrun⟩ | ⟨-, out', rfl, hrun⟩ | ⟨-, -, e, -, -, rfl, -, hrun⟩ |
      ⟨-, -, c, c', out', -, -, rfl, hrun⟩ | ⟨_, _, _, _, -, e, -, -, rfl, hrun⟩ |
      ⟨_, _, _, _, c', -, rfl, hrun⟩ := heffect
    all_goals obtain rfl := htaken rfl
    · obtain rfl : out = [] := by simpa using hdout
      rw [hrun s' hparams later hdin']
      simp [State.raise, State.take, hbound, hpoisoned, hctx]
    · obtain rfl : out' = out := List.append_cancel_left hdout
      rw [hrun s' hparams later hdin']
      simp [State.complete, State.take, statusOk, hbound, hpoisoned, hctx]
    · obtain rfl : out = [] := by simpa using hdout
      rw [hrun s' hparams hentry later hdin']
      simp [State.raise, State.take, hbound, hpoisoned, hctx]
    · obtain rfl : out' = out := List.append_cancel_left hdout
      rw [hrun s' hparams hentry later hdin']
      simp [State.complete, State.take, statusOk, hbound, hpoisoned]
    · obtain rfl : out = [] := by simpa using hdout
      rw [hrun s' hparams later hdin']
      simp [State.raise, State.take, hpoisoned, hctx]
    · obtain rfl : out = [] := by simpa using hdout
      rw [hrun s' hparams later hdin']
      simp [State.complete, State.take, statusOk]

/-- Settles O14: an illegal word is rejected in both states, and a command does the same in both. -/
theorem resultsDependOnContextAndOperands : Obligations.ResultsDependOnContextAndOperands := by
  intro s s' t w ops out later hparams hbound hpoisoned hctx hstep hcmd hdin hdout hcmd' hdin'
  obtain ⟨hnil, -⟩ | ⟨w', rest, r, hw, hdecode, rfl⟩ | ⟨w', rest, i, hw, hdecode, hexec⟩ := step_cases hstep
  · simp [hnil] at hcmd
  · obtain ⟨rfl, -⟩ := List.cons.inj (hw.symm.trans hcmd)
    obtain rfl : ops = [] := by simpa [State.rejectCommand_eq] using hdin
    obtain rfl : out = [] := by simpa [State.rejectCommand_eq] using hdout
    rw [step_of_illegal hcmd' hdecode]
    simp [State.rejectCommand_eq, hbound, hpoisoned, hctx, hdin']
  · obtain ⟨rfl, -⟩ := List.cons.inj (hw.symm.trans hcmd)
    rw [step_of_instr hcmd' hdecode]
    exact exec_of_agree hparams hbound hpoisoned hctx hexec (State.ne_of_cmd_eq_cons hcmd) hdin hdout hdin'

end Sys2Proof.Machine
end

section
/-! PROOFS. Blocks and HMAC keys (spec 42_engine_hmac.md R171, R177, R178): a byte string cut into blocks and absorbed
block by block, as the statements say it; and the key set-up in the statements' words. -/

namespace Sys2Proof.Machine

open Sys2Proof.Claims

/-! ### Block by block -/

/-- A list cut into blocks of `n` elements, and a rest shorter than a block. -/
theorem exists_blocks {α : Type} {n : Nat} (hn : 0 < n) (l : List α) :
    ∃ (blks : List (List α)) (r : List α), l = blks.flatten ++ r ∧ (∀ b ∈ blks, b.length = n) ∧ r.length < n := by
  induction hk : l.length / n generalizing l with
  | zero => exact ⟨[], l, rfl, by simp, by rwa [Nat.div_eq_zero_iff_lt hn] at hk⟩
  | succ k ih =>
    have hle : n ≤ l.length := by
      by_contra hlt
      rw [Nat.div_eq_of_lt (not_le.mp hlt)] at hk
      cases hk
    have hdrop : (l.drop n).length / n = k := by
      rw [Nat.div_eq_sub_div hn hle] at hk
      rw [List.length_drop]
      exact Nat.succ.inj hk
    obtain ⟨blks, r, hl, hb, hr⟩ := ih (l.drop n) hdrop
    refine ⟨l.take n :: blks, r, ?_, List.forall_mem_cons.mpr ⟨List.length_take_of_le hle, hb⟩, hr⟩
    rw [List.flatten_cons, List.append_assoc, ← hl, List.take_append_drop]

theorem length_flatten_blocks {α : Type} {n : Nat} {blks : List (List α)} (hb : ∀ b ∈ blks, b.length = n) :
    blks.flatten.length = blks.length * n := by
  rw [List.length_flatten, List.sum_eq_card_nsmul (blks.map List.length) n (by simpa using hb), List.length_map,
    smul_eq_mul]

/-- A list of whole blocks has no rest. -/
theorem exists_whole_blocks {α : Type} {n : Nat} (hn : 0 < n) {l : List α} (hl : l.length % n = 0) :
    ∃ blks : List (List α), (∀ b ∈ blks, b.length = n) ∧ blks.flatten = l := by
  obtain ⟨blks, r, rfl, hb, hr⟩ := exists_blocks hn l
  rw [List.length_append, length_flatten_blocks hb, Nat.add_comm, Nat.add_mul_mod_self_right, Nat.mod_eq_of_lt hr] at hl
  exact ⟨blks, hb, by rw [List.length_eq_zero_iff.mp hl, List.append_nil]⟩

/-- R171: absorbing blocks family by family is compressing them one after the other. -/
theorem absorbBlocks_eq_foldl (v : Variant) (blks : List (List Byte)) (h : HashState) :
    absorbBlocks v blks h = blks.foldl (compress v) h := by
  induction blks generalizing h with
  | nil => cases h <;> rfl
  | cons b blks ih => rw [List.foldl_cons, ← ih]; cases h <;> rfl

theorem absorbBlocks_append (v : Variant) (a b : List (List Byte)) (h : HashState) :
    absorbBlocks v (a ++ b) h = absorbBlocks v b (absorbBlocks v a h) := by
  simp only [absorbBlocks_eq_foldl, List.foldl_append]

section
variable {c : Context} {blks : List (List Byte)}

/-- R182: UPDATE absorbs the blocks of the buffer and its data, and keeps the rest. -/
theorem absorbData_eq {data r : List Byte} (hbuf : c.rem ++ data = blks.flatten ++ r)
    (hb : ∀ b ∈ blks, b.length = blockBytes c.variant) (hr : r.length < blockBytes c.variant) :
    absorbData data c = { c with
      h := absorbBlocks c.variant blks c.h
      processedBits := c.processedBits + blks.length * blockBits c.variant
      rem := r, updateCalled := true } := by
  have hlen := length_flatten_blocks hb
  have hcount : (c.rem ++ data).length / blockBytes c.variant = blks.length := by
    rw [hbuf, List.length_append, hlen, Nat.add_comm, Nat.add_mul_div_right _ _ (blockBytes_pos _),
      Nat.div_eq_of_lt hr, Nat.zero_add]
  simp only [absorbData, hcount]
  rw [hbuf, foldBlocks_flatten _ _ _ hb, ← absorbBlocks_eq_foldl, ← hlen, List.drop_left]

/-- R284: so does the absorption of a prefix of whole blocks, where nothing is buffered. -/
theorem absorbPrefix_eq (hc : c.rem = []) (hb : ∀ b ∈ blks, b.length = blockBytes c.variant) :
    absorbPrefix blks.flatten c = { c with
      h := absorbBlocks c.variant blks c.h
      processedBits := c.processedBits + blks.length * blockBits c.variant } := by
  have hlen := length_flatten_blocks hb
  have hdata := absorbData_eq (c := c) (data := blks.flatten) (r := [])
    (by rw [hc, List.nil_append, List.append_nil]) hb (blockBytes_pos _)
  rw [absorbPrefix_eq_absorbData hc (by rw [hlen, Nat.mul_mod_left]), hdata]
  cases c
  cases hc
  rfl

end

/-! ### The HMAC key -/

/-- A word is its four bytes. -/
theorem word_eq_of_bytes (o : ByteOrder) {x y : Word}
    (h : ∀ k < 4, x.extractLsb' (byteShift o k) 8 = y.extractLsb' (byteShift o k) 8) : x = y := by
  apply BitVec.eq_of_getLsbD_eq
  intro j hj
  have hbyte : ∃ k < 4, byteShift o k = 8 * (j / 8) := by
    cases o with
    | be => exact ⟨3 - j / 8, by omega, by simp only [byteShift]; omega⟩
    | le => exact ⟨j / 8, by omega, by simp only [byteShift]; omega⟩
  obtain ⟨k, hk, hshift⟩ := hbyte
  have hbit := congrArg (fun b => b.getLsbD (j % 8)) (h k hk)
  have hj' : 8 * (j / 8) + j % 8 = j := Nat.div_add_mod j 8
  simpa only [hshift, BitVec.getLsbD_extractLsb', hj', Nat.mod_lt j (show 0 < 8 by decide), decide_true,
    Bool.true_and] using hbit

/-- R178: XORing every byte of a string of whole words XORs every packed word. -/
theorem pack_xorPad (o : ByteOrder) {k : List Byte} (hk : 4 ∣ k.length) {pad : Byte} {padWord : Word}
    (hpad : ∀ o, ∀ i < 4, padWord.extractLsb' (byteShift o i) 8 = pad) :
    pack o (xorPad pad k) = (pack o k).map (· ^^^ padWord) := by
  obtain ⟨n, hn⟩ := hk
  rw [pack_eq, pack_eq, List.map_map, xorPad_length]
  refine List.map_congr_left fun j hj => word_eq_of_bytes o fun i hi => ?_
  have hj := List.mem_range.mp hj
  have hlt : 4 * j + i < k.length := by omega
  rw [packedWord_extract o _ _ hi, Function.comp_apply, BitVec.extractLsb'_xor, packedWord_extract o _ _ hi,
    hpad o i hi, xorPad, List.getD_eq_getElem _ _ (by simpa using hlt), List.getD_eq_getElem _ _ hlt, List.getElem_map]

theorem ipadWord_bytes : ∀ o, ∀ i < 4, (0x36363636 : Word).extractLsb' (byteShift o i) 8 = ipadByte := by
  intro o; cases o <;> decide

theorem opadWord_bytes : ∀ o, ∀ i < 4, (0x5c5c5c5c : Word).extractLsb' (byteShift o i) 8 = opadByte := by
  intro o; cases o <;> decide

/-- R177: the key of HMAC in the statements' words: hashed where it is longer than a block, and zero-filled. -/
def hmacKey (v : Variant) (key : List Byte) : List Byte :=
  let k := if key.length > blockBits v / 8 then digestOf v ((outBits v).getD 0) key else key
  k ++ List.replicate (blockBits v / 8 - k.length) 0

/-- R177: and it is the key the model pads. -/
theorem paddedKey_eq_hmacKey {v : Variant} (hv : hmacOk v = true) (key : List Byte) :
    paddedKey v key = hmacKey v key := by
  have hob : ∀ n, outBits v = some n → (outBits v).getD 0 = n := fun n hn => by rw [hn, Option.getD_some]
  have hdelim : (initDelim v).getD 0x06 = 0x06 := by
    revert hv; cases v <;> decide
  have hdigest := finalize_newState hob key 0x06
  rw [hdelim] at hdigest
  simp only [paddedKey, shortenKey, hdigest, extendTo]
  rfl

/-- R178: the key set-up in the statements' words. -/
theorem applyHmacKey_eq {c : Context} (hv : hmacOk c.variant = true) (key : List Byte) :
    applyHmacKey key c = { c with
      ipad := some ((pack (orderOf c.variant) (hmacKey c.variant key)).map (· ^^^ 0x36363636))
      opad := some ((pack (orderOf c.variant) (hmacKey c.variant key)).map (· ^^^ 0x5c5c5c5c))
      h := absorbBlocks c.variant [(hmacKey c.variant key).map (· ^^^ 0x36)] c.h
      processedBits := blockBits c.variant, macKeySet := true } := by
  have hwords : 4 ∣ (hmacKey c.variant key).length := by
    rw [← paddedKey_eq_hmacKey hv, paddedKey_length key hv]
    cases c.variant <;> decide
  simp only [applyHmacKey, paddedKey_eq_hmacKey hv, pack_xorPad _ hwords ipadWord_bytes,
    pack_xorPad _ hwords opadWord_bytes, absorbBlocks_eq_foldl]
  rfl

end Sys2Proof.Machine
end

section
/-! PROOFS. INIT and SET_HMAC_KEY (spec 42_engine_hmac.md R180, R181, R184, R185): the operands of INIT as they stand on
`DIN`, the context it constructs of them, its errors, and the two ways to a key. -/

namespace Sys2Proof.Machine

open Sys2Proof.Claims

/-! ### The operands of INIT on `DIN` -/

/-- R98: the operand an optional string arrives as. -/
def operandIf (present : Bool) (n : Nat) (ws : List Word) : Option WireString :=
  if present then some (operandOf n ws) else none

/-- R98: an optional string, as the host means it. -/
def stringIf (present : Bool) (b : List Byte) : Option (List Byte) := if present then some b else none

@[simp] theorem isSome_operandIf (present : Bool) (n : Nat) (ws : List Word) :
    (operandIf present n ws).isSome = present := by
  cases present <;> rfl

@[simp] theorem isSome_stringIf (present : Bool) (b : List Byte) : (stringIf present b).isSome = present := by
  cases present <;> rfl

section
variable {present : Bool} {n : Nat} {ws : List Word} {o : ByteOrder} {b : List Byte}

theorem dinString_when_of_wireBitsIf (h : WireBitsIf present n ws) (rest : List Word) :
    dinString.when present (ws ++ rest) = some (operandIf present n ws, rest) := by
  cases present with
  | false => obtain ⟨-, rfl⟩ := h; rfl
  | true => exact Din.map_some (dinString_of_wireBits h rest)

/-- R98: an absent string has no bits. -/
theorem any_operandIf (h : WireBitsIf present n ws) {bad : WireString → Bool} {bits : Nat → Bool}
    (hbad : ∀ n ws, bad (operandOf n ws) = bits n) (hzero : bits 0 = false) :
    (operandIf present n ws).any bad = bits n := by
  cases present with
  | false => obtain ⟨rfl, -⟩ := h; exact hzero.symm
  | true => exact hbad n ws

theorem bytesOr_operandIf (h : WireBitsIf present n ws) :
    bytesOr o (operandIf present n ws) = unpack o (ws.drop 2) (n / 8) := by
  cases present with
  | false => obtain ⟨rfl, -⟩ := h; exact (List.length_eq_zero_iff.mp (unpack_length o _ 0)).symm
  | true => rfl

theorem wireBitsIf_of_wireIf (h : WireIf present o b ws) : WireBitsIf present (8 * b.length) ws := by
  cases present with
  | false => obtain ⟨rfl, rfl⟩ := h; exact ⟨rfl, rfl⟩
  | true => exact wireBits_of_wire h

theorem wireIf_absent : WireIf false o [] [] := ⟨rfl, rfl⟩

theorem getD_stringIf (h : WireIf present o b ws) : (stringIf present b).getD [] = b := by
  cases present with
  | false => exact h.1.symm
  | true => rfl

end

/-- R180: the operands of INIT, each string where its flag is set. -/
theorem dinInit_append {p f c : Bool} {kl fl cl : Nat} {kw fw cw : List Word} (hk : WireBitsIf p kl kw)
    (hf : WireBitsIf f fl fw) (hc : WireBitsIf c cl cw) (nr : Word) (rest : List Word) :
    dinInit p f c (nr :: (kw ++ (fw ++ (cw ++ rest)))) =
      some (⟨nr, operandIf p kl kw, operandIf f fl fw, operandIf c cl cw⟩, rest) := by
  rw [dinInit, Din.bind_some (dinWord_cons _ _), Din.bind_some (dinString_when_of_wireBitsIf hk _),
    Din.bind_some (dinString_when_of_wireBitsIf hf _), Din.map_some (dinString_when_of_wireBitsIf hc _)]

/-! ### What INIT makes of its operands -/

/-- Two operands of the same length and bytes; the bits beyond the length may differ (R77). -/
def SameString (o : ByteOrder) (a b : Option WireString) : Prop :=
  a.map (fun w => (w.bitLen, w.bytes o)) = b.map fun w => (w.bitLen, w.bytes o)

theorem sameString_operandIf {present : Bool} {o : ByteOrder} {b : List Byte} {ws : List Word}
    (h : WireIf present o b ws) :
    SameString o (operandIf present (8 * b.length) ws) ((stringIf present b).map (wireOf o)) := by
  cases present with
  | false => rfl
  | true =>
    have hbytes := bytes_operandOf_of_wire (o := o) h
    simp [SameString, operandIf, stringIf, hbytes]

section
variable {o : ByteOrder} {a b : Option WireString}

/-- What INIT reads of an operand string is its length and its bytes. -/
theorem SameString.reads (h : SameString o a b) :
    a.isSome = b.isSome ∧ a.any WireString.unaligned = b.any WireString.unaligned ∧
    (∀ m, a.any (fun w => decide (w.bitLen > m)) = b.any fun w => decide (w.bitLen > m)) ∧
    bytesOr o a = bytesOr o b ∧ a.map (WireString.bytes o) = b.map (WireString.bytes o) := by
  cases a with
  | none => cases b <;> simp [SameString] at h ⊢
  | some w =>
    cases b with
    | none => simp [SameString] at h
    | some w' =>
      obtain ⟨hlen, hbytes⟩ : w.bitLen = w'.bitLen ∧ w.bytes o = w'.bytes o := by simpa [SameString] using h
      simp [WireString.unaligned, bytesOr, hlen, hbytes]

end

/-- R77, R180: INIT reads no bit beyond a string's length. -/
theorem buildContext_congr {v : Variant} {p : Config.Params} {x y : InitOperands} (hnr : x.nr = y.nr)
    (hkey : SameString (orderOf v) x.key y.key) (hfn : SameString (orderOf v) x.fn y.fn)
    (hcust : SameString (orderOf v) x.cust y.cust) : buildContext (some v) p x = buildContext (some v) p y := by
  obtain ⟨hsome, hkey1, hkey2, hkey3, hkey4⟩ := hkey.reads
  obtain ⟨-, hfn1, hfn2, hfn3, -⟩ := hfn.reads
  obtain ⟨-, hcust1, hcust2, hcust3, -⟩ := hcust.reads
  simp only [buildContext, initChecks, InitOperands.anyString, ← Option.not_isSome, hnr, hsome, hkey1, hkey2, hkey3,
    hkey4, hfn1, hfn2, hfn3, hcust1, hcust2, hcust3]

/-- R180: INIT completes where none of its checks applies. -/
theorem exec_init_of_ok {s : State} {v : Variant} {nr : Word} {p f c : Bool} {key fn cust : List Byte}
    {kw fw cw rest : List Word} (hk : WireIf p (orderOf v) key kw) (hf : WireIf f (orderOf v) fn fw)
    (hc : WireIf c (orderOf v) cust cw) (hdin : s.din = nr :: (kw ++ (fw ++ (cw ++ rest))))
    (hok : InitOk s.params v nr (stringIf p key) (stringIf f fn) (stringIf c cust)) :
    exec (.init (some v) p f c) s = .next
      { done s rest [] with
        bound := true, poisoned := false
        ctx := some (keyContext v (stringIf p key) fn cust (freshContext v nr)) } := by
  have hread := hdin ▸ dinInit_append (wireBitsIf_of_wireIf hk) (wireBitsIf_of_wireIf hf) (wireBitsIf_of_wireIf hc) nr
    rest
  have hbuild := buildContext_congr (p := s.params)
    (x := ⟨nr, operandIf p _ kw, operandIf f _ fw, operandIf c _ cw⟩)
    (y := initOperands v nr (stringIf p key) (stringIf f fn) (stringIf c cust)) rfl
    (sameString_operandIf hk) (sameString_operandIf hf) (sameString_operandIf hc)
  rw [buildContext_initOperands hok, getD_stringIf hf, getD_stringIf hc] at hbuild
  exact constructCommand_completes hread hbuild

/-! ### Without a key or strings -/

/-- R28: the delimiters of the variants without cSHAKE's strings. -/
theorem initDelim_eq {v : Variant} (hv : v ∉ [.cshake128, .cshake256, .kmac128, .kmac256]) :
    initDelim v = if v ∈ [.shake128, .shake256] then some 0x1F else if v.isSha3 then some 0x06 else none := by
  revert hv; cases v <;> decide

/-- Settles O16: without a key INIT constructs `freshContext`. -/
theorem initConstructsFreshContext : Obligations.InitConstructsFreshContext := by
  intro s rest v nr hv hnr hdin
  have hvariant : isKmac v = false ∧ isCshake v = false := by
    revert hv; cases v <;> decide
  obtain ⟨hkmac, hcshake⟩ := hvariant
  have hok : InitOk s.params v nr none none none := initOk_of_no_strings hkmac hnr (by simp [hcshake])
  rw [exec_init_of_ok wireIf_absent wireIf_absent wireIf_absent hdin hok]
  have hkc : keyContext v (stringIf false []) [] [] (freshContext v nr) = freshContext v nr :=
    keyContext_freshContext hkmac nr
  rw [hkc, freshContext, initDelim_eq hv]

/-! ### With an HMAC key -/

/-- R176: a variant with HMAC is neither cSHAKE nor KMAC, and has a MAC. -/
theorem variant_of_hmacOk {v : Variant} (hv : hmacOk v = true) :
    isCshake v = false ∧ isKmac v = false ∧ hasNoMac v = false := by
  revert hv; cases v <;> decide

/-- R174: a limit that admits the key and a block admits INIT with the key. -/
theorem initOk_of_hmac {p : Config.Params} {v : Variant} (hv : hmacOk v = true) {key : List Byte}
    (hkey : 8 * key.length ≤ p.maxTotalBits) (hblock : blockBits v ≤ p.maxTotalBits) :
    InitOk p v 1 (some key) none none := by
  obtain ⟨hcshake, hkmac, hmac⟩ := variant_of_hmacOk hv
  exact
    { rounds := by decide
      mac := fun _ => hmac
      kmac := fun _ => rfl
      oneRound := fun _ => rfl
      strings := .inr ⟨rfl, rfl⟩
      lengths := ⟨hkey, by simp, by simp⟩
      prefixed := by simpa [prefixBits, hcshake, hkmac, hv] using hblock }

/-- R180: INIT with an HMAC key. -/
theorem keyContext_of_hmac {v : Variant} (hv : hmacOk v = true) (key : List Byte) (nr : Word) :
    keyContext v (some key) [] [] (freshContext v nr) = applyHmacKey key (freshContext v nr) := by
  obtain ⟨hcshake, hkmac, -⟩ := variant_of_hmacOk hv
  simp [keyContext, hcshake, hkmac, hv]

/-- Settles O17: with a key INIT sets the key up in `freshContext`. -/
theorem initAppliesHmacKey : Obligations.InitAppliesHmacKey := by
  rintro s rest kw v key k0 hv hwire hkey hblock ⟨k, rfl, rfl⟩ hdin
  have hok : InitOk s.params v 1 (some key) none none := initOk_of_hmac hv hkey hblock
  have hkc : keyContext v (stringIf true key) [] [] (freshContext v 1) = _ :=
    (keyContext_of_hmac hv key 1).trans (applyHmacKey_eq (c := freshContext v 1) hv key)
  rw [exec_init_of_ok (p := true) hwire wireIf_absent wireIf_absent hdin hok, hkc]
  rfl

/-- Settles O23, by the key set-up in the statement's words. -/
theorem setHmacKeyAppliesKey : Obligations.SetHmacKeyAppliesKey := by
  rintro s rest kw c key k0 ⟨hp, hb, hctx⟩ hv hkey hu hnr hwire hlen hblock ⟨k, rfl, rfl⟩ hdin
  have hread := hdin ▸ dinString_of_wireBits (wireBits_of_wire hwire) rest
  have hchecks : firstError (setKeyChecks s.params c (operandOf (8 * key.length) kw)) = none := by
    simp [setKeyChecks, hv, hkey, hu, not_lt.mpr hnr, not_lt.mpr hlen, not_lt.mpr hblock]
  have hexec := boundCommand_completes (run := fun params c x =>
    checked (setKeyChecks params c x) (applyHmacKey (x.bytes (orderOf c.variant)) c, [])) hread
    (State.entry_ok.mpr ⟨hp, hb, hctx⟩) (checked_of_none hchecks)
  rw [bytes_operandOf_of_wire hwire, applyHmacKey_eq hv] at hexec
  exact hexec

/-! ### The two ways to a key -/

/-- R180: an INIT that left `STATUS` 0 constructed its context. -/
theorem constructCommand_of_status {α : Type} {read : Din α} {build : Config.Params → α → Except Error Context}
    {s t : State} {x : α} {rest : List Word} (hread : read s.din = some (x, rest))
    (h : constructCommand read build s = .next t) (hstatus : t.status = 0x00) :
    ∃ c, build s.params x = .ok c ∧
      t = State.complete [] { s.take rest with ctx := some c, poisoned := false, bound := true } := by
  cases hb : build s.params x with
  | error e =>
    rw [constructCommand_raises hread hb] at h
    cases h
    exact absurd hstatus e.code_ne_ok
  | ok c =>
    rw [constructCommand_completes hread hb] at h
    cases h
    exact ⟨c, rfl, rfl⟩

/-- R179: another context command that left `STATUS` 0 ran on the context and completed. -/
theorem boundCommand_of_status {α : Type} {read : Din α}
    {run : Config.Params → Context → α → Except Error (Context × List Word)} {s t : State} {x : α} {rest : List Word}
    (hread : read s.din = some (x, rest)) (h : boundCommand read run s = .next t) (hstatus : t.status = 0x00) :
    ∃ c c' out, s.entry = .ok c ∧ run s.params c x = .ok (c', out) ∧
      t = State.complete out { s.take rest with ctx := some c' } := by
  cases he : s.entry with
  | error e =>
    rw [boundCommand_entry hread he] at h
    cases h
    exact absurd hstatus e.code_ne_ok
  | ok c =>
    cases hr : run s.params c x with
    | error e =>
      rw [boundCommand_raises hread he hr] at h
      cases h
      exact absurd hstatus e.code_ne_ok
    | ok r =>
      obtain ⟨c', out⟩ := r
      rw [boundCommand_completes hread he hr] at h
      cases h
      exact ⟨c, c', out, rfl, hr, rfl⟩

/-- Settles O24: both ways apply the key to the fresh context. -/
theorem keyPathsAgree : Obligations.KeyPathsAgree := by
  intro s s₁ s₂ s₃ v nr key kw rest hwire hdin h₁ hst₁ h₂ hst₂ h₃ hst₃
  have hkey : WireBitsIf true (8 * key.length) kw := wireBits_of_wire hwire
  have habsent : WireBitsIf false 0 [] := ⟨rfl, rfl⟩
  obtain ⟨c₁, hb₁, rfl⟩ :=
    constructCommand_of_status (hdin ▸ dinInit_append hkey habsent habsent nr rest) h₁ hst₁
  obtain ⟨c₂, hb₂, hs₂⟩ :=
    constructCommand_of_status (hdin ▸ dinInit_append habsent habsent habsent nr (kw ++ rest)) h₂ hst₂
  have hread : dinString s₂.din = some (operandOf (8 * key.length) kw, rest) :=
    hs₂ ▸ dinString_of_wireBits hkey rest
  have h₃ : boundCommand dinString (fun params c x =>
      checked (setKeyChecks params c x) (applyHmacKey (x.bytes (orderOf c.variant)) c, [])) s₂ = .next s₃ := h₃
  obtain ⟨c, c', out, hentry, hrun, rfl⟩ := boundCommand_of_status hread h₃ hst₃
  obtain ⟨-, hc₁⟩ := checked_ok hb₁
  obtain ⟨hchecks₂, hc₂⟩ := checked_ok hb₂
  obtain ⟨hchecks, hc'⟩ := checked_ok hrun
  obtain ⟨-, -, -, hkmac, -⟩ := initChecks_none hchecks₂
  have hfresh : c₂ = freshContext v nr := hc₂.trans (keyContext_freshContext (by simpa using hkmac) nr)
  obtain rfl : c = freshContext v nr := by
    obtain ⟨-, -, hctx⟩ := State.entry_ok.mp hentry
    rw [hs₂, hfresh] at hctx
    exact (Option.some.inj hctx).symm
  have hv : hmacOk v = true := (setKeyChecks_none hchecks).1
  have hbytes : (operandOf (8 * key.length) kw).bytes (orderOf v) = key := bytes_operandOf_of_wire hwire
  have hagree : c₁ = c' := calc
    c₁ = keyContext v (some ((operandOf (8 * key.length) kw).bytes (orderOf v))) [] [] (freshContext v nr) := hc₁
    _ = applyHmacKey key (freshContext v nr) := by rw [hbytes, keyContext_of_hmac hv]
    _ = c' := by rw [← hbytes]; exact (congrArg Prod.fst hc').symm
  rw [hagree, hs₂]
  exact ⟨rfl, rfl, rfl, rfl, rfl⟩

/-! ### cSHAKE and KMAC -/

/-- R286: the string cSHAKE absorbs: nothing where both strings are empty. -/
def cshakeString (v : Variant) (fn cust : List Byte) : List Byte :=
  if fn = [] ∧ cust = [] then [] else bytePad (encodeString fn ++ encodeString cust) (blockBits v / 8)

theorem cshakeString_mod (v : Variant) (fn cust : List Byte) : (cshakeString v fn cust).length % blockBytes v = 0 := by
  unfold cshakeString
  split
  · rfl
  · exact bytePad_length_mod _ (blockBytes_pos v)

section
variable {c : Context} {blks keyBlks : List (List Byte)} {key fn cust : List Byte}

/-- R284, R286: cSHAKE's INIT absorbs that string and sets the delimiter. -/
theorem cshakeInit_eq_absorbPrefix (fn cust : List Byte) (c : Context) :
    cshakeInit fn cust c = { absorbPrefix (cshakeString c.variant fn cust) c with
      delim := some (if fn = [] ∧ cust = [] then 0x1F else 0x04) } := by
  by_cases h : fn = [] ∧ cust = []
  · simp [cshakeInit, cshakeString, absorbPrefix, h]
  · have hempty : (fn.isEmpty && cust.isEmpty) = false := by simpa [List.isEmpty_iff] using h
    simp only [cshakeInit, hempty, cshakeString, if_neg h]
    rfl

theorem cshakeInit_eq (hc : c.rem = []) (hb : ∀ b ∈ blks, b.length = blockBytes c.variant)
    (hflat : blks.flatten = cshakeString c.variant fn cust) :
    cshakeInit fn cust c = { c with
      delim := some (if fn = [] ∧ cust = [] then 0x1F else 0x04)
      h := absorbBlocks c.variant blks c.h
      processedBits := c.processedBits + blks.length * blockBits c.variant } := by
  rw [cshakeInit_eq_absorbPrefix, ← hflat, absorbPrefix_eq hc hb]

/-- R284, R287: KMAC's INIT absorbs those blocks under its own name, and then the key's. -/
theorem kmacInit_eq (hc : c.rem = []) (hb : ∀ b ∈ blks, b.length = blockBytes c.variant)
    (hflat : blks.flatten = cshakePrefix c.variant kmacName cust)
    (hkb : ∀ b ∈ keyBlks, b.length = blockBytes c.variant) (hkflat : keyBlks.flatten = kmacKeyBlocks c.variant key) :
    kmacInit key cust c = { c with
      delim := some 0x04
      h := absorbBlocks c.variant (blks ++ keyBlks) c.h
      processedBits := c.processedBits + (blks ++ keyBlks).length * blockBits c.variant
      macKeySet := true } := by
  have hcshake := cshakeInit_eq (fn := kmacName) (cust := cust) hc hb hflat
  have hkeyed := absorbPrefix_eq (c := cshakeInit kmacName cust c) (blks := keyBlks) (by rw [hcshake]; exact hc)
    (by rw [hcshake]; exact hkb)
  rw [kmacInit, ← hkflat, hkeyed, hcshake]
  simp only [absorbBlocks_append, List.length_append, Nat.add_mul, Nat.add_assoc]
  rfl

end

/-- R174, R286: the bits it counts against the limit. -/
theorem prefixBits_of_cshake {v : Variant} (hv : isCshake v = true) (keyed : Bool) (key fn cust : List Byte) :
    prefixBits v keyed key fn cust = 8 * (cshakeString v fn cust).length := by
  by_cases h : fn = [] ∧ cust = []
  · simp [prefixBits, cshakeString, hv, h]
  · have hempty : (fn.isEmpty && cust.isEmpty) = false := by simpa [List.isEmpty_iff] using h
    simp only [prefixBits, hv, hempty, cshakeString, if_neg h]
    rfl

/-- R31: whole blocks are a whole number of `BLOCK_BITS`. -/
theorem bits_of_blocks {v : Variant} {blks : List (List Byte)} (hb : ∀ b ∈ blks, b.length = blockBytes v) :
    8 * blks.flatten.length = blks.length * blockBits v := by
  rw [length_flatten_blocks hb, blockBits_eq]
  ring

/-- Settles O18: the blocks are those of the string cSHAKE absorbs. -/
theorem initCshake : Obligations.InitCshake := by
  intro s rest fw cw v f c fn cust hv hf hc hfn hcust hdin
  have hvariant : isCshake v = true ∧ isKmac v = false ∧ orderOf v = .le ∧ v.takesStrings = true := by
    revert hv; cases v <;> decide
  obtain ⟨hcshake, hkmac, horder, htakes⟩ := hvariant
  rw [← horder] at hf hc
  obtain ⟨blks, hb, hflat⟩ := exists_whole_blocks (blockBytes_pos v) (cshakeString_mod v fn cust)
  refine ⟨blks, hb, hflat, fun hl => ?_⟩
  have hok : InitOk s.params v 1 (stringIf false []) (stringIf f fn) (stringIf c cust) :=
    { rounds := by decide
      mac := by simp
      kmac := by simp [hkmac]
      oneRound := fun _ => rfl
      strings := .inl htakes
      lengths := by
        rw [getD_stringIf hf, getD_stringIf hc]
        exact ⟨Nat.zero_le _, hfn, hcust⟩
      prefixed := by
        rw [getD_stringIf hf, getD_stringIf hc, prefixBits_of_cshake hcshake, ← hflat, bits_of_blocks hb]
        exact hl }
  have hkc : keyContext v (stringIf false []) fn cust (freshContext v 1) = cshakeInit fn cust (freshContext v 1) := by
    simp [keyContext, hcshake]
  rw [exec_init_of_ok (p := false) wireIf_absent hf hc hdin hok, hkc,
    cshakeInit_eq (c := freshContext v 1) rfl hb hflat]
  simp [freshContext]

/-- Settles O19: the blocks are cSHAKE's under KMAC's name, and then the key's. -/
theorem initKmac : Obligations.InitKmac := by
  intro s rest kw fw cw v f c key fn cust hv hk hf hc hkey hfn hcust hdin
  have hvariant : isKmac v = true ∧ isCshake v = false ∧ orderOf v = .le ∧ v.takesStrings = true := by
    revert hv; cases v <;> decide
  obtain ⟨hkmac, hcshake, horder, htakes⟩ := hvariant
  rw [← horder] at hk hf hc
  obtain ⟨blks, hb, hflat⟩ := exists_whole_blocks (blockBytes_pos v)
    (bytePad_length_mod (encodeString kmacName ++ encodeString cust) (blockBytes_pos v))
  obtain ⟨keyBlks, hkb, hkflat⟩ := exists_whole_blocks (blockBytes_pos v)
    (bytePad_length_mod (encodeString key) (blockBytes_pos v))
  have hall : ∀ b ∈ blks ++ keyBlks, b.length = blockBytes v := List.forall_mem_append.mpr ⟨hb, hkb⟩
  have hallflat : (blks ++ keyBlks).flatten = cshakePrefix v kmacName cust ++ kmacKeyBlocks v key := by
    rw [List.flatten_append, hflat, hkflat]
    rfl
  refine ⟨blks ++ keyBlks, hall, hallflat, fun hl => ?_⟩
  have hstring := initOk_of_kmac (p := s.params) hkmac (key := key) (cust := stringIf c cust)
    (by rw [getD_stringIf hc, ← hallflat, bits_of_blocks hall]; exact hl)
  have hok : InitOk s.params v 1 (some key) (stringIf f fn) (stringIf c cust) :=
    { hstring with
      strings := .inl htakes
      lengths := by
        rw [getD_stringIf hf, getD_stringIf hc]
        exact ⟨hkey, hfn, hcust⟩
      prefixed := by simpa [prefixBits, hcshake, hkmac] using hstring.prefixed }
  have hkc : keyContext v (stringIf true key) fn cust (freshContext v 1) = kmacInit key cust (freshContext v 1) := by
    simp [keyContext, hcshake, hkmac, stringIf]
  rw [exec_init_of_ok (p := true) hk hf hc hdin hok, hkc,
    kmacInit_eq (c := freshContext v 1) rfl hb hflat hkb hkflat]
  simp [freshContext]

/-! ### The errors of INIT -/

/-- R174: the bits of a prefix, in the statements' words. -/
theorem prefixBits_eq (v : Variant) (keyed : Bool) (key fn cust : List Byte) :
    prefixBits v keyed key fn cust =
      if isCshake v then
        if fn = [] ∧ cust = [] then 0 else 8 * (bytePad (encodeString fn ++ encodeString cust) (blockBits v / 8)).length
      else if isKmac v then 8 * (bytePad (encodeString kmacName ++ encodeString cust) (blockBits v / 8)).length +
        8 * (bytePad (encodeString key) (blockBits v / 8)).length
      else if keyed && hmacOk v then blockBits v else 0 := by
  simp only [prefixBits, Bool.and_eq_true, List.isEmpty_iff]
  rfl

section
variable {p f c : Bool} {kl fl cl : Nat} {kw fw cw : List Word}

/-- R79, R180: some string of INIT is not whole bytes. -/
theorem anyString_unaligned (hk : WireBitsIf p kl kw) (hf : WireBitsIf f fl fw) (hc : WireBitsIf c cl cw) (nr : Word) :
    (InitOperands.mk nr (operandIf p kl kw) (operandIf f fl fw) (operandIf c cl cw)).anyString WireString.unaligned =
      decide (kl % 8 ≠ 0 ∨ fl % 8 ≠ 0 ∨ cl % 8 ≠ 0) := by
  simp only [InitOperands.anyString, any_operandIf hk operandOf_unaligned rfl,
    any_operandIf hf operandOf_unaligned rfl, any_operandIf hc operandOf_unaligned rfl, Bool.decide_or, Bool.or_assoc]

/-- R180: some string of INIT is beyond the limit. -/
theorem anyString_limit (hk : WireBitsIf p kl kw) (hf : WireBitsIf f fl fw) (hc : WireBitsIf c cl cw) (nr : Word)
    (m : Nat) :
    (InitOperands.mk nr (operandIf p kl kw) (operandIf f fl fw) (operandIf c cl cw)).anyString
      (fun w => decide (w.bitLen > m)) = decide (m < kl ∨ m < fl ∨ m < cl) := by
  have hany : ∀ {present : Bool} {n : Nat} {ws : List Word}, WireBitsIf present n ws →
      (operandIf present n ws).any (fun w => decide (w.bitLen > m)) = decide (m < n) := fun h =>
    any_operandIf h (bits := fun n => decide (m < n)) (fun _ _ => rfl) (by simp)
  simp only [InitOperands.anyString, hany hk, hany hf, hany hc, Bool.decide_or, Bool.or_assoc]

/-- R180, R307: the codes of INIT's checks. -/
theorem codes_initChecks (hk : WireBitsIf p kl kw) (hf : WireBitsIf f fl fw) (hc : WireBitsIf c cl cw) (nr : Word)
    (params : Config.Params) (v : Variant) :
    (initChecks params v ⟨nr, operandIf p kl kw, operandIf f fl fw, operandIf c cl cw⟩).codes =
      [(decide (kl % 8 ≠ 0 ∨ fl % 8 ≠ 0 ∨ cl % 8 ≠ 0), 0x13),
       (decide (nr = 0), 0x02),
       (p && hasNoMac v, 0x24),
       (!p && isKmac v, 0x05),
       (decide (nr ≠ 1) && isCshake v, 0x04),
       (decide (1 < nr.toNat) && (p || isKmac v), 0x03),
       (decide (params.maxTotalBits < kl ∨ params.maxTotalBits < fl ∨ params.maxTotalBits < cl ∨
         params.maxTotalBits < prefixBits v p (unpack (orderOf v) (kw.drop 2) (kl / 8))
           (unpack (orderOf v) (fw.drop 2) (fl / 8)) (unpack (orderOf v) (cw.drop 2) (cl / 8))), 0x43)] := by
  have hnr : (nr == 0) = decide (nr = 0) ∧ (nr != 1) = decide (nr ≠ 1) := by simp [bne, beq_eq_decide]
  have hnone : (operandIf p kl kw).isNone = !p := by rw [← Option.not_isSome, isSome_operandIf]
  simp only [initChecks, Checks.codes, List.map_cons, List.map_nil, anyString_unaligned hk hf hc,
    anyString_limit hk hf hc, bytesOr_operandIf hk, bytesOr_operandIf hf, bytesOr_operandIf hc,
    isSome_operandIf, hnone, hnr, ← Bool.decide_or, or_assoc]
  rfl

end

/-- Settles O20: the operands are read, and the codes of INIT's checks are those of its list. -/
theorem initErrors : Obligations.InitErrors := by
  intro s rest kw fw cw vo p f c nr kl fl cl hk hf hc hdin
  have hread := hdin ▸ dinInit_append hk hf hc nr rest
  have hraise : ∀ e, buildContext vo s.params ⟨nr, operandIf p kl kw, operandIf f fl fw, operandIf c cl cw⟩ = .error e →
      e ≠ .illegalCommand →
      exec (.init vo p f c) s = .next { contextError s rest e.code with bound := false } := fun e he hillegal =>
    (constructCommand_raises hread he).trans (by simp [State.raise, State.take, contextError, hillegal])
  cases vo with
  | none => exact fun _ => hraise .invalidVariant rfl (by decide)
  | some v =>
    have hcodes := codes_initChecks hk hf hc nr s.params v
    rw [hasNoMac_eq, prefixBits_eq] at hcodes
    refine fun hcode => ?_
    obtain ⟨e, he, hcode'⟩ := exists_firstError_of_codes hcodes hcode
    rw [hraise e (checked_of_some he) (initChecks_errors he).2, hcode']
    rfl

end Sys2Proof.Machine
end

section
/-! PROOFS. UPDATE and the GET commands (spec 42_engine_hmac.md R182, R183, R186 to R190): each in the statements'
words, family by family; and the run of the HMAC pseudo-instruction (30_encoding.md R102). -/

namespace Sys2Proof.Machine

open Sys2Proof.Claims

/-! ### UPDATE -/

/-- R182: UPDATE in a ready state, within the limit. -/
theorem exec_update_of_wire {s : State} {c : Context} {data : List Byte} {dw rest : List Word} (hs : Ready s c)
    (hwire : Wire (orderOf c.variant) data dw)
    (hl : c.processedBits + 8 * c.rem.length + 8 * data.length ≤ s.params.maxTotalBits) (hdin : s.din = dw ++ rest) :
    exec .update s = .next { done s rest [] with ctx := some (absorbData data c) } := by
  have hread := hdin ▸ dinString_of_wireBits (wireBits_of_wire hwire) rest
  have hchecks : firstError (updateChecks s.params c (operandOf (8 * data.length) dw)) = none := by
    simp [updateChecks, hl]
  have hexec := boundCommand_completes (run := fun params c x =>
    checked (updateChecks params c x) (absorbData (x.bytes (orderOf c.variant)) c, [])) hread
    (State.entry_ok.mpr hs) (checked_of_none hchecks)
  rwa [bytes_operandOf_of_wire hwire] at hexec

/-- Settles O21: the blocks and the rest are those the buffer and the data are cut into. -/
theorem updateAbsorbs : Obligations.UpdateAbsorbs := by
  intro s rest dw c data hs hwire hl hdin
  obtain ⟨blks, r, hbuf, hb, hr⟩ := exists_blocks (blockBytes_pos c.variant) (c.rem ++ data)
  refine ⟨blks, r, hbuf, hb, hr, ?_⟩
  rw [exec_update_of_wire hs hwire hl hdin, absorbData_eq hbuf hb hr]

/-- R182: the bits counted and buffered grow by the data's. -/
theorem absorbData_bits (data : List Byte) (c : Context) :
    (absorbData data c).processedBits + 8 * (absorbData data c).rem.length =
      c.processedBits + 8 * c.rem.length + 8 * data.length := by
  obtain ⟨blks, r, hbuf, hb, hr⟩ := exists_blocks (blockBytes_pos c.variant) (c.rem ++ data)
  have hlen := congrArg List.length hbuf
  have hbits := bits_of_blocks hb
  simp only [List.length_append] at hlen
  rw [absorbData_eq hbuf hb hr]
  dsimp only
  omega

/-- R183: absorbing one string and then another is absorbing their concatenation. -/
theorem absorbData_absorbData (a b : List Byte) (c : Context) :
    absorbData b (absorbData a c) = absorbData (a ++ b) c := by
  obtain ⟨blks, r, hbuf, hb, hr⟩ := exists_blocks (blockBytes_pos c.variant) (c.rem ++ a)
  obtain ⟨blks', r', hbuf', hb', hr'⟩ := exists_blocks (blockBytes_pos c.variant) (r ++ b)
  have hboth : c.rem ++ (a ++ b) = (blks ++ blks').flatten ++ r' := by
    rw [← List.append_assoc, hbuf, List.append_assoc, hbuf', List.flatten_append, List.append_assoc]
  have hball : ∀ b ∈ blks ++ blks', b.length = blockBytes c.variant := List.forall_mem_append.mpr ⟨hb, hb'⟩
  have hfirst := absorbData_eq hbuf hb hr
  have hsecond := absorbData_eq (c := absorbData a c) (data := b) (r := r') (blks := blks')
    (by rw [hfirst]; exact hbuf') (by rw [hfirst]; exact hb') (by rw [hfirst]; exact hr')
  rw [hsecond, absorbData_eq hboth hball hr', hfirst]
  simp only [absorbBlocks_append, List.length_append, Nat.add_mul, Nat.add_assoc]

/-- Settles O22, by `absorbData_absorbData`. -/
theorem updateIsIncremental : Obligations.UpdateIsIncremental := by
  intro s rest aw bw abw c a b hs haw hbw habw hl hdin
  obtain ⟨hp, hb, hctx⟩ := hs
  have hsplit : c.processedBits + 8 * c.rem.length + 8 * a.length + 8 * b.length ≤ s.params.maxTotalBits := by
    rw [List.length_append] at hl
    omega
  have h₁ := exec_update_of_wire ⟨hp, hb, hctx⟩ haw (by omega) hdin
  have h₂ := exec_update_of_wire (s := { done s (bw ++ rest) [] with ctx := some (absorbData a c) })
    (c := absorbData a c) ⟨hp, hb, rfl⟩ hbw (by rw [absorbData_bits]; exact hsplit) rfl
  have h₃ := exec_update_of_wire (s := { s with din := abw ++ rest }) ⟨hp, hb, hctx⟩ habw hl rfl
  rw [absorbData_absorbData] at h₂
  exact ⟨_, _, _, h₁, h₂, h₃, rfl, rfl, rfl, by simp [done]⟩

/-! ### GET_HASH -/

/-- R192: a GET that has a result completes and leaves the context as it was. -/
theorem exec_get {α : Type} {i : Instr} {read : Din α} {result : Config.Params → Context → α → Except Error (List Byte)}
    (hi : ∀ s, exec i s = boundCommand read (fun params c x => getAnswer c (result params c x)) s) {s : State}
    {c : Context} (hs : Ready s c) {x : α} {rest : List Word} (hread : read s.din = some (x, rest)) {out : List Byte}
    (hresult : result s.params c x = .ok out) :
    exec i s = .next (done s rest (stringWords (orderOf c.variant) out)) := by
  have hrun : getAnswer c (result s.params c x) = .ok (c, stringWords (orderOf c.variant) out) := by
    rw [hresult, getAnswer]
  rw [hi, boundCommand_completes hread (State.entry_ok.mpr hs) hrun]
  obtain ⟨-, -, hctx⟩ := hs
  simp [State.complete, State.take, done, hctx, statusOk]

/-- R172: only F_SHA3 reads the delimiter. -/
theorem finalize_congr_delim {v : Variant} {h : HashState} {d d' : Byte} (hd : h.family = .sha3 → d = d')
    (m : List Byte) (p ob : Nat) : finalize v m p h ob d = finalize v m p h ob d' := by
  cases h with
  | sha1 | sha256 | sha512 => rfl
  | sha3 a => rw [hd rfl]

section
variable {c : Context} {d : Byte} (hd : c.h.family = .sha3 ∨ family c.variant = .sha3 → c.delim = some d)
include hd

/-- R28: the finalize of a context and those of further rounds read its delimiter. -/
theorem finalize_delim (m : List Byte) (p ob : Nat) :
    finalize c.variant m p c.h ob (c.delim.getD Config.absentDelim) = finalize c.variant m p c.h ob d ∧
    ∀ h, h.family = family c.variant →
      finalize c.variant m p h ob (c.delim.getD Config.absentDelim) = finalize c.variant m p h ob d := by
  refine ⟨finalize_congr_delim (fun hf => by rw [hd (.inl hf), Option.getD_some]) m p ob, fun h hh => ?_⟩
  exact finalize_congr_delim (fun hf => by rw [hd (.inr (hh.symm.trans hf)), Option.getD_some]) m p ob

/-- R186: the digest as the iterated finalize. -/
theorem digest_eq (ob : Nat) :
    digest c ob = (fun m => finalize c.variant m 0 (newState c.variant) ob d)^[c.numRounds.toNat - 1]
      (finalize c.variant c.rem c.processedBits c.h ob d) := by
  have hrounds : (fun m => finalize c.variant m 0 (newState c.variant) ob (c.delim.getD Config.absentDelim)) =
      fun m => finalize c.variant m 0 (newState c.variant) ob d :=
    funext fun m => (finalize_delim hd m 0 ob).2 _ (newState_family _)
  simp only [digest, repeated_eq_iterate, hrounds, (finalize_delim hd c.rem c.processedBits ob).1]

end

/-- Settles O25: each family's clause is the digest in its own words, at one round. -/
theorem getHashWritesDigest : Obligations.GetHashWritesDigest := by
  rintro s rest lw c len ob d hs hkey hob hd hlen rfl hdin
  have hread := hdin ▸ dinLen_when_append hlen rest
  have hdigest := digest_eq hd ob
  have hfamily : c.h.family = family c.variant →
      digest c ob = (fun m => digestBytes c.variant m 0 (newState c.variant) ob d)^[c.numRounds.toNat - 1]
        (digestBytes c.variant c.rem c.processedBits c.h ob d) := fun hf => by
    have hbits := eq_outBits_of_outLength hob
    simp only [hdigest, finalize_eq_digestBytes hf hbits, finalize_eq_digestBytes (newState_family _) hbits]
  have hround : ∀ {v h}, c.variant = v → c.h = h → h.family = family v → c.numRounds = 1 →
      digest c ob = digestBytes v c.rem c.processedBits h ob d := by
    rintro _ _ rfl rfl hf hr
    rw [hfamily hf, hr]
    rfl
  refine ⟨digest c ob, exec_get (i := .getHash len.isSome) (execGetHash.eq_1 _) hs hread (hashResult_eq_ok hkey hob),
    hdigest, hfamily, fun h hv hh => hround hv hh rfl, fun h hv hh => hround hv hh rfl, fun h hv hh => hround hv hh rfl,
    fun h hv hh => hround hv hh rfl, fun h hv hh hr => ?_, fun a hh hr => ?_⟩
  · exact (hround hv hh rfl hr).trans (List.take_of_length_le (by simp [unpackBE]))
  · rw [hdigest, hr, hh]
    rfl

/-! ### GET_HMAC and GET_MAC -/

/-- R188: GET_HMAC of a keyed context with its outer pad. -/
theorem hmacResult_eq_ok {c : Context} {opad : List Word} (hv : hmacOk c.variant = true) (hkey : c.macKeySet = true)
    (hopad : c.opad = some opad) : hmacResult c = .ok (hmacDigest c opad) := by
  simp [hmacResult, hv, hkey, hopad]

/-- R188: the outer hash over the inner one. -/
theorem hmacDigest_eq {c : Context} {d : Byte} (hd : c.h.family = .sha3 ∨ family c.variant = .sha3 → c.delim = some d)
    (opad : List Word) :
    hmacDigest c opad = finalize c.variant
      (finalize c.variant c.rem c.processedBits c.h ((outBits c.variant).getD 0) d) (blockBits c.variant)
      (absorbBlocks c.variant [unpack (orderOf c.variant) opad (blockBytes c.variant)] (newState c.variant))
      ((outBits c.variant).getD 0) d := by
  simp only [hmacDigest, absorbBlocks_eq_foldl, List.foldl_cons, List.foldl_nil, (finalize_delim hd _ _ _).1]
  exact (finalize_delim hd _ _ _).2 _ (by rw [compress_family, newState_family])

/-- Settles O26, by the digest in the statement's words. -/
theorem getHmacWritesOuterHash : Obligations.GetHmacWritesOuterHash := by
  intro s c opad d hs hv hkey hopad hd v ob outer
  have hdigest := hmacDigest_eq hd opad
  refine ⟨hmacDigest c opad, exec_get (i := .getHmac) execGetHmac.eq_1 hs (x := ()) rfl
    (hmacResult_eq_ok hv hkey hopad), hdigest, fun hf => ?_⟩
  have hob : ∀ n, outBits v = some n → ob = n := fun n hn => by
    change (outBits v).getD 0 = n
    rw [hn, Option.getD_some]
  have houter : outer.family = family v := by
    change (absorbBlocks v _ (newState v)).family = _
    rw [absorbBlocks_eq_foldl, List.foldl_cons, List.foldl_nil, compress_family, newState_family]
  rw [hdigest, finalize_eq_digestBytes hf hob]
  exact finalize_eq_digestBytes houter hob _ _ _

/-- Settles O27: which result GET_MAC has is decided by the variant. -/
theorem getMacFollowsVariant : Obligations.GetMacFollowsVariant := by
  refine ⟨?_, ?_⟩
  · rintro s rest lw c len hs hv hkey hopad hlen rfl hdin
    obtain ⟨opad, hopad⟩ := Option.ne_none_iff_exists'.mp hopad
    obtain ⟨-, hkmac, hmac⟩ := variant_of_hmacOk hv
    have hresult := hmacResult_eq_ok hv hkey hopad
    have hmacResult : macResult s.params c len = .ok (hmacDigest c opad) := by
      simp [macResult, hmac, hkey, hkmac, hresult]
    exact ⟨_, exec_get (i := .getHmac) (s := { s with din := rest }) execGetHmac.eq_1 hs (x := ()) rfl hresult,
      exec_get (i := .getMac len.isSome) (execGetMac.eq_1 _) hs (hdin ▸ dinLen_when_append hlen rest) hmacResult⟩
  · intro s rest c a d n hs hv hkey ha hd haligned hmax hn hdin
    have hvariant : isKmac c.variant = true ∧ outBits c.variant = none ∧ orderOf c.variant = .le := by
      revert hv; cases c.variant <;> decide
    obtain ⟨hkmac, hvarlen, horder⟩ := hvariant
    have hresult := macResult_eq_ok (p := s.params) hkmac hkey (.inr ⟨hvarlen, rfl, haligned, hmax⟩)
    have hread : dinLen.when true s.din = some (some n, rest) := hdin ▸ Din.map_some (dinLen_lenWords n hn rest)
    rw [exec_get (i := .getMac true) (execGetMac.eq_1 _) hs hread hresult, horder, kmacFinalize, ha, hd]
    rfl

/-! ### HMAC -/

/-- R177: the key of a variant whose output length is named. -/
theorem hmacKey_eq {v : Variant} {ob : Nat} (hob : outBits v = some ob) {k key : List Byte}
    (hk : k = if key.length > blockBits v / 8 then digestOf v ob key else key) :
    k ++ List.replicate (blockBits v / 8 - k.length) 0 = hmacKey v key := by
  rw [hmacKey, hob, Option.getD_some, hk]

/-- R177, R178: the padded key fills one block, and so does the key XORed with a pad. -/
theorem xorPad_hmacKey_length {v : Variant} (hv : hmacOk v = true) (pad : Byte) (key : List Byte) :
    (xorPad pad (hmacKey v key)).length = blockBytes v := by
  rw [xorPad_length, ← paddedKey_eq_hmacKey hv, paddedKey_length key hv]

/-- R178: a keyed context has absorbed the key XORed with the inner pad. -/
theorem applyHmacKey_absorbed {v : Variant} (hv : hmacOk v = true) (key : List Byte) (nr : Word) :
    (applyHmacKey key (freshContext v nr)).Absorbed (xorPad ipadByte (hmacKey v key)) := by
  have hlen := xorPad_hmacKey_length hv ipadByte key
  have hkey : paddedKey (freshContext v nr).variant key = hmacKey v key := paddedKey_eq_hmacKey hv key
  refine ⟨1, ?_, ?_, ?_, ?_⟩ <;> simp only [applyHmacKey, hkey, Nat.one_mul]
  · exact hlen.ge
  · exact (List.drop_eq_nil_of_le hlen.le).symm
  · rw [foldBlocks, foldBlocks_zero]
    exact congrArg (compress v (newState v)) (List.take_of_length_le hlen.le).symm

/-- R188, R189: GET_HMAC hashes the key XORed with the outer pad and the hash of what the context has absorbed. -/
theorem Context.Absorbed.hmacDigest {c : Context} {m k : List Byte} (h : c.Absorbed m)
    (hd : c.delim = initDelim c.variant) {ob : Nat} (hob : outBits c.variant = some ob)
    (hk : k.length = blockBytes c.variant) :
    hmacDigest c (pack (orderOf c.variant) k) = digestOf c.variant ob (k ++ digestOf c.variant ob m) := by
  have hbits : ∀ n, outBits c.variant = some n → ob = n := fun n hn => Option.some.inj (hob.symm.trans hn)
  have hinner := h.finalize [] ob ((initDelim c.variant).getD Config.absentDelim)
  have houter := finalize_append (newState_family c.variant) hk (digestOf c.variant ob m) 0 ob
    ((initDelim c.variant).getD Config.absentDelim)
  rw [List.append_nil, List.append_nil, finalize_newState hbits] at hinner
  rw [finalize_newState hbits, Nat.zero_add] at houter
  rw [houter, Machine.hmacDigest, hd, hob, Option.getD_some, hinner, ← hk, unpack_pack]

/-- R188, R192: GET_HMAC in a run. -/
theorem State.perform_getHmac {p : Config.Params} {c : Context} {out : List Byte} (h : hmacResult c = .ok out)
    (o : ByteOrder) :
    (State.ready p c).perform (Line.getHmac.issue o) =
      ((0x00, stringWords (orderOf c.variant) out), State.ready p c) :=
  State.perform_bound (i := .getHmac) (x := ()) rfl execGetHmac.eq_1 rfl (by rw [h, getAnswer])

/-- Settles O32: a context keyed by INIT has absorbed the key XORed with the inner pad, and then the data. -/
theorem hmacRun : Obligations.HmacRun := by
  rintro s v key k0 data ob hs hp hv hob hkey hl ⟨k, hk, rfl⟩
  rw [hmacKey_eq hob hk]
  have hinit : InitOk s.params v 1 (some key) none none := initOk_of_hmac hv hkey (by omega)
  have habsorbed := applyHmacKey_absorbed hv key 1
  have hlimit : 8 * (xorPad ipadByte (hmacKey v key) ++ data).length ≤ s.params.maxTotalBits := by
    rw [List.length_append, xorPad_hmacKey_length hv, Nat.mul_add, ← blockBits_eq]
    exact hl
  have hopad : (absorbData data (applyHmacKey key (freshContext v 1))).opad =
      some (pack (orderOf v) (xorPad opadByte (hmacKey v key))) := by
    rw [← paddedKey_eq_hmacKey hv]
    rfl
  have hdigest := (habsorbed.absorbData data).hmacDigest rfl hob (xorPad_hmacKey_length hv opadByte key)
  refine runLines_init_update_get hs hp hinit (keyContext_of_hmac hv key 1) rfl habsorbed hlimit ?_
  exact State.perform_getHmac ((hmacResult_eq_ok hv rfl hopad).trans (congrArg _ hdigest)) _

end Sys2Proof.Machine
end

section
/-! PROOFS. What the two Merkle–Damgård designs share (spec 43_sha1.md R211, R215 to R217; 44_sha2.md R237): a message
schedule extended word by word, the padded buffer as the packed words of the padded message, and the completion of a
finalize operation. -/

namespace Sys2Proof.Machine

open Sys2Proof.Claims

/-! ### Schedules -/

/-- R211: a block extended by `k` more words, each computed by `next` from the words before it, newest first. -/
def extendedSchedule {α : Type} (next : List α → α) : Nat → List α → List α
  | 0, blk => blk
  | k + 1, blk => extendedSchedule next k blk ++ [next (extendedSchedule next k blk).reverse]

section
variable {α : Type} (next : List α → α) (k : Nat) (blk : List α)

/-- Extending a list at its front, newest first, is extending the schedule at its end. -/
theorem reverse_iterate_eq_extendedSchedule :
    ((fun w => next w :: w)^[k] blk.reverse).reverse = extendedSchedule next k blk := by
  induction k with
  | zero => exact List.reverse_reverse blk
  | succ k ih => rw [Function.iterate_succ_apply', List.reverse_cons, ih, extendedSchedule, ← ih, List.reverse_reverse]

@[simp] theorem extendedSchedule_length : (extendedSchedule next k blk).length = blk.length + k := by
  induction k with
  | zero => rfl
  | succ k ih => rw [extendedSchedule, List.length_append, ih, List.length_singleton, Nat.add_assoc]

variable {next k blk} {t : Nat} (zero : α)

/-- R211: a schedule begins with its block. -/
theorem extendedSchedule_getD_of_lt (ht : t < blk.length) :
    (extendedSchedule next k blk).getD t zero = blk.getD t zero := by
  induction k with
  | zero => rfl
  | succ k ih =>
    rw [extendedSchedule, List.getD_append _ _ _ _ (by rw [extendedSchedule_length]; omega), ih]

/-- R211: each later word of a schedule is computed from the words before it. -/
theorem extendedSchedule_getD_of_ge (hlow : blk.length ≤ t) (ht : t < blk.length + k) :
    (extendedSchedule next k blk).getD t zero = next ((extendedSchedule next k blk).take t).reverse := by
  induction k with
  | zero => omega
  | succ k ih =>
    have hlen := extendedSchedule_length next k blk
    rw [extendedSchedule]
    by_cases hlast : t = blk.length + k
    · rw [hlast, List.getD_append_right _ _ _ _ hlen.le, List.take_left' hlen, hlen, Nat.sub_self, List.getD_cons_zero]
    · rw [List.getD_append _ _ _ _ (by omega), List.take_append_of_le_length (by omega), ih (by omega)]

/-- Word `j` of the newest-first words before word `t` is word `t - 1 - j`. -/
theorem getD_reverse_take {l : List α} {j : Nat} (ht : t ≤ l.length) (hj : j < t) :
    (l.take t).reverse.getD j zero = l.getD (t - 1 - j) zero := by
  have hlen : (l.take t).length = t := List.length_take_of_le ht
  rw [List.getD_reverse _ (by omega), hlen, List.getD_eq_getElem _ _ (by omega), List.getElem_take,
    List.getD_eq_getElem]

end

/-! ### The padded message -/

section
variable (m : List Byte)

/-- R216: byte by byte, the message with its 1 bit and zero bytes is the message but for the byte of the 1 bit. -/
theorem getD_oneBit (z i : Nat) :
    (m ++ 0x80 :: List.replicate z 0).getD i (0 : Byte) = if i = m.length then 0x80 else m.getD i 0 := by
  obtain hi | rfl | hi := Nat.lt_trichotomy i m.length
  · rw [List.getD_append _ _ _ _ hi, if_neg hi.ne]
  · simp
  · obtain ⟨j, rfl⟩ := Nat.exists_eq_add_of_lt hi
    rw [List.getD_append_right _ _ _ _ (by omega), if_neg hi.ne', List.getD_eq_default m _ (by omega),
      Nat.add_assoc, Nat.add_sub_cancel_left, List.getD_cons_succ, List.getD_eq_getElem?_getD,
      List.getElem?_getD_replicate_default_eq]

variable {m}

/-- R73: zero words after the packed words are words of bytes beyond the end. -/
theorem extendTo_packBE {n : Nat} (hn : m.length ≤ 4 * n) :
    extendTo 0 n (packBE m) = (List.range n).map fun j => wordBE m (4 * j) := by
  have hlen : (packBE m).length = (m.length + 3) / 4 := pack_length .be m
  obtain ⟨d, hd⟩ := Nat.exists_eq_add_of_le (show (m.length + 3) / 4 ≤ n by omega)
  have hzero : ∀ j, wordBE m (4 * ((m.length + 3) / 4 + j)) = 0 := fun j =>
    packedWord_congr .be (t := []) (j := 0) fun k _ => List.getD_eq_default _ _ (by omega)
  rw [extendTo, hlen, hd, Nat.add_sub_cancel_left, List.range_add, List.map_append, List.map_map, packBE]
  congr 1
  simp [Function.comp_def, hzero, List.map_const']

/-- R215: the word of the 1 bit has it in byte `k` and zeros elsewhere. -/
theorem oneBit_bytes : ∀ k < 4, ∀ i < 4,
    ((0x80 : Word) <<< (24 - 8 * k)).extractLsb' (byteShift .be i) 8 = if i = k then 0x80 else 0 := by
  decide

/-- R215: setting the 1 bit in the word that holds the message's end is packing the byte 0x80 after the message. -/
theorem wordBE_or_oneBit (z : Nat) :
    wordBE m (4 * (m.length / 4)) ||| (0x80 : Word) <<< (24 - 8 * (m.length % 4)) =
      wordBE (m ++ 0x80 :: List.replicate z 0) (4 * (m.length / 4)) := by
  refine word_eq_of_bytes .be fun i hi => ?_
  have hbyte : ∀ s j, (wordBE s j).extractLsb' (byteShift .be i) 8 = s.getD (j + i) 0 :=
    fun s j => packedWord_extract .be s j hi
  rw [BitVec.extractLsb'_or, hbyte, hbyte, oneBit_bytes _ (Nat.mod_lt _ (by decide)) i hi, getD_oneBit]
  by_cases hend : i = m.length % 4
  · have hat : 4 * (m.length / 4) + i = m.length := by omega
    rw [if_pos hend, if_pos hat, hat, List.getD_eq_default _ _ le_rfl]
    rfl
  · rw [if_neg hend, if_neg (by omega)]
    exact BitVec.or_zero

/-- R215, R247: the message words with the 1 bit are the packed words of the message, the byte 0x80 and zero bytes. -/
theorem withOneBit_eq_packBE {n : Nat} (hn : m.length < 4 * n) :
    withOneBit m n = packBE (m ++ 0x80 :: List.replicate (4 * n - (m.length + 1)) 0) := by
  have hwords : ((m ++ 0x80 :: List.replicate (4 * n - (m.length + 1)) (0 : Byte)).length + 3) / 4 = n := by
    simp only [List.length_append, List.length_cons, List.length_replicate]
    omega
  have hword : (8 * m.length) >>> 5 = m.length / 4 := by rw [Nat.shiftRight_eq_div_pow]; omega
  have hbit : 8 * m.length % 32 = 8 * (m.length % 4) := by omega
  rw [withOneBit, extendTo_packBE hn.le, hword, hbit, packBE, hwords]
  refine List.ext_getElem (by simp) fun j hj _ => ?_
  rw [List.getElem_modify]
  simp only [List.getElem_map, List.getElem_range]
  split
  · next hend => rw [← hend, wordBE_or_oneBit]
  · next hend => exact packedWord_congr .be fun k hk => by rw [getD_oneBit, if_neg (by omega)]

/-- R73: zero bytes are packed into zero words. -/
theorem packBE_replicate_zero (n : Nat) : packBE (List.replicate (4 * n) 0) = List.replicate n 0 := by
  have hlen : (packBE (List.replicate (4 * n) 0)).length = n :=
    (pack_length .be _).trans (by rw [List.length_replicate]; omega)
  refine List.eq_replicate_iff.mpr ⟨hlen, fun w hw => ?_⟩
  obtain ⟨j, -, rfl⟩ := List.mem_map.mp hw
  exact packedWord_congr .be (t := []) (j := 0) fun k _ => by
    rw [List.getD_eq_getElem?_getD, List.getElem?_getD_replicate_default_eq, List.getD_nil]

theorem length_oneBit {n : Nat} (hn : m.length < 4 * n) :
    (m ++ [0x80] ++ List.replicate (4 * n - (m.length + 1)) (0 : Byte)).length = 4 * n := by
  simp only [List.length_append, List.length_replicate, List.length_singleton]
  omega

/-- R215, R247: zero words after those that hold the message and its 1 bit are left as they are. -/
theorem withOneBit_add {n : Nat} (hn : m.length < 4 * n) (c : Nat) :
    withOneBit m (n + c) =
      packBE (m ++ [0x80] ++ List.replicate (4 * n - (m.length + 1)) 0) ++ List.replicate c 0 := by
  have hbody := length_oneBit hn
  have hzeros : 4 * (n + c) - (m.length + 1) = 4 * n - (m.length + 1) + 4 * c := by omega
  have happend := pack_append .be hbody (List.replicate (4 * c) 0)
  rw [withOneBit_eq_packBE (by omega), hzeros, List.replicate_add, ← packBE_replicate_zero]
  simpa only [pack, List.append_assoc, List.cons_append, List.nil_append] using happend

/-- A byte of the low 32 bits of a natural is that byte of the natural. -/
theorem extract_byte_ofNat (x : Nat) {s : Nat} (hs : s ≤ 24) :
    (BitVec.ofNat 32 x).extractLsb' s 8 = BitVec.ofNat 8 (x / 2 ^ s) := by
  apply BitVec.eq_of_getLsbD_eq
  intro i hi
  have hlt : s + i < 32 := by omega
  rw [BitVec.getLsbD_extractLsb', BitVec.getLsbD_ofNat, BitVec.getLsbD_ofNat, Nat.testBit_div_two_pow, Nat.add_comm i]
  simp only [hi, hlt, decide_true, Bool.true_and]

/-- R73, R279: the packed words of a big-endian number of `n` words are its words, the highest first. -/
theorem packBE_bigEndian (n x : Nat) :
    packBE (bigEndian (4 * n) x) = (List.range n).map fun j => BitVec.ofNat 32 (x / 2 ^ (32 * (n - 1 - j))) := by
  have hlen : (bigEndian (4 * n) x).length = 4 * n := by simp [bigEndian]
  have hwords : ((bigEndian (4 * n) x).length + 3) / 4 = n := by omega
  rw [packBE, hwords]
  refine List.map_congr_left fun j hj => word_eq_of_bytes .be fun k hk => ?_
  have hj := List.mem_range.mp hj
  have hbyte : (wordBE (bigEndian (4 * n) x) (4 * j)).extractLsb' (byteShift .be k) 8 =
      (bigEndian (4 * n) x).getD (4 * j + k) 0 := packedWord_extract .be _ _ hk
  have hshift : byteShift .be k ≤ 24 := Nat.sub_le _ _
  have hpow : 256 ^ (4 * n - 1 - (4 * j + k)) = 2 ^ (32 * (n - 1 - j)) * 2 ^ byteShift .be k := by
    rw [← pow_add, show 256 = 2 ^ 8 by rfl, ← pow_mul, byteShift]
    congr 1
    omega
  rw [hbyte, List.getD_eq_getElem _ _ (by omega), extract_byte_ofNat _ hshift, Nat.div_div_eq_div_mul,
    ← hpow]
  simp [bigEndian]

/-- R216: the 64-bit length field. -/
theorem packBE_bigEndian_eight (x : Nat) :
    packBE (bigEndian 8 x) = [BitVec.ofNat 32 (x / 2 ^ 32), BitVec.ofNat 32 (x % 2 ^ 32)] := by
  have hlow : BitVec.ofNat 32 (x % 2 ^ 32) = BitVec.ofNat 32 x :=
    BitVec.eq_of_toNat_eq (by rw [BitVec.toNat_ofNat, BitVec.toNat_ofNat, Nat.mod_mod])
  rw [hlow, packBE_bigEndian 2 x]
  simp [List.range_succ]

/-- R216: the padded message of F_SHA1 and F_SHA256; the zero bytes are the fewest that make whole 64-byte blocks. -/
def paddedMessage512 (m : List Byte) (p : Nat) : List Byte :=
  m ++ [0x80] ++ List.replicate (63 - (m.length + 8) % 64) 0 ++ bigEndian 8 (p + 8 * m.length)

/-- R216: the padded message fills the blocks F_SHA1 and F_SHA256 count. -/
theorem paddedMessage512_length (m : List Byte) (p : Nat) :
    (paddedMessage512 m p).length = (padOff512 (8 * m.length) + 1) / 16 * 64 := by
  simp only [paddedMessage512, padOff512, bigEndian, List.length_append, List.length_replicate,
    List.length_singleton, List.length_map, List.length_range, Nat.shiftRight_eq_div_pow]
  omega

/-- R215, R216: the padded buffer holds the packed words of the padded message: the length field takes the place of the
last two zero words. -/
theorem padBuffer512_eq_packBE (m : List Byte) (p : Nat) : padBuffer512 m p = packBE (paddedMessage512 m p) := by
  obtain ⟨n, hoff, hn⟩ : ∃ n, padOff512 (8 * m.length) = n + 1 ∧ n = (m.length + 8) / 64 * 16 + 14 :=
    ⟨_, by rw [padOff512, Nat.shiftRight_eq_div_pow]; omega, rfl⟩
  have hzeros : 63 - (m.length + 8) % 64 = 4 * n - (m.length + 1) := by omega
  have hlen : m.length < 4 * n := by omega
  have hbody := length_oneBit hlen
  have hwords : (packBE (m ++ [0x80] ++ List.replicate (4 * n - (m.length + 1)) 0)).length = n :=
    (pack_length .be _).trans (by omega)
  have hpadded : packBE (paddedMessage512 m p) = _ ++ packBE (bigEndian 8 (p + 8 * m.length)) :=
    pack_append .be (hzeros ▸ hbody) _
  rw [hpadded, packBE_bigEndian_eight, hzeros, Nat.add_comm p]
  simp only [padBuffer512, hoff, Nat.add_assoc n, Nat.add_sub_cancel, withOneBit_add hlen]
  exact (congrArg (List.set · _ _) (set_append_add hwords [0, 0] 0 _)).trans (set_append_add hwords [_, 0] 1 _)

/-- Folding over the words of whole blocks is folding over the blocks, each packed. -/
theorem foldBlocks_packBE {σ : Type} (f : σ → List Word → σ) {n : Nat} {blks : List (List Byte)}
    (hb : ∀ b ∈ blks, b.length = 4 * n) (h : σ) :
    foldBlocks n f blks.length h (packBE blks.flatten) = blks.foldl (fun h b => f h (packBE b)) h := by
  induction blks generalizing h with
  | nil => rfl
  | cons b blks ih =>
    obtain ⟨hlen, hb⟩ := List.forall_mem_cons.mp hb
    have hpb : (packBE b).length = n := (pack_length .be b).trans (by omega)
    have hpack : packBE (b ++ blks.flatten) = packBE b ++ packBE blks.flatten := pack_append .be hlen _
    rw [List.flatten_cons, List.length_cons, hpack, foldBlocks_succ_append _ _ _ hpb, ih hb, List.foldl_cons]

/-- R216: the message is padded to whole blocks, and hashing its padded buffer is hashing those blocks in order. -/
theorem exists_paddedBlocks (m : List Byte) (p : Nat) :
    ∃ (k : Nat) (blks : List (List Byte)), k < 64 ∧ (∀ b ∈ blks, b.length = 64) ∧
      blks.flatten = m ++ [0x80] ++ List.replicate k 0 ++ bigEndian 8 (p + 8 * m.length) ∧
      ∀ {σ : Type} (f : σ → List Word → σ) (h : σ),
        foldBlocks 16 f ((padOff512 (8 * m.length) + 1) / 16) h (padBuffer512 m p) =
          blks.foldl (fun h b => f h (packBE b)) h := by
  have hlen := paddedMessage512_length m p
  obtain ⟨blks, hb, hflat⟩ := exists_whole_blocks (n := 64) (by decide) (hlen ▸ Nat.mul_mod_left _ _)
  refine ⟨63 - (m.length + 8) % 64, blks, by omega, hb, hflat, fun f h => ?_⟩
  have hcount : (padOff512 (8 * m.length) + 1) / 16 = blks.length := by
    rw [← hflat, length_flatten_blocks hb] at hlen
    omega
  rw [padBuffer512_eq_packBE, hcount, ← hflat, foldBlocks_packBE f hb]

end

/-! ### A finalize operation completes -/

/-- R217, R241, R248: a finalize operation completes where its checks pass, its result computed from the state words, the
processed length and the message's bytes. -/
theorem completesIf_finalize {σ : Type} {i : Instr} {dinH : Din σ} {block : Nat}
    {result : σ → Nat → List Byte → List Word}
    (hi : ∀ s, exec i s = portCommand (dinFinalize dinH) (fun params x => finalizeChecks block params x.p x.m)
      (fun x => result x.h x.p (x.m.bytes .be)) s)
    {h : σ} {hw mw : List Word} {p : Nat} {m : List Byte} (hH : ∀ later, dinH (hw ++ later) = some (h, later))
    (hp : p < 2 ^ 64) (hblock : p % block = 0) (hm : Wire .be m mw) :
    CompletesIf (fun params => 8 * m.length ≤ params.maxTotalBits ∧ p + 8 * m.length ≤ params.maxTotalBits) i
      (hw ++ (lenWords p ++ mw)) (result h p m) := by
  rintro s rest ⟨hmessage, htotal⟩ hdin
  rw [List.append_assoc, List.append_assoc] at hdin
  have hread := hdin ▸ dinFinalize_append hH hp (wireBits_of_wire hm)
  have hchecks : firstError (finalizeChecks block s.params p (operandOf (8 * m.length) mw)) = none := by
    simp [finalizeChecks, hblock, hmessage, htotal]
  rw [hi, portCommand_completes hread hchecks, bytes_operandOf_of_wire hm]
  rfl

end Sys2Proof.Machine
end

section
/-! PROOFS. SHA-1 (spec 43_sha1.md): the schedule and the rounds as sequences, and the two test-port operations. -/

namespace Sys2Proof.Machine

open Sys2Proof.Claims

/-! ### Word operations as `BitVec` has them -/

theorem rotl32_eq_rotateLeft (x : Word) {n : Nat} (hn : n < 32) : rotl32 x n = x.rotateLeft n := by
  rw [BitVec.rotateLeft, Nat.mod_eq_of_lt hn]
  rfl

theorem add32x2_eq_add (a b : Word) : add32x2 a b = a + b := by
  simp [add32x2, BitVec.ofNat_add]

theorem add32x5_eq_add (a b c d e : Word) : add32x5 a b c d e = a + b + c + d + e := by
  simp [add32x5, BitVec.ofNat_add]

/-! ### The schedule -/

/-- R211: the next schedule word, from the words before it, newest first. -/
def sha1Next (w : List Word) : Word :=
  rotl32 (w.getD 2 0 ^^^ w.getD 7 0 ^^^ w.getD 13 0 ^^^ w.getD 15 0) 1

theorem sha1Extend_eq_iterate (k : Nat) (w : List Word) : sha1Extend k w = (fun w => sha1Next w :: w)^[k] w := by
  induction k generalizing w with
  | zero => rfl
  | succ k ih => exact ih _

theorem sha1Schedule_eq (blk : List Word) : sha1Schedule blk = extendedSchedule sha1Next 64 blk := by
  rw [sha1Schedule, sha1Extend_eq_iterate, reverse_iterate_eq_extendedSchedule]

section
variable {blk : List Word} (hblk : blk.length = 16) {t : Nat}
include hblk

theorem sha1Schedule_length : (sha1Schedule blk).length = 80 := by
  rw [sha1Schedule_eq, extendedSchedule_length, hblk]

/-- R211: the first 16 schedule words are the block. -/
theorem sha1Schedule_getD_of_lt (ht : t < 16) : (sha1Schedule blk).getD t 0 = blk.getD t 0 := by
  rw [sha1Schedule_eq, extendedSchedule_getD_of_lt 0 (by omega)]

/-- R211: each later word is the XOR of four words before it, rotated. -/
theorem sha1Schedule_getD_of_ge (hlow : 16 ≤ t) (ht : t < 80) :
    (sha1Schedule blk).getD t 0 = ((sha1Schedule blk).getD (t - 3) 0 ^^^ (sha1Schedule blk).getD (t - 8) 0 ^^^
      (sha1Schedule blk).getD (t - 14) 0 ^^^ (sha1Schedule blk).getD (t - 16) 0).rotateLeft 1 := by
  have hlen := sha1Schedule_length hblk
  have hnext : (sha1Schedule blk).getD t 0 = sha1Next ((sha1Schedule blk).take t).reverse := by
    rw [sha1Schedule_eq, extendedSchedule_getD_of_ge 0 (by omega) (by omega)]
  have hbefore : ∀ j < t, ((sha1Schedule blk).take t).reverse.getD j 0 = (sha1Schedule blk).getD (t - 1 - j) 0 :=
    fun j hj => getD_reverse_take 0 (by omega) hj
  rw [hnext, sha1Next, rotl32_eq_rotateLeft _ (by decide), hbefore 2 (by omega), hbefore 7 (by omega),
    hbefore 13 (by omega), hbefore 15 (by omega)]
  simp only [Nat.sub_sub]

end

/-! ### The rounds -/

/-- R213: one more schedule word is one more round. -/
theorem sha1Rounds_concat (t : Nat) (v : Five Word) (ws : List Word) (w : Word) :
    sha1Rounds t v (ws ++ [w]) = sha1Round (t + ws.length) w (sha1Rounds t v ws) := by
  induction ws generalizing t v with
  | nil => rfl
  | cons w' ws ih => rw [List.cons_append, sha1Rounds, ih, sha1Rounds, List.length_cons, Nat.add_assoc, Nat.add_comm 1]

/-- R213: the working variables after round `t` are those of one round more on the schedule's word `t`. -/
theorem sha1Rounds_take_succ (h : Five Word) {W : List Word} {t : Nat} (ht : t < W.length) :
    sha1Rounds 0 h (W.take (t + 1)) = sha1Round t (W.getD t 0) (sha1Rounds 0 h (W.take t)) := by
  rw [List.take_add_one, List.getElem?_eq_getElem ht, Option.toList_some, sha1Rounds_concat, Nat.zero_add,
    List.length_take_of_le ht.le, List.getD_eq_getElem _ _ ht]

/-- R212, R213: a round, its functions and constants written out. -/
theorem sha1Round_eq (t : Nat) (w : Word) (v : Five Word) :
    sha1Round t w v =
      ⟨v.e0.rotateLeft 5 + sha1F t v.e1 v.e2 v.e3 + v.e4 + k1 t + w, v.e0, v.e1.rotateLeft 30, v.e2, v.e3⟩ := by
  rw [sha1Round, add32x5_eq_add, rotl32_eq_rotateLeft _ (by decide), rotl32_eq_rotateLeft _ (by decide)]

/-! ### The operations -/

theorem dinFive_toList (h : Five Word) (rest : List Word) : dinFive (h.toList ++ rest) = some (h, rest) :=
  dinFive_append rfl rest

/-- R214: SHA1_COMPRESS writes the compressed state. -/
theorem completes_sha1Compress (h : Five Word) {blk : List Word} (hblk : blk.length = 16) :
    Completes .sha1Compress (h.toList ++ blk) (sha1Compress h blk).toList :=
  completes_of_noChecks (result := Five.toList) (fun _ => rfl) fun rest => by
    rw [List.append_assoc, Din.bind_some (dinFive_toList h _), Din.map_some (dinWords_append blk rest 16 hblk)]

/-- Settles O36: `W` reads the schedule, and `V t` is what the rounds make of its first `t` words. -/
theorem sha1CompressRounds : Obligations.Sha1CompressRounds := by
  refine ⟨rfl, fun h blk hblk => ?_⟩
  have hlen := sha1Schedule_length hblk
  refine ⟨fun t => (sha1Schedule blk).getD t 0, fun t => sha1Rounds 0 h ((sha1Schedule blk).take t),
    fun t => sha1Schedule_getD_of_lt hblk, fun t => sha1Schedule_getD_of_ge hblk, rfl, fun t ht => ?_, ?_⟩
  · exact (sha1Rounds_take_succ h (by omega)).trans (sha1Round_eq _ _ _)
  · have htake : (sha1Schedule blk).take 80 = sha1Schedule blk := List.take_of_length_le hlen.le
    simpa only [htake, sha1Compress, addFive, add32x2_eq_add, Five.toList] using
      completes_sha1Compress h hblk

/-- Settles O41: the blocks are those the padded message is cut into. -/
theorem sha1FinalizePads : Obligations.Sha1FinalizePads := by
  intro h p m mw hblock hp hm
  obtain ⟨k, blks, hk, hb, hflat, hfold⟩ := exists_paddedBlocks m p
  refine ⟨k, blks, hk, hb, hflat, ?_⟩
  rw [← hfold]
  exact completesIf_finalize (result := fun h p m => (sha1Finalize m p h).toList) (fun _ => rfl) (dinFive_toList h) hp
    hblock hm

end Sys2Proof.Machine
end

section
/-! PROOFS. SHA-2 (spec 44_sha2.md): what the two families share, their schedules and rounds as sequences, the padded
buffer for 1024-bit blocks, and the four test-port operations. -/

namespace Sys2Proof.Machine

open Sys2Proof.Claims

/-! ### What the two families share -/

/-- R232, R243: the next schedule word, from the words before it, newest first. -/
def sha2Next {w : Nat} (gamma0 gamma1 : BitVec w → BitVec w) (ws : List (BitVec w)) : BitVec w :=
  gamma1 (ws.getD 1 0) + ws.getD 6 0 + gamma0 (ws.getD 14 0) + ws.getD 15 0

/-- R232, R243: each later word of a schedule, from four words before it. -/
theorem extendedSchedule_sha2Next_getD {w : Nat} (gamma0 gamma1 : BitVec w → BitVec w) {k t : Nat}
    {blk : List (BitVec w)} (hblk : blk.length = 16) (hlow : 16 ≤ t) (ht : t < 16 + k) :
    let W := extendedSchedule (sha2Next gamma0 gamma1) k blk
    W.getD t 0 = gamma1 (W.getD (t - 2) 0) + W.getD (t - 7) 0 + gamma0 (W.getD (t - 15) 0) + W.getD (t - 16) 0 := by
  intro W
  have hlen : W.length = 16 + k := by rw [extendedSchedule_length, hblk]
  have hnext : W.getD t 0 = sha2Next gamma0 gamma1 (W.take t).reverse :=
    extendedSchedule_getD_of_ge 0 (by omega) (by omega)
  have hbefore : ∀ j < t, (W.take t).reverse.getD j 0 = W.getD (t - 1 - j) 0 :=
    fun j hj => getD_reverse_take 0 (by omega) hj
  rw [hnext, sha2Next, hbefore 1 (by omega), hbefore 6 (by omega), hbefore 14 (by omega), hbefore 15 (by omega)]
  simp only [Nat.sub_sub]

/-- R234, R244: the rounds on a state, one per pair of a constant and a schedule word. -/
def sha2Rounds {σ α : Type} (round : α → α → σ → σ) (v : σ) (kws : List (α × α)) : σ :=
  kws.foldl (fun v kw => round kw.1 kw.2 v) v

/-- R234, R244: one more pair is one more round, on that pair. -/
theorem sha2Rounds_take_succ {σ α : Type} (round : α → α → σ → σ) (v : σ) (zero : α) {ks ws : List α} {t : Nat}
    (hk : t < ks.length) (hw : t < ws.length) :
    sha2Rounds round v ((ks.zip ws).take (t + 1)) =
      round (ks.getD t zero) (ws.getD t zero) (sha2Rounds round v ((ks.zip ws).take t)) := by
  have ht : t < (ks.zip ws).length := by rw [List.length_zip]; omega
  rw [List.take_add_one, List.getElem?_eq_getElem ht, Option.toList_some, sha2Rounds, List.foldl_concat,
    List.getElem_zip, List.getD_eq_getElem _ _ hk, List.getD_eq_getElem _ _ hw, sha2Rounds]

/-! ### Word operations as `BitVec` has them -/

theorem rotr32_eq_rotateRight (x : Word) {n : Nat} (hn : n < 32) : rotr32 x n = x.rotateRight n := by
  rw [BitVec.rotateRight_def, Nat.mod_eq_of_lt hn, rotr32]

theorem rotr64_eq_rotateRight (x : DWord) {n : Nat} (hn : n < 64) : rotr64 x n = x.rotateRight n := by
  rw [BitVec.rotateRight_def, Nat.mod_eq_of_lt hn, rotr64]

theorem add32x4_eq_add (a b c d : Word) : add32x4 a b c d = a + b + c + d := by
  simp [add32x4, BitVec.ofNat_add]

theorem add64x2_eq_add (a b : DWord) : add64x2 a b = a + b := by
  simp [add64x2, BitVec.ofNat_add]

theorem add64x4_eq_add (a b c d : DWord) : add64x4 a b c d = a + b + c + d := by
  simp [add64x4, BitVec.ofNat_add]

theorem add64x5_eq_add (a b c d e : DWord) : add64x5 a b c d e = a + b + c + d + e := by
  simp [add64x5, BitVec.ofNat_add]

/-! ### F_SHA256: the schedule -/

theorem sha256Extend_eq_iterate (k : Nat) (w : List Word) :
    sha256Extend k w = (fun w => sha2Next gamma0x256 gamma1x256 w :: w)^[k] w := by
  induction k generalizing w with
  | zero => rfl
  | succ k ih => rw [sha256Extend, ih, add32x4_eq_add, Function.iterate_succ_apply, sha2Next]

theorem sha256Schedule_eq (blk : List Word) :
    sha256Schedule blk = extendedSchedule (sha2Next gamma0x256 gamma1x256) 48 blk := by
  rw [sha256Schedule, sha256Extend_eq_iterate, reverse_iterate_eq_extendedSchedule]

section
variable {blk : List Word} (hblk : blk.length = 16) {t : Nat}
include hblk

theorem sha256Schedule_length : (sha256Schedule blk).length = 64 := by
  rw [sha256Schedule_eq, extendedSchedule_length, hblk]

/-- R231: the first 16 schedule words are the block. -/
theorem sha256Schedule_getD_of_lt (ht : t < 16) : (sha256Schedule blk).getD t 0 = blk.getD t 0 := by
  rw [sha256Schedule_eq, extendedSchedule_getD_of_lt 0 (by omega)]

/-- R232: each later word is the sum of four terms, its functions in the model's words. -/
theorem sha256Schedule_getD_of_ge (hlow : 16 ≤ t) (ht : t < 64) :
    (sha256Schedule blk).getD t 0 = gamma1x256 ((sha256Schedule blk).getD (t - 2) 0) +
      (sha256Schedule blk).getD (t - 7) 0 + gamma0x256 ((sha256Schedule blk).getD (t - 15) 0) +
      (sha256Schedule blk).getD (t - 16) 0 := by
  rw [sha256Schedule_eq]
  exact extendedSchedule_sha2Next_getD _ _ hblk hlow ht

end

theorem gamma0x256_eq (x : Word) : gamma0x256 x = x.rotateRight 7 ^^^ x.rotateRight 18 ^^^ (x >>> 3) := by
  simp (disch := decide) only [gamma0x256, rotr32_eq_rotateRight, shr32]

theorem gamma1x256_eq (x : Word) : gamma1x256 x = x.rotateRight 17 ^^^ x.rotateRight 19 ^^^ (x >>> 10) := by
  simp (disch := decide) only [gamma1x256, rotr32_eq_rotateRight, shr32]

/-! ### F_SHA256: the rounds -/

theorem sha256Rounds_eq (v : Eight Word) (ks ws : List Word) :
    sha256Rounds v ks ws = sha2Rounds sha256Round v (ks.zip ws) := by
  induction ks generalizing v ws with
  | nil => rfl
  | cons k ks ih =>
    cases ws with
    | nil => rfl
    | cons w ws => exact ih _ ws

theorem sigma0x256_eq (x : Word) : sigma0x256 x = x.rotateRight 2 ^^^ x.rotateRight 13 ^^^ x.rotateRight 22 := by
  simp (disch := decide) only [sigma0x256, rotr32_eq_rotateRight]

theorem sigma1x256_eq (x : Word) : sigma1x256 x = x.rotateRight 6 ^^^ x.rotateRight 11 ^^^ x.rotateRight 25 := by
  simp (disch := decide) only [sigma1x256, rotr32_eq_rotateRight]

/-- R233: a round, its functions and sums written out. -/
theorem sha256Round_eq (k w : Word) (v : Eight Word) :
    let t1 := v.e7 + (v.e4.rotateRight 6 ^^^ v.e4.rotateRight 11 ^^^ v.e4.rotateRight 25) +
      ((v.e4 &&& v.e5) ^^^ (~~~v.e4 &&& v.e6)) + k + w
    let t2 := (v.e0.rotateRight 2 ^^^ v.e0.rotateRight 13 ^^^ v.e0.rotateRight 22) +
      ((v.e0 &&& v.e1) ^^^ (v.e0 &&& v.e2) ^^^ (v.e1 &&& v.e2))
    sha256Round k w v = ⟨t1 + t2, v.e0, v.e1, v.e2, v.e3 + t1, v.e4, v.e5, v.e6⟩ := by
  simp only [sha256Round, add32x2_eq_add, add32x5_eq_add, sigma0x256_eq, sigma1x256_eq, ch32, maj32]

/-! ### F_SHA256: the operations -/

theorem dinEight_toList (h : Eight Word) (rest : List Word) : dinEight (h.toList ++ rest) = some (h, rest) :=
  dinEight_append rfl rest

/-- R236: SHA256_COMPRESS writes the compressed state. -/
theorem completes_sha256Compress (h : Eight Word) {blk : List Word} (hblk : blk.length = 16) :
    Completes .sha256Compress (h.toList ++ blk) (sha256Compress h blk).toList :=
  completes_of_noChecks (result := Eight.toList) (fun _ => rfl) fun rest => by
    rw [List.append_assoc, Din.bind_some (dinEight_toList h _), Din.map_some (dinWords_append blk rest 16 hblk)]

/-- Settles O37: `W` reads the schedule, and `V t` is what the rounds make of the first `t` constants and words. -/
theorem sha256CompressRounds : Obligations.Sha256CompressRounds := by
  refine ⟨rfl, fun h blk hblk => ?_⟩
  have hlen := sha256Schedule_length hblk
  have hk : k256.length = 64 := rfl
  refine ⟨fun t => (sha256Schedule blk).getD t 0,
    fun t => sha2Rounds sha256Round h ((k256.zip (sha256Schedule blk)).take t),
    fun t => sha256Schedule_getD_of_lt hblk, fun t hlow ht => ?_, rfl, fun t ht => ?_, ?_⟩
  · simpa only [gamma0x256_eq, gamma1x256_eq] using sha256Schedule_getD_of_ge hblk hlow ht
  · exact (sha2Rounds_take_succ sha256Round h 0 (by omega) (by omega)).trans (sha256Round_eq _ _ _)
  · have htake : (k256.zip (sha256Schedule blk)).take 64 = k256.zip (sha256Schedule blk) :=
      List.take_of_length_le (by rw [List.length_zip]; omega)
    simpa only [htake, sha256Compress, sha256Rounds_eq, addEight32, add32x2_eq_add, Eight.toList] using
      completes_sha256Compress h hblk

/-- Settles O42: the blocks are those the padded message is cut into, as in SHA-1. -/
theorem sha256FinalizePads : Obligations.Sha256FinalizePads := by
  intro v h p m mw _ hblock hp hm
  obtain ⟨k, blks, hk, hb, hflat, hfold⟩ := exists_paddedBlocks m p
  refine ⟨k, blks, hk, hb, hflat, ?_⟩
  rw [← hfold]
  exact completesIf_finalize (result := fun h p m => (sha256Finalize m p h).toList.take (sha256OutWords v))
    (fun _ => rfl) (dinEight_toList h) hp hblock hm

/-! ### F_SHA512: the schedule -/

theorem sha512Extend_eq_iterate (k : Nat) (w : List DWord) :
    sha512Extend k w = (fun w => sha2Next gamma0x512 gamma1x512 w :: w)^[k] w := by
  induction k generalizing w with
  | zero => rfl
  | succ k ih => rw [sha512Extend, ih, add64x4_eq_add, Function.iterate_succ_apply, sha2Next]

theorem sha512Schedule_eq (blk : List Word) :
    sha512Schedule blk = extendedSchedule (sha2Next gamma0x512 gamma1x512) 64 (dwordsOf blk) := by
  rw [sha512Schedule, sha512Extend_eq_iterate, reverse_iterate_eq_extendedSchedule]

theorem dwordsOf_length {ws : List Word} {n : Nat} (h : ws.length = 2 * n) : (dwordsOf ws).length = n := by
  induction n generalizing ws with
  | zero => rw [List.length_eq_zero_iff.mp h]; rfl
  | succ n ih =>
    match ws, h with
    | hi :: lo :: ws, h => exact congrArg (· + 1) (ih (Nat.add_right_cancel (m := 2) h))

/-- R242: the first word of each pair is the high half. -/
theorem dwordsOf_getD {ws : List Word} {t : Nat} (ht : 2 * t + 1 < ws.length) :
    (dwordsOf ws).getD t 0 = ws.getD (2 * t) 0 ++ ws.getD (2 * t + 1) 0 := by
  induction t generalizing ws with
  | zero =>
    match ws, ht with
    | hi :: lo :: ws, _ => exact dwordOf_eq_append hi lo
  | succ t ih =>
    match ws, ht with
    | hi :: lo :: ws, ht => exact ih (Nat.lt_of_add_lt_add_right (n := 2) ht)

section
variable {blk : List Word} (hblk : blk.length = 32) {t : Nat}
include hblk

theorem dwordsOf_block_length : (dwordsOf blk).length = 16 :=
  dwordsOf_length hblk

theorem sha512Schedule_length : (sha512Schedule blk).length = 80 := by
  rw [sha512Schedule_eq, extendedSchedule_length, dwordsOf_block_length hblk]

/-- R242: the first 16 schedule words are the pairs of the block's words. -/
theorem sha512Schedule_getD_of_lt (ht : t < 16) :
    (sha512Schedule blk).getD t 0 = blk.getD (2 * t) 0 ++ blk.getD (2 * t + 1) 0 := by
  have hlen := dwordsOf_block_length hblk
  rw [sha512Schedule_eq, extendedSchedule_getD_of_lt 0 (by omega), dwordsOf_getD (by omega)]

/-- R243: each later word is the sum of four terms, its functions in the model's words. -/
theorem sha512Schedule_getD_of_ge (hlow : 16 ≤ t) (ht : t < 80) :
    (sha512Schedule blk).getD t 0 = gamma1x512 ((sha512Schedule blk).getD (t - 2) 0) +
      (sha512Schedule blk).getD (t - 7) 0 + gamma0x512 ((sha512Schedule blk).getD (t - 15) 0) +
      (sha512Schedule blk).getD (t - 16) 0 := by
  rw [sha512Schedule_eq]
  exact extendedSchedule_sha2Next_getD _ _ (dwordsOf_block_length hblk) hlow ht

end

theorem gamma0x512_eq (x : DWord) : gamma0x512 x = x.rotateRight 1 ^^^ x.rotateRight 8 ^^^ (x >>> 7) := by
  simp (disch := decide) only [gamma0x512, rotr64_eq_rotateRight, shr64]

theorem gamma1x512_eq (x : DWord) : gamma1x512 x = x.rotateRight 19 ^^^ x.rotateRight 61 ^^^ (x >>> 6) := by
  simp (disch := decide) only [gamma1x512, rotr64_eq_rotateRight, shr64]

/-! ### F_SHA512: the rounds -/

theorem sha512Rounds_eq (v : Eight DWord) (ks ws : List DWord) :
    sha512Rounds v ks ws = sha2Rounds sha512Round v (ks.zip ws) := by
  induction ks generalizing v ws with
  | nil => rfl
  | cons k ks ih =>
    cases ws with
    | nil => rfl
    | cons w ws => exact ih _ ws

theorem sigma0x512_eq (x : DWord) : sigma0x512 x = x.rotateRight 28 ^^^ x.rotateRight 34 ^^^ x.rotateRight 39 := by
  simp (disch := decide) only [sigma0x512, rotr64_eq_rotateRight]

theorem sigma1x512_eq (x : DWord) : sigma1x512 x = x.rotateRight 14 ^^^ x.rotateRight 18 ^^^ x.rotateRight 41 := by
  simp (disch := decide) only [sigma1x512, rotr64_eq_rotateRight]

/-- R244: a round, its functions and sums written out. -/
theorem sha512Round_eq (k w : DWord) (v : Eight DWord) :
    let t1 := v.e7 + (v.e4.rotateRight 14 ^^^ v.e4.rotateRight 18 ^^^ v.e4.rotateRight 41) +
      ((v.e4 &&& v.e5) ^^^ (~~~v.e4 &&& v.e6)) + k + w
    let t2 := (v.e0.rotateRight 28 ^^^ v.e0.rotateRight 34 ^^^ v.e0.rotateRight 39) +
      ((v.e0 &&& v.e1) ^^^ (v.e0 &&& v.e2) ^^^ (v.e1 &&& v.e2))
    sha512Round k w v = ⟨t1 + t2, v.e0, v.e1, v.e2, v.e3 + t1, v.e4, v.e5, v.e6⟩ := by
  simp only [sha512Round, add64x2_eq_add, add64x5_eq_add, sigma0x512_eq, sigma1x512_eq, ch64, maj64]

/-! ### F_SHA512: the padded buffer -/

/-- R247: the padded message of F_SHA512; the zero bytes are the fewest that make whole 128-byte blocks. -/
def paddedMessage1024 (m : List Byte) (p : Nat) : List Byte :=
  m ++ [0x80] ++ List.replicate (127 - (m.length + 16) % 128) 0 ++ List.replicate 8 0 ++ bigEndian 8 (p + 8 * m.length)

/-- R247: the padded message fills the blocks F_SHA512 counts. -/
theorem paddedMessage1024_length (m : List Byte) (p : Nat) :
    (paddedMessage1024 m p).length = (padOff1024 (8 * m.length) + 1) / 32 * 128 := by
  simp only [paddedMessage1024, padOff1024, bigEndian, List.length_append, List.length_replicate,
    List.length_singleton, List.length_map, List.length_range, Nat.shiftRight_eq_div_pow]
  omega

/-- R247: the 128-bit length field, its upper half zero. -/
theorem packBE_lengthField1024 (x : Nat) :
    packBE (List.replicate 8 0 ++ bigEndian 8 x) =
      [0, 0, BitVec.ofNat 32 (x / 2 ^ 32), BitVec.ofNat 32 (x % 2 ^ 32)] := by
  have happend : packBE (List.replicate 8 0 ++ bigEndian 8 x) =
      packBE (List.replicate (4 * 2) 0) ++ packBE (bigEndian 8 x) :=
    pack_append .be (n := 2) rfl _
  rw [happend, packBE_replicate_zero, packBE_bigEndian_eight]
  rfl

/-- R247: the padded buffer holds the packed words of the padded message: the length field takes the place of the last
four zero words. -/
theorem padBuffer1024_eq_packBE (m : List Byte) (p : Nat) : padBuffer1024 m p = packBE (paddedMessage1024 m p) := by
  obtain ⟨n, hoff, hn⟩ : ∃ n, padOff1024 (8 * m.length) = n + 3 ∧ n = (m.length + 16) / 128 * 32 + 28 :=
    ⟨_, by rw [padOff1024, Nat.shiftRight_eq_div_pow]; omega, rfl⟩
  have hzeros : 127 - (m.length + 16) % 128 = 4 * n - (m.length + 1) := by omega
  have hlen : m.length < 4 * n := by omega
  have hbody := length_oneBit hlen
  have hwords : (packBE (m ++ [0x80] ++ List.replicate (4 * n - (m.length + 1)) 0)).length = n :=
    (pack_length .be _).trans (by omega)
  have hpadded : packBE (paddedMessage1024 m p) =
      packBE (m ++ [0x80] ++ List.replicate (4 * n - (m.length + 1)) 0) ++
        packBE (List.replicate 8 0 ++ bigEndian 8 (p + 8 * m.length)) := by
    rw [paddedMessage1024, hzeros, List.append_assoc _ (List.replicate 8 0)]
    exact pack_append .be hbody _
  have hset0 : ∀ (l : List Word) (a : Word), (_ ++ l).set n a = _ ++ l.set 0 a :=
    fun l a => set_append_add hwords l 0 a
  rw [hpadded, packBE_lengthField1024, Nat.add_comm p]
  simp only [padBuffer1024, hoff, Nat.add_assoc n, Nat.add_sub_cancel, Nat.reduceSubDiff, withOneBit_add hlen, hset0,
    set_append_add hwords]
  rfl

/-- A list of whole blocks' bytes is cut into its blocks, and folding over its words is folding over the blocks, each
packed. -/
theorem exists_blocks_foldBlocks {n c : Nat} (hn : 0 < n) {l : List Byte} (hl : l.length = c * (4 * n)) :
    ∃ blks : List (List Byte), (∀ b ∈ blks, b.length = 4 * n) ∧ blks.flatten = l ∧
      ∀ {σ : Type} (f : σ → List Word → σ) (h : σ),
        foldBlocks n f c h (packBE l) = blks.foldl (fun h b => f h (packBE b)) h := by
  obtain ⟨blks, hb, rfl⟩ := exists_whole_blocks (n := 4 * n) (by omega) (hl ▸ Nat.mul_mod_left _ _)
  rw [length_flatten_blocks hb] at hl
  obtain rfl := Nat.eq_of_mul_eq_mul_right (by omega) hl
  exact ⟨blks, hb, rfl, fun f h => foldBlocks_packBE f hb h⟩

/-! ### F_SHA512: the operations -/

theorem dwordsOf_pairs (vs : List DWord) : dwordsOf (pairs vs) = vs := by
  induction vs with
  | nil => rfl
  | cons v vs ih => simpa [pairs, pair_eq_words, dwordsOf, dwordOf_words] using ih

theorem dinEightU64_pairs (h : Eight DWord) (rest : List Word) :
    dinEightU64 (pairs h.toList ++ rest) = some (h, rest) := by
  rw [dinEightU64_append rfl, dwordsOf_pairs]
  rfl

/-- R245: SHA512_COMPRESS writes the compressed state. -/
theorem completes_sha512Compress (h : Eight DWord) {blk : List Word} (hblk : blk.length = 32) :
    Completes .sha512Compress (pairs h.toList ++ blk) (pairs (sha512Compress h blk).toList) := by
  rw [pairs_eq_wordsOf (sha512Compress h blk).toList]
  refine completes_of_noChecks (result := fun h : Eight DWord => wordsOf h.toList) (fun _ => rfl) fun rest => ?_
  rw [List.append_assoc, Din.bind_some (dinEightU64_pairs h _), Din.map_some (dinWords_append blk rest 32 hblk)]

/-- Settles O38: `W` and `V` as for O37, at width 64. -/
theorem sha512CompressRounds : Obligations.Sha512CompressRounds := by
  refine ⟨rfl, fun h blk hblk => ?_⟩
  have hlen := sha512Schedule_length hblk
  have hk : k512.length = 80 := rfl
  refine ⟨fun t => (sha512Schedule blk).getD t 0,
    fun t => sha2Rounds sha512Round h ((k512.zip (sha512Schedule blk)).take t),
    fun t => sha512Schedule_getD_of_lt hblk, fun t hlow ht => ?_, rfl, fun t ht => ?_, ?_⟩
  · simpa only [gamma0x512_eq, gamma1x512_eq] using sha512Schedule_getD_of_ge hblk hlow ht
  · exact (sha2Rounds_take_succ sha512Round h 0 (by omega) (by omega)).trans (sha512Round_eq _ _ _)
  · have htake : (k512.zip (sha512Schedule blk)).take 80 = k512.zip (sha512Schedule blk) :=
      List.take_of_length_le (by rw [List.length_zip]; omega)
    simpa only [htake, sha512Compress, sha512Rounds_eq, addEight64, add64x2_eq_add, Eight.toList] using
      completes_sha512Compress h hblk

/-- Settles O43: the blocks are those the padded message is cut into. -/
theorem sha512FinalizePads : Obligations.Sha512FinalizePads := by
  intro v h p m mw _ hblock hp hm
  obtain ⟨blks, hb, hflat, hfold⟩ := exists_blocks_foldBlocks (n := 32) (by decide) (paddedMessage1024_length m p)
  refine ⟨127 - (m.length + 16) % 128, blks, by omega, hb, hflat, ?_⟩
  rw [← hfold, ← padBuffer1024_eq_packBE, pairs_eq_wordsOf (List.take _ _)]
  exact completesIf_finalize
    (result := fun h p m => wordsOf ((sha512Finalize m p h).toList.take (sha512OutWords v)))
    (fun _ => rfl) (dinEightU64_pairs h) hp hblock hm

end Sys2Proof.Machine
end

section
/-! PROOFS. Keccak-f[1600] and SHA3_ABSORB (spec 45_sha3.md R260 to R268, R270, R272): the lane matrix read at its
indices, the rounds as a sequence of lane functions, and the two test-port operations. -/

namespace Sys2Proof.Machine

open Sys2Proof.Claims

/-! ### The lane matrix -/

theorem Five.get_ofFn {α : Type} (f : Nat → α) {i : Nat} (hi : i < 5) : (Five.ofFn f).get i = f i := by
  interval_cases i <;> rfl

theorem laneAt_lanesFn (f : Nat → Nat → DWord) {x y : Nat} (hx : x < 5) (hy : y < 5) :
    laneAt (lanesFn f) x y = f x y := by
  rw [laneAt, lanesFn, Five.get_ofFn _ hx, Five.get_ofFn _ hy]

theorem lanesFn_congr {f g : Nat → Nat → DWord} (h : ∀ x y, x < 5 → y < 5 → f x y = g x y) :
    lanesFn f = lanesFn g := by
  simp only [lanesFn, Five.ofFn, h, Nat.reduceLT]

theorem lanesFn_laneAt (a : Lanes) : lanesFn (laneAt a) = a := rfl

theorem lanesOf_eq_lanesFn (l : List DWord) : lanesOf l = lanesFn fun x y => l.getD (x + 5 * y) 0 := rfl

/-- R260: 25 lanes in lane order are those of their matrix. -/
theorem lanesOf_map_range (f : Nat → DWord) :
    lanesOf ((List.range 25).map f) = lanesFn fun x y => f (x + 5 * y) :=
  lanesFn_congr fun x y hx hy => by
    have hi : x + 5 * y < 25 := by omega
    rw [List.getD_eq_getElem _ _ (by simpa using hi), List.getElem_map, List.getElem_range]

theorem laneList_eq (a : Lanes) : laneList a = (List.range 25).map fun i => laneAt a (i % 5) (i / 5) := rfl

theorem laneList_getD (a : Lanes) {i : Nat} (hi : i < 25) : (laneList a).getD i 0 = laneAt a (i % 5) (i / 5) := by
  rw [laneList_eq, List.getD_eq_getElem _ _ (by simpa using hi), List.getElem_map, List.getElem_range]

/-! ### The steps of a round, lane by lane -/

theorem rotl64_eq_rotateLeft (x : DWord) {n : Nat} (hn : n < 64) : rotl64 x n = x.rotateLeft n := by
  rw [BitVec.rotateLeft_def, Nat.mod_eq_of_lt hn, rotl64]

/-- R48: every rho offset is below the width of a lane. -/
theorem keccakRot_lt : ∀ x < 5, ∀ y < 5, (keccakRot.get x).get y < 64 := by decide

/-- R262: the parity of a column. -/
def columnParity (a : Lanes) (x : Nat) : DWord :=
  laneAt a x 0 ^^^ laneAt a x 1 ^^^ laneAt a x 2 ^^^ laneAt a x 3 ^^^ laneAt a x 4

/-- R262: what theta adds to each lane of column `x`. -/
def thetaEffect (a : Lanes) (x : Nat) : DWord :=
  columnParity a ((x + 4) % 5) ^^^ (columnParity a ((x + 1) % 5)).rotateLeft 1

theorem laneAt_theta (a : Lanes) {x y : Nat} (hx : x < 5) (hy : y < 5) :
    laneAt (theta a) x y = laneAt a x y ^^^ thetaEffect a x := by
  rw [theta, laneAt_lanesFn _ hx hy, Five.get_ofFn _ hx, Five.get_ofFn _ (Nat.mod_lt _ (by decide)),
    Five.get_ofFn _ (Nat.mod_lt _ (by decide)), rotl64_eq_rotateLeft _ (by decide)]
  rfl

/-- R263: rho and pi, read from the lane they move. -/
theorem laneAt_rhoPi (a : Lanes) {x y : Nat} (hx : x < 5) (hy : y < 5) :
    laneAt (rhoPi a) y ((2 * x + 3 * y) % 5) = (laneAt a x y).rotateLeft ((keccakRot.get x).get y) := by
  have hsource : (y + 3 * ((2 * x + 3 * y) % 5)) % 5 = x := by omega
  rw [rhoPi, laneAt_lanesFn _ hy (Nat.mod_lt _ (by decide)), hsource, rotl64_eq_rotateLeft _ (keccakRot_lt x hx y hy)]

theorem laneAt_chi (b : Lanes) {x y : Nat} (hx : x < 5) (hy : y < 5) :
    laneAt (chi b) x y = laneAt b x y ^^^ (~~~laneAt b ((x + 1) % 5) y &&& laneAt b ((x + 2) % 5) y) := by
  rw [chi, laneAt_lanesFn _ hx hy]

theorem laneAt_iota (rc : DWord) (a : Lanes) {x y : Nat} (hx : x < 5) (hy : y < 5) :
    laneAt (iota rc a) x y = laneAt a x y ^^^ (if x = 0 ∧ y = 0 then rc else 0) := by
  by_cases h : x = 0 ∧ y = 0
  · obtain ⟨rfl, rfl⟩ := h
    rfl
  · rw [if_neg h]
    refine Eq.trans ?_ BitVec.xor_zero.symm
    interval_cases x
    · interval_cases y
      · exact absurd ⟨rfl, rfl⟩ h
      all_goals rfl
    all_goals rfl

/-! ### The rounds -/

/-- R261: the lanes before each round, as functions of their indices. -/
def roundLanes (lanes : Nat → Nat → DWord) : Nat → Nat → Nat → DWord
  | 0 => lanes
  | r + 1 => laneAt (keccakRound (lanesFn (roundLanes lanes r)) (keccakRC.getD r 0))

theorem lanesFn_roundLanes (lanes : Nat → Nat → DWord) {r : Nat} (hr : r ≤ 24) :
    lanesFn (roundLanes lanes r) = (keccakRC.take r).foldl keccakRound (lanesFn lanes) := by
  induction r with
  | zero => rfl
  | succ r ih =>
    have hlt : r < keccakRC.length := hr
    rw [List.take_add_one, List.getElem?_eq_getElem hlt, Option.toList_some, List.foldl_concat,
      ← ih (Nat.le_of_succ_le hr), roundLanes, lanesFn_laneAt, List.getD_eq_getElem _ _ hlt]

/-- R261, R266: the lanes after 24 rounds. -/
theorem lanesFn_roundLanes_24 (lanes : Nat → Nat → DWord) :
    lanesFn (roundLanes lanes 24) = keccakF (lanesFn lanes) :=
  lanesFn_roundLanes lanes le_rfl

/-! ### The operations -/

/-- R260: 25 lanes on the wire. -/
theorem dinLanes_pairs {lanes : List DWord} (h : lanes.length = 25) (rest : List Word) :
    dinLanes (pairs lanes ++ rest) = some (lanesOf lanes, rest) := by
  have hlen : (pairs lanes).length = 50 := by simp [pairs, pair, h]
  rw [dinLanes_append hlen, dwordsOf_pairs]

/-- R270: KECCAK_F writes the permuted lanes. -/
theorem completes_keccakF {lanes : List DWord} (h : lanes.length = 25) :
    Completes .keccakF (pairs lanes) (pairs (laneList (keccakF (lanesOf lanes)))) := by
  rw [pairs_eq_wordsOf (laneList _)]
  exact completes_of_noChecks (result := fun a => wordsOf (laneList a)) (fun _ => rfl) fun rest =>
    Din.map_some (dinLanes_pairs h rest)

/-- Settles O39: `B` is what rho and pi make of theta's result, and `A r` the lanes before round `r`. -/
theorem keccakFRounds : Obligations.KeccakFRounds := by
  refine ⟨rfl, fun lanes => ⟨roundLanes lanes, rfl, fun r _ => ?_, ?_⟩⟩
  · let a := lanesFn (roundLanes lanes r)
    have ha : ∀ {x y}, x < 5 → y < 5 → laneAt a x y = roundLanes lanes r x y := laneAt_lanesFn _
    refine ⟨columnParity a, thetaEffect a, laneAt (rhoPi (theta a)), fun x hx => ?_, fun x _ => rfl,
      fun x y hx hy => ?_, fun x y hx hy => ?_⟩
    · simp only [columnParity, ha hx, Nat.reduceLT]
    · rw [laneAt_rhoPi _ hx hy, laneAt_theta _ hx hy, ha hx hy]
    · rw [roundLanes, keccakRound, laneAt_iota _ _ hx hy, laneAt_chi _ hx hy]
  · have hin : lanesOf ((List.range 25).map fun i => lanes (i % 5) (i / 5)) = lanesFn lanes := by
      rw [lanesOf_map_range]
      exact lanesFn_congr fun x y hx hy => by
        rw [show (x + 5 * y) % 5 = x by omega, show (x + 5 * y) / 5 = y by omega]
    have hout : laneList (lanesFn (roundLanes lanes 24)) =
        (List.range 25).map fun i => roundLanes lanes 24 (i % 5) (i / 5) := by
      refine List.map_congr_left fun i hi => ?_
      have hi := List.mem_range.mp hi
      exact laneAt_lanesFn _ (by omega) (by omega)
    rw [← hout, lanesFn_roundLanes_24, ← hin]
    exact completes_keccakF (by simp)

/-- R267: the second word of the pair is the high half of its lane. -/
theorem blockLane_eq_append (blk : List Word) (i : Nat) :
    blockLane blk i = blk.getD (2 * i + 1) 0 ++ blk.getD (2 * i) 0 := by
  apply BitVec.eq_of_getLsbD_eq
  intro j hj
  rw [blockLane, BitVec.getLsbD_append]
  simp only [BitVec.getLsbD_or, BitVec.getLsbD_shiftLeft, BitVec.getLsbD_setWidth]
  by_cases h : j < 32
  · simp [h, hj]
  · have hhigh : j - 32 < 64 := by omega
    simp [h, hj, hhigh, BitVec.getLsbD_of_ge _ j (not_lt.mp h)]

/-- R268: the block XORed into the lanes, in lane order. -/
theorem xorBlock_lanesOf (lanes : List DWord) (blk : List Word) (rate : Nat) :
    xorBlock (lanesOf lanes) blk rate = lanesOf ((List.range 25).map fun i =>
      if i < rate / 64 then lanes.getD i 0 ^^^ (blk.getD (2 * i + 1) 0 ++ blk.getD (2 * i) 0)
      else lanes.getD i 0) := by
  rw [lanesOf_map_range, xorBlock, lanesOf_eq_lanesFn]
  exact lanesFn_congr fun x y hx hy => by rw [laneAt_lanesFn _ hx hy, blockLane_eq_append]

/-- Settles O40, by the XOR in lane order. -/
theorem sha3AbsorbBlock : Obligations.Sha3AbsorbBlock := by
  intro v lanes blk _ hlanes hblk
  rw [pairs_eq_wordsOf (laneList _), ← xorBlock_lanesOf]
  refine completes_of_noChecks (result := fun a => wordsOf (laneList a)) (x := absorb (blockBits v) (lanesOf lanes) blk)
    (fun _ => rfl) fun rest => ?_
  rw [List.append_assoc, Din.bind_some (dinLanes_pairs hlanes _), Din.map_some (dinWords_append blk rest _ hblk)]

end Sys2Proof.Machine
end

section
/-! PROOFS. The sponge (spec 45_sha3.md R269, R274 to R276, R278): the last block as the packed words of the padded
message, the squeeze as the words of the output stream, and SHA3_FINALIZE. -/

namespace Sys2Proof.Machine

open Sys2Proof.Claims

/-! ### Operations whose checks pass complete -/

/-- R194: an operation whose operands are on `DIN` and whose checks pass completes. -/
theorem completesIf_of_checks {α : Type} {ok : Config.Params → Prop} {i : Instr} {read : Din α}
    {checks : Config.Params → α → Checks} {result : α → List Word} {x : α} {ops : List Word}
    (hi : ∀ s, exec i s = portCommand read checks result s) (hread : ∀ rest, read (ops ++ rest) = some (x, rest))
    (hchecks : ∀ params, ok params → firstError (checks params x) = none) : CompletesIf ok i ops (result x) :=
  fun s rest hok hs => (hi s).trans (portCommand_completes (hs ▸ hread rest) (hchecks s.params hok))

/-! ### The padded message -/

/-- R274: the padding after the message: the delimiter at the first free byte and 0x80 at the last byte of the block, `q`
bytes later; the two share a byte where one is left. -/
def spongePad (d : Byte) (q : Nat) : List Byte :=
  if q = 0 then [d ^^^ 0x80] else [d] ++ List.replicate (q - 1) 0 ++ [0x80]

@[simp] theorem spongePad_length (d : Byte) (q : Nat) : (spongePad d q).length = q + 1 := by
  unfold spongePad
  split
  · next h => simp [h]
  · next h =>
    simp only [List.length_append, List.length_replicate, List.length_singleton]
    omega

/-- R274: the padding byte by byte, its two bytes XORed in where they stand. -/
theorem spongePad_getD (d : Byte) (q i : Nat) :
    (spongePad d q).getD i 0 = (if i = 0 then d else 0) ^^^ (if i = q then 0x80 else 0) := by
  unfold spongePad
  split
  · next h =>
    subst h
    cases i with
    | zero => simp
    | succ i => simp
  · next h =>
    obtain ⟨z, rfl⟩ := Nat.exists_eq_succ_of_ne_zero h
    cases i with
    | zero => simp
    | succ i =>
      obtain hi | rfl | hi := Nat.lt_trichotomy i z
      · simp [hi, hi.ne, List.getElem?_append_left]
      · simp
      · rw [List.getD_eq_default _ _ (by simpa using hi)]
        simp [hi.ne']

/-- R274: so a padded rest is the rest with the two bytes XORed in. -/
theorem append_spongePad_getD (r : List Byte) (d : Byte) (q i : Nat) :
    (r ++ spongePad d q).getD i 0 =
      r.getD i 0 ^^^ (if i = r.length then d else 0) ^^^ (if i = r.length + q then 0x80 else 0) := by
  obtain hi | hi := Nat.lt_or_ge i r.length
  · rw [List.getD_append _ _ _ _ hi, if_neg (by omega), if_neg (by omega)]
    simp
  · obtain ⟨j, rfl⟩ := Nat.exists_eq_add_of_le hi
    rw [List.getD_append_right _ _ _ _ hi, Nat.add_sub_cancel_left, spongePad_getD, List.getD_eq_default r _ hi]
    simp

/-! ### The last block -/

/-- R73, R74: byte `k` of word `j` of a packed string, beyond its end as well. -/
theorem pack_getD_extract (o : ByteOrder) (s : List Byte) (j : Nat) {k : Nat} (hk : k < 4) :
    ((pack o s).getD j 0).extractLsb' (byteShift o k) 8 = s.getD (4 * j + k) 0 := by
  obtain hj | hj := Nat.lt_or_ge j ((s.length + 3) / 4)
  · rw [pack_getD o s hj, packedWord_extract o s _ hk]
  · rw [List.getD_eq_default _ _ (by rwa [pack_length]), List.getD_eq_default s _ (by omega)]
    exact BitVec.extractLsb'_zero ..

/-- A list extended with zeros reads as the list itself. -/
theorem extendTo_getD {α : Type} (zero : α) (n : Nat) (l : List α) (i : Nat) :
    (extendTo zero n l).getD i zero = l.getD i zero := by
  obtain hi | hi := Nat.lt_or_ge i l.length
  · rw [extendTo, List.getD_append _ _ _ _ hi]
  · rw [extendTo, List.getD_append_right _ _ _ _ hi, List.getD_eq_default l _ hi, List.getD_eq_getElem?_getD,
      List.getElem?_getD_replicate_default_eq]

/-- An XOR into one word of a list. -/
theorem modify_xor_getD {l : List Word} {n : Nat} (hn : n < l.length) (x : Word) (i : Nat) :
    (l.modify n (· ^^^ x)).getD i 0 = l.getD i 0 ^^^ (if i = n then x else 0) := by
  rw [List.getD_eq_getElem?_getD, List.getElem?_modify, List.getD_eq_getElem?_getD]
  by_cases h : n = i
  · subst h
    simp [hn]
  · simp [h, Ne.symm h]

/-- R274: the delimiter, shifted to byte `k` of a word. -/
theorem extract_delim (d : Byte) {k i : Nat} (hk : k < 4) (hi : i < 4) :
    ((d.setWidth 32 : Word) <<< (8 * k)).extractLsb' (byteShift .le i) 8 = if i = k then d else 0 := by
  apply BitVec.eq_of_getLsbD_eq
  intro j hj
  have hbyte : byteShift .le i = 8 * i := by rw [byteShift, Nat.mod_eq_of_lt hi]
  have hword : 8 * i + j < 32 := by omega
  rw [hbyte]
  obtain h | rfl | h := Nat.lt_trichotomy i k
  · have hbelow : 8 * i + j < 8 * k := by omega
    simp [h.ne, hbelow]
  · simp [hj, hword]
  · have habove : 8 ≤ 8 * i + j - 8 * k := by omega
    simp [h.ne', BitVec.getLsbD_of_ge d _ habove]

theorem extract_last_bit : ∀ i < 4,
    (0x80000000 : Word).extractLsb' (byteShift .le i) 8 = if i = 3 then 0x80 else 0 := by
  decide

/-- R274: the last block is the packed words of the padded rest. -/
theorem lastBlock_eq_packLE {r : List Byte} {n q : Nat} (hn : r.length + q + 1 = 4 * n) (d : Byte) :
    lastBlock (packLE r) r.length d n = packLE (r ++ spongePad d q) := by
  have hlen : (packLE r).length = (r.length + 3) / 4 := pack_length .le r
  have hbytes : ∀ (s : List Byte) (j : Nat) {k : Nat}, k < 4 →
      ((packLE s).getD j 0).extractLsb' (byteShift .le k) 8 = s.getD (4 * j + k) 0 := pack_getD_extract .le
  have hextend : (extendTo 0 n (packLE r)).length = n := by
    rw [extendTo_length]
    omega
  have hword : r.length >>> 2 = r.length / 4 := Nat.shiftRight_eq_div_pow _ _
  have hpadded : (packLE (r ++ spongePad d q)).length = n :=
    (pack_length .le _).trans (by rw [List.length_append, spongePad_length]; omega)
  have hblock : (lastBlock (packLE r) r.length d n).length = n := by
    rw [lastBlock, List.length_modify, List.length_modify, hextend]
  refine List.ext_getElem (hblock.trans hpadded.symm) fun w hw hw' => ?_
  rw [← List.getD_eq_getElem _ 0 hw, ← List.getD_eq_getElem _ 0 hw']
  refine word_eq_of_bytes .le fun k hk => ?_
  rw [lastBlock, hword, modify_xor_getD (by rw [List.length_modify]; omega), modify_xor_getD (by omega), extendTo_getD,
    hbytes _ _ hk, append_spongePad_getD, BitVec.extractLsb'_xor, BitVec.extractLsb'_xor, hbytes _ _ hk]
  congr 1
  · congr 1
    by_cases hend : w = r.length / 4
    · rw [if_pos hend, extract_delim _ (Nat.mod_lt _ (by decide)) hk]
      exact if_congr (by omega) rfl rfl
    · rw [if_neg hend, if_neg (by omega)]
      exact BitVec.extractLsb'_zero ..
  · by_cases hend : w = n - 1
    · rw [if_pos hend, extract_last_bit _ hk]
      exact if_congr (by omega) rfl rfl
    · rw [if_neg hend, if_neg (by omega)]
      exact BitVec.extractLsb'_zero ..

/-- R276: the finalize absorbs whole blocks first. -/
theorem sha3Finalize_flatten {n : Nat} (hn : 0 < n) {blks : List (List Byte)} (hb : ∀ b ∈ blks, b.length = 4 * n)
    (r : List Byte) (a : Lanes) (d : Byte) (ob : Nat) :
    sha3Finalize a (blks.flatten ++ r) d (32 * n) ob =
      sha3Finalize (blks.foldl (fun a b => absorb (32 * n) a (packLE b)) a) r d (32 * n) ob := by
  induction blks generalizing a with
  | nil => rfl
  | cons b blks ih =>
    obtain ⟨hlen, hb⟩ := List.forall_mem_cons.mp hb
    rw [List.flatten_cons, List.append_assoc, sha3Finalize_append hn hlen, ih hb, List.foldl_cons]

/-- R276: of a rest shorter than a block it absorbs the padded rest. -/
theorem sha3Finalize_of_lt {r : List Byte} {n q : Nat} (hn : r.length + q + 1 = 4 * n) (a : Lanes) (d : Byte)
    (ob : Nat) :
    sha3Finalize a r d (32 * n) ob = squeeze (absorb (32 * n) a (packLE (r ++ spongePad d q))) (32 * n) ob := by
  have hfull : 8 * r.length / (32 * n) = 0 := Nat.div_eq_of_lt (by omega)
  have hleft : (8 * r.length) >>> 3 = r.length := by
    rw [Nat.shiftRight_eq_div_pow]
    exact Nat.mul_div_cancel_left _ (by decide)
  have hbw : 32 * n / 32 = n := Nat.mul_div_cancel_left _ (by decide)
  simp only [sha3Finalize, hfull, hbw, Nat.zero_mul, Nat.sub_zero, hleft, List.drop_zero, foldBlocks_zero,
    lastBlock_eq_packLE hn]

/-- R274, R276: the message is padded to whole blocks, and its finalize absorbs them in order and squeezes. -/
theorem exists_spongeBlocks {n : Nat} (hn : 0 < n) (m : List Byte) (d : Byte) :
    ∃ (q : Nat) (blks : List (List Byte)), q < 4 * n ∧ (∀ b ∈ blks, b.length = 4 * n) ∧
      blks.flatten = m ++ spongePad d q ∧ ∀ (a : Lanes) (ob : Nat),
        sha3Finalize a m d (32 * n) ob =
          squeeze (blks.foldl (fun a b => absorb (32 * n) a (packLE b)) a) (32 * n) ob := by
  obtain ⟨blks, r, rfl, hb, hr⟩ := exists_blocks (n := 4 * n) (by omega) m
  obtain ⟨q, hq⟩ : ∃ q, r.length + q + 1 = 4 * n := ⟨4 * n - 1 - r.length, by omega⟩
  refine ⟨q, blks ++ [r ++ spongePad d q], by omega, ?_, ?_, fun a ob => ?_⟩
  · rw [List.forall_mem_append, List.forall_mem_singleton]
    exact ⟨hb, by rw [List.length_append, spongePad_length, ← hq, Nat.add_assoc]⟩
  · rw [List.flatten_concat, List.append_assoc]
  · rw [sha3Finalize_flatten hn hb, sha3Finalize_of_lt hq, List.foldl_concat]

/-! ### The output stream -/

section
variable (lanes : Nat) (a : Lanes)

/-- R269: lane `t` of the output stream, where each permutation gives `lanes` lanes of output. -/
def outputLane (t : Nat) : DWord := (laneList (keccakF^[t / lanes] a)).getD (t % lanes) 0

/-- R269: word `i` of the output stream, the low half of each lane first. -/
def outputWord (i : Nat) : Word :=
  if i % 2 = 0 then loWord (outputLane lanes a (i / 2)) else hiWord (outputLane lanes a (i / 2))

/-- The first `k` words of the output stream. -/
def outputWords (k : Nat) : List Word := (List.range k).map (outputWord lanes a)

@[simp] theorem outputWords_length (k : Nat) : (outputWords lanes a k).length = k := by simp [outputWords]

theorem outputWords_succ (k : Nat) : outputWords lanes a (k + 1) = outputWords lanes a k ++ [outputWord lanes a k] := by
  rw [outputWords, List.range_succ, List.map_append, List.map_singleton, outputWords]

variable {lanes} (hlanes : lanes ≤ 25) {p off : Nat} (hoff : off < lanes)
include hlanes hoff

/-- R269: after `p` permutations the lane at an offset holds the next two words of the stream. -/
theorem laneAt_iterate_keccakF :
    loWord (laneAt (keccakF^[p] a) (off % 5) (off / 5)) = outputWord lanes a (2 * (lanes * p + off)) ∧
    hiWord (laneAt (keccakF^[p] a) (off % 5) (off / 5)) = outputWord lanes a (2 * (lanes * p + off) + 1) := by
  have hlane : outputLane lanes a (lanes * p + off) = laneAt (keccakF^[p] a) (off % 5) (off / 5) := by
    rw [outputLane, Nat.mul_add_div (by omega), Nat.div_eq_of_lt hoff, Nat.mul_add_mod, Nat.mod_eq_of_lt hoff,
      Nat.add_zero, laneList_getD _ (by omega)]
  rw [← hlane, outputWord, outputWord, if_pos (by omega), if_neg (by omega)]
  constructor <;> congr 2 <;> omega

end

/-- R269: the loop stops once it has written enough. -/
theorem squeezeLoop_of_le {rate ob : Nat} {out : List Word} (h : ob ≤ 32 * out.length) (fuel off : Nat) (a : Lanes) :
    squeezeLoop rate ob fuel a out off = out := by
  cases fuel with
  | zero => rfl
  | succ fuel => rw [squeezeLoop, if_neg (not_lt.mpr h)]

/-- R269: the loop writes the words of the stream, as many as hold `ob` bits. -/
theorem squeezeLoop_eq_outputWords {lanes ob : Nat} (hlanes : lanes ≤ 25) (a : Lanes) {fuel p off : Nat}
    (hoff : off < lanes) (hlow : 2 * (lanes * p + off) ≤ (ob + 31) / 32)
    (hfuel : (ob + 31) / 32 ≤ 2 * (lanes * p + off) + fuel) :
    squeezeLoop (64 * lanes) ob fuel (keccakF^[p] a) (outputWords lanes a (2 * (lanes * p + off))) off =
      outputWords lanes a ((ob + 31) / 32) := by
  induction fuel generalizing p off with
  | zero =>
    have hend : 2 * (lanes * p + off) = (ob + 31) / 32 := by omega
    rw [hend, squeezeLoop_of_le (by rw [outputWords_length]; omega)]
  | succ fuel ih =>
    obtain ⟨hlo, hhi⟩ := laneAt_iterate_keccakF a hlanes hoff (p := p)
    generalize hk : 2 * (lanes * p + off) = k at *
    obtain hend | hend | hmore : k = (ob + 31) / 32 ∨ k + 1 = (ob + 31) / 32 ∨ k + 2 ≤ (ob + 31) / 32 := by omega
    · rw [hend, squeezeLoop_of_le (by rw [outputWords_length]; omega)]
    · -- one word is left to write
      have hlt : 32 * k < ob := by omega
      have hge : ¬32 * (k + 1) < ob := by omega
      simp only [squeezeLoop, hlo, ← outputWords_succ, outputWords_length, hlt, hge, if_true, if_false, and_false]
      rw [hend, squeezeLoop_of_le (by rw [outputWords_length]; omega)]
    · have hlt : 32 * k < ob := by omega
      have hlt' : 32 * (k + 1) < ob := by omega
      simp only [squeezeLoop, hlo, hhi, ← outputWords_succ, outputWords_length, hlt, hlt', if_true]
      by_cases hlast : off + 1 = lanes
      · by_cases hmore' : 32 * (k + 1 + 1) < ob
        · -- the block is used up: permute and start again at lane 0
          have hnext : 2 * (lanes * p.succ + 0) = k + 1 + 1 := by rw [Nat.mul_succ]; omega
          rw [if_pos ⟨by rw [hlast], hmore'⟩, ← Function.iterate_succ_apply' keccakF, ← hnext]
          exact ih (Nat.zero_lt_of_lt hoff) (by omega) (by omega)
        · have hend : k + 1 + 1 = (ob + 31) / 32 := by omega
          rw [if_neg (fun h => hmore' h.2), hend, squeezeLoop_of_le (by rw [outputWords_length]; omega)]
      · have hnext : 2 * (lanes * p + (off + 1)) = k + 1 + 1 := by omega
        rw [if_neg (fun h => hlast (Nat.eq_of_mul_eq_mul_left (by decide) h.1)), ← hnext]
        exact ih (by omega) (by omega) (by omega)

/-- R269: byte `j` of the stream is byte `j mod 8` of lane `j div 8`. -/
theorem outputWord_extract (lanes : Nat) (a : Lanes) (j : Nat) :
    (outputWord lanes a (j / 4)).extractLsb' (8 * (j % 4)) 8 =
      (outputLane lanes a (j / 8)).extractLsb' (8 * (j % 8)) 8 := by
  have hlane : j / 4 / 2 = j / 8 := by omega
  apply BitVec.eq_of_getLsbD_eq
  intro b hb
  have hword : 8 * (j % 4) + b < 32 := by omega
  rw [outputWord, hlane]
  split
  · have hbyte : j % 8 = j % 4 := by omega
    simp [loWord, hbyte, hword]
  · have hbyte : 8 * (j % 8) = 32 + 8 * (j % 4) := by omega
    simp [hiWord, hbyte, hword, Nat.add_assoc]

/-- R269: the squeeze is the first `ob / 8` bytes of the stream. -/
theorem squeeze_eq {lanes : Nat} (hpos : 0 < lanes) (hlanes : lanes ≤ 25) (a : Lanes) (ob : Nat) :
    squeeze a (64 * lanes) ob = (List.range (ob / 8)).map fun j =>
      ((laneList (keccakF^[j / (8 * lanes)] a)).getD (j % (8 * lanes) / 8) 0).extractLsb' (8 * (j % 8)) 8 := by
  have hloop : squeezeLoop (64 * lanes) ob (ob / 32 + 1) a [] 0 = outputWords lanes a ((ob + 31) / 32) :=
    squeezeLoop_eq_outputWords hlanes a (p := 0) hpos (by omega) (by omega)
  rw [squeeze, hloop, unpackLE]
  refine List.map_congr_left fun j hj => ?_
  have hj := List.mem_range.mp hj
  have hword : j / 4 < (ob + 31) / 32 := by omega
  have hget : (outputWords lanes a ((ob + 31) / 32)).getD (j / 4) 0 = outputWord lanes a (j / 4) := by
    rw [List.getD_eq_getElem _ _ (by simpa using hword)]
    simp [outputWords]
  rw [hget, outputWord_extract, outputLane, Nat.div_div_eq_div_mul, Nat.mod_mul_right_div_self]

/-! ### The operation -/

/-- R31: the rate is a whole number of lanes, fewer than the state has. -/
theorem blockBits_lanes {v : Variant} (hv : v.isSha3 = true) :
    64 * (blockBits v / 64) = blockBits v ∧ 0 < blockBits v / 64 ∧ blockBits v / 64 ≤ 25 := by
  revert hv; cases v <;> decide

/-- R278: SHA3_FINALIZE writes the finalize of its message. -/
theorem completesIf_sha3Finalize (v : Variant) (d : Byte) {lanes : List DWord} {n : Nat} {m : List Byte}
    {mw : List Word} (hlanes : lanes.length = 25) (hn : n % 8 = 0) (hlt : n < 2 ^ 64) (hm : Wire .le m mw) :
    CompletesIf (fun params => 8 * m.length ≤ params.maxTotalBits ∧ n ≤ params.maxOutputBits)
      (.sha3Finalize v d) (pairs lanes ++ (lenWords n ++ mw))
      (stringWords .le (sha3Finalize (lanesOf lanes) m d (blockBits v) n)) := by
  have hlen : (pairs lanes).length = 50 := by simp [pairs, pair, hlanes]
  have h := completesIf_of_checks (i := .sha3Finalize v d) (ops := pairs lanes ++ (lenWords n ++ mw))
    (ok := fun params => 8 * m.length ≤ params.maxTotalBits ∧ n ≤ params.maxOutputBits)
    (result := fun x : Sha3Operands => stringWords .le (sha3Finalize x.a (x.m.bytes .le) d (blockBits v) x.ob))
    (fun _ => rfl) (fun rest => by
      rw [List.append_assoc, List.append_assoc]
      exact dinSha3_append hlen hlt (wireBits_of_wire hm))
    fun params ⟨hmessage, houtput⟩ => by
      simp [sha3Checks, hn, not_lt.mpr hmessage, not_lt.mpr houtput]
  rwa [bytes_operandOf_of_wire hm, dwordsOf_pairs] at h

/-- Settles O44: the blocks are those the padded message is cut into, and the squeeze is the stream's first bytes. -/
theorem sha3FinalizeSponge : Obligations.Sha3FinalizeSponge := by
  intro v d lanes n m mw hv _ hlanes hn hlt hm rate
  obtain ⟨hbits, hpos, hle⟩ := blockBits_lanes hv
  generalize blockBits v / 64 = l at hbits hpos hle
  have hwords : 32 * (2 * l) = blockBits v := by omega
  have hrate : 8 * l = rate := by show 8 * l = blockBits v / 8; omega
  have hblock : 4 * (2 * l) = rate := by omega
  obtain ⟨q, blks, hq, hb, hflat, hfinalize⟩ := exists_spongeBlocks (n := 2 * l) (by omega) m d
  rw [hblock] at hq hb
  rw [hwords] at hfinalize
  have hsqueeze := squeeze_eq hpos hle
  rw [hbits, hrate] at hsqueeze
  refine ⟨q, blks, _, hq, hb, hflat, rfl, ?_⟩
  rw [← hsqueeze, ← hfinalize]
  exact completesIf_sha3Finalize v d hlanes hn hlt hm

end Sys2Proof.Machine
end

section
/-! PROOFS. The encoders of SP 800-185 (spec 45_sha3.md R279 to R283): the big-endian form and its byte count as numbers,
and the four test-port operations. -/

namespace Sys2Proof.Machine

open Sys2Proof.Claims

/-! ### Big-endian numbers -/

/-- R279: the number of bits of `x` as a bound on `x`. -/
theorem bitsOf_le_iff {x b : Nat} : bitsOf x ≤ b ↔ x < 2 ^ b := by
  rw [bitsOf]
  split
  · next h => simp [h]
  · next h => rw [Nat.succ_le_iff, Nat.log2_lt h]

/-- R279: and the number of bytes. -/
theorem nbytesOf_le_iff {x n : Nat} (hn : 1 ≤ n) : nbytesOf x ≤ n ↔ x < 256 ^ n := by
  rw [show 256 = 2 ^ 8 by rfl, ← pow_mul, ← bitsOf_le_iff, nbytesOf]
  omega

theorem one_le_nbytesOf (x : Nat) : 1 ≤ nbytesOf x := le_max_left _ _

theorem lt_pow_nbytesOf (x : Nat) : x < 256 ^ nbytesOf x := (nbytesOf_le_iff (one_le_nbytesOf x)).mp le_rfl

@[simp] theorem beBytes_length (n x : Nat) : (beBytes n x).length = n := by simp [beBytes]

/-- R279: the last byte is the lowest, and the bytes before it are those of the rest. -/
theorem beBytes_succ (n x : Nat) : beBytes (n + 1) x = beBytes n (x / 256) ++ [BitVec.ofNat 8 x] := by
  rw [beBytes, List.range_succ, List.map_append, List.map_singleton]
  congr 1
  · refine List.map_congr_left fun i hi => ?_
    have hi := List.mem_range.mp hi
    have hshift : 8 * (n + 1 - 1 - i) = 8 + 8 * (n - 1 - i) := by omega
    rw [hshift, pow_add, ← Nat.div_div_eq_div_mul]
    rfl
  · simp

theorem valueOf_concat (l : List Byte) (b : Byte) : valueOf (l ++ [b]) = 256 * valueOf l + b.toNat := by
  rw [valueOf, List.foldl_concat]
  rfl

/-- R279: enough big-endian bytes stand for the number. -/
theorem valueOf_beBytes {n x : Nat} (h : x < 256 ^ n) : valueOf (beBytes n x) = x := by
  induction n generalizing x with
  | zero => exact (Nat.lt_one_iff.mp h).symm
  | succ n ih =>
    have hdiv : x / 256 < 256 ^ n := Nat.div_lt_of_lt_mul (by rwa [← Nat.pow_succ'])
    rw [beBytes_succ, valueOf_concat, ih hdiv, BitVec.toNat_ofNat]
    exact Nat.div_add_mod x 256

/-- R279: with no byte to spare the first one is not zero. -/
theorem head?_beBytes_nbytesOf {x : Nat} (h : nbytesOf x ≠ 1) : (beBytes (nbytesOf x) x).head? ≠ some 0 := by
  obtain ⟨n, hn⟩ := Nat.exists_eq_add_of_lt (lt_of_le_of_ne (one_le_nbytesOf x) h.symm)
  have hlow : 256 ^ (n + 1) ≤ x := by
    by_contra hlt
    have := (nbytesOf_le_iff (by omega)).mpr (not_le.mp hlt)
    omega
  have hhigh : x < 256 ^ (n + 1) * 256 := by
    have := lt_pow_nbytesOf x
    rwa [hn, Nat.add_comm 1 n, pow_succ] at this
  have hfirst : (beBytes (nbytesOf x) x).head? = some (BitVec.ofNat 8 (x / 256 ^ (n + 1))) := by
    rw [hn, Nat.add_comm 1 n, beBytes, List.range_succ_eq_map, List.map_cons, List.head?_cons, show 256 = 2 ^ 8 by rfl,
      ← pow_mul]
    rfl
  have hpos : 0 < x / 256 ^ (n + 1) := Nat.div_pos hlow (by positivity)
  have hlt : x / 256 ^ (n + 1) < 256 := Nat.div_lt_of_lt_mul hhigh
  rw [hfirst, Ne, Option.some.injEq, ← BitVec.toNat_inj, BitVec.toNat_ofNat, Nat.mod_eq_of_lt hlt]
  exact hpos.ne'

/-! ### The operations -/

/-- R280, R281: an encoder completes with the encoding of its operand. -/
theorem completes_encoder {i : Instr} {f : Nat → List Byte}
    (hi : ∀ s, exec i s = portCommand dinLen noChecks (fun x => stringWords .le (f x)) s) {x : Nat} (hx : x < 2 ^ 64) :
    Completes i (lenWords x) (stringWords .le (f x)) :=
  completes_of_noChecks (result := fun x => stringWords .le (f x)) hi (dinLen_lenWords x hx)

/-- Settles O45: the digits are the fewest big-endian bytes, at least one, that hold `x`. -/
theorem leftAndRightEncode : Obligations.LeftAndRightEncode := by
  refine ⟨rfl, rfl, fun x hx => ⟨beBytes (nbytesOf x) x, ?_, ?_, valueOf_beBytes (lt_pow_nbytesOf x), ?_, ?_, ?_⟩⟩
  · rw [beBytes_length]
    exact one_le_nbytesOf x
  · rw [beBytes_length]
    exact (nbytesOf_le_iff (by decide)).mpr hx
  · rw [beBytes_length]
    exact or_iff_not_imp_left.mpr head?_beBytes_nbytesOf
  · rw [beBytes_length]
    exact completes_encoder (f := leftEncode) (fun _ => rfl) hx
  · rw [beBytes_length]
    exact completes_encoder (f := rightEncode) (fun _ => rfl) hx

/-- R194 (1), (2): a string of whole bytes within the limit passes the checks of a string operand. -/
theorem stringChecks_pass {params : Config.Params} {b : List Byte} (h : 8 * b.length ≤ params.maxTotalBits)
    (bw : List Word) : firstError (stringChecks params (operandOf (8 * b.length) bw)) = none := by
  simp [stringChecks, h]

/-- R282: ENCODE_STRING writes the encoded string. -/
theorem completesIf_encodeString {b : List Byte} {bw : List Word} (hb : Wire .le b bw) :
    CompletesIf (fun params => 8 * b.length ≤ params.maxTotalBits) .encodeString bw
      (stringWords .le (encodeString b)) := by
  have h := completesIf_of_checks (i := .encodeString)
    (result := fun x : WireString => stringWords .le (encodeString (x.bytes .le))) (fun _ => rfl)
    (dinString_of_wireBits (wireBits_of_wire hb)) fun _ hl => stringChecks_pass hl bw
  rwa [bytes_operandOf_of_wire hb] at h

/-- R283: BYTE_PAD with a width that is not zero writes the padded string. -/
theorem completesIf_bytePad {b : List Byte} {bw : List Word} (hb : Wire .le b bw) {w : Word} (hw : w ≠ 0) :
    CompletesIf (fun params => 8 * b.length ≤ params.maxTotalBits) .bytePad (w :: bw)
      (stringWords .le (bytePad b w.toNat)) := by
  have h := completesIf_of_checks (i := .bytePad) (x := (w, operandOf (8 * b.length) bw)) (ops := w :: bw)
    (checks := fun params x => stringChecks params x.2 ++ [(x.1 == 0, .operandRange)])
    (result := fun x : Word × WireString => stringWords .le (bytePad (x.2.bytes .le) x.1.toNat)) (fun _ => rfl)
    (fun rest => (Din.bind_some (dinWord_cons w _)).trans
      (Din.map_some (dinString_of_wireBits (wireBits_of_wire hb) rest)))
    fun _ hl => by rw [firstError_append, stringChecks_pass hl bw]; simpa using hw
  rwa [bytes_operandOf_of_wire hb] at h

/-- R283: the fill makes a multiple of the width, and no shorter one does. -/
theorem fill_least (n : Nat) {w : Nat} (hw : 0 < w) :
    (n + (w - n % w) % w) % w = 0 ∧ ∀ j, j < (w - n % w) % w → (n + j) % w ≠ 0 := by
  have hlt : n % w < w := Nat.mod_lt n hw
  rcases Nat.eq_zero_or_pos (n % w) with h | h
  · simp [h]
  · rw [Nat.mod_eq_of_lt (show w - n % w < w by omega)]
    constructor
    · rw [Nat.add_mod, Nat.mod_eq_of_lt (show w - n % w < w by omega), Nat.add_sub_cancel' hlt.le, Nat.mod_self]
    · intro j hj
      rw [Nat.add_mod, Nat.mod_eq_of_lt (show j < w by omega), Nat.mod_eq_of_lt (by omega)]
      omega

/-- Settles O46: the fill is the one `bytePad` writes. -/
theorem encodeStringAndBytePad : Obligations.EncodeStringAndBytePad := by
  intro b bw hb
  refine ⟨completesIf_encodeString hb, fun w hw => ?_⟩
  have hpos : 0 < w.toNat := by bv_omega
  obtain ⟨hmod, hleast⟩ := fill_least (leftEncode w.toNat ++ b).length hpos
  exact ⟨_, hmod, hleast, completesIf_bytePad hb hw⟩

end Sys2Proof.Machine
end

section
/-! PROOFS. Runs of cSHAKE (spec 45_sha3.md R285, R286, R290; 30_encoding.md R102): the context INIT leaves has absorbed
the padded strings, and where both are empty its digest is SHAKE's. -/

namespace Sys2Proof.Machine

open Sys2Proof.Claims

/-- R286: the context INIT of cSHAKE leaves: the padded strings absorbed, and the delimiter set. -/
def cshakeContext (v : Variant) (fn cust : List Byte) : Context :=
  { absorbPrefix (cshakeString v fn cust) (freshContext v 1) with
    delim := some (if fn = [] ∧ cust = [] then 0x1F else 0x04) }

theorem keyContext_of_cshake {v : Variant} (hv : isCshake v = true) (fn cust : List Byte) :
    keyContext v none fn cust (freshContext v 1) = cshakeContext v fn cust := by
  rw [keyContext, if_pos hv, cshakeInit_eq_absorbPrefix]
  rfl

theorem cshakeContext_absorbed (v : Variant) (fn cust : List Byte) :
    (cshakeContext v fn cust).Absorbed (cshakeString v fn cust) :=
  (freshContext_absorbed v 1).absorbPrefix rfl (cshakeString_mod v fn cust)

/-- R172, R276: the digest of one round of a SHA-3 context is the sponge's output over what it has absorbed. -/
theorem Context.Absorbed.digest_of_isSha3 {c : Context} {m : List Byte} (h : c.Absorbed m)
    (hv : c.variant.isSha3 = true) {d : Byte} (hd : c.delim = some d) (hr : c.numRounds = 1) (n : Nat) :
    Machine.digest c n = sha3Finalize zeroLanes m d (blockBits c.variant) n := by
  have hfinalize := h.finalize [] n d
  rw [List.append_nil, List.append_nil, newState_of_isSha3 hv] at hfinalize
  rw [digest_eq (fun _ => hd), hfinalize, hr]
  rfl

/-- R286: a limit that admits the strings and their padding admits INIT of cSHAKE. -/
theorem initOk_of_cshake {p : Config.Params} {v : Variant} (hv : isCshake v = true) {fn cust : Option (List Byte)}
    (hfn : 8 * (fn.getD []).length ≤ p.maxTotalBits) (hcust : 8 * (cust.getD []).length ≤ p.maxTotalBits)
    (hl : 8 * (cshakeString v (fn.getD []) (cust.getD [])).length ≤ p.maxTotalBits) :
    InitOk p v 1 none fn cust := by
  have hvariant : isKmac v = false ∧ v.takesStrings = true := by
    revert hv; cases v <;> decide
  obtain ⟨hkmac, htakes⟩ := hvariant
  exact
    { rounds := by decide
      mac := by simp
      kmac := by simp [hkmac]
      oneRound := fun _ => rfl
      strings := .inl htakes
      lengths := ⟨Nat.zero_le _, hfn, hcust⟩
      prefixed := (prefixBits_of_cshake hv _ _ _ _).trans_le hl }

/-- R285, R286: a run of cSHAKE writes the sponge's output over the padded strings and the data. -/
theorem runLines_cshake {s : State} (hs : Idle s) (hp : s.params.legal = true) {v : Variant}
    (hv : v ∈ [.cshake128, .cshake256]) {fn cust : Option (List Byte)} {data : List Byte} {n : Nat}
    (hfn : 8 * (fn.getD []).length ≤ s.params.maxTotalBits) (hcust : 8 * (cust.getD []).length ≤ s.params.maxTotalBits)
    (hl : 8 * (cshakeString v (fn.getD []) (cust.getD []) ++ data).length ≤ s.params.maxTotalBits)
    (haligned : n % 8 = 0) (hmax : n ≤ s.params.maxOutputBits) :
    (s.runLines [.init v 1 none fn cust, .update data, .getHash (some n)]).1 =
      [(0x00, []), (0x00, []), (0x00, stringWords .le
        (sha3Finalize zeroLanes (cshakeString v (fn.getD []) (cust.getD []) ++ data)
          (if fn.getD [] = [] ∧ cust.getD [] = [] then 0x1F else 0x04) (blockBits v) n))] := by
  have hvariant : isCshake v = true ∧ v.isSha3 = true ∧ outBits v = none ∧ orderOf v = .le := by
    revert hv; cases v <;> decide
  obtain ⟨hcshake, hsha3, hvarlen, horder⟩ := hvariant
  have hinit : InitOk s.params v 1 none fn cust :=
    initOk_of_cshake hcshake hfn hcust ((Nat.mul_le_mul_left 8 (List.prefix_append _ data).length_le).trans hl)
  have habsorbed := cshakeContext_absorbed v (fn.getD []) (cust.getD [])
  have hdigest := (habsorbed.absorbData data).digest_of_isSha3 hsha3 rfl rfl n
  have hresult := (hashResult_eq_ok rfl (.inr ⟨hvarlen, rfl, haligned, hmax⟩)).trans (congrArg _ hdigest)
  refine runLines_init_update_get hs hp hinit (keyContext_of_cshake hcshake _ _) rfl habsorbed hl ?_
  rw [← horder]
  exact State.perform_getHash (by rintro _ ⟨⟩; exact hmax.trans_lt (limits_lt hp).2) hresult _

/-- R276: a run of HASH with SHAKE writes the sponge's output over the data. -/
theorem runLines_pseudoHash_shake {s : State} (hs : Idle s) (hp : s.params.legal = true) {v : Variant}
    (hv : v ∈ [.shake128, .shake256]) {data : List Byte} {n : Nat} (hl : 8 * data.length ≤ s.params.maxTotalBits)
    (haligned : n % 8 = 0) (hmax : n ≤ s.params.maxOutputBits) :
    (s.runLines (pseudoHash v data (some n))).1 =
      [(0x00, []), (0x00, []), (0x00, stringWords .le (sha3Finalize zeroLanes data 0x1F (blockBits v) n))] := by
  have hvariant : v ∉ [.kmac128, .kmac256] ∧ v.isSha3 = true ∧ outBits v = none ∧ orderOf v = .le ∧
      initDelim v = some 0x1F := by
    revert hv; cases v <;> decide
  obtain ⟨hkmac, hsha3, hvarlen, horder, hdelim⟩ := hvariant
  have hdigest : digestOf v n data = sha3Finalize zeroLanes data 0x1F (blockBits v) n := by
    rw [digestOf, newState_of_isSha3 hsha3, hdelim]
    rfl
  have hrun := hashRun s v 1 data (some n) n hs hp hkmac (by decide) (fun _ => rfl) hl
    (.inr ⟨hvarlen, rfl, haligned, hmax⟩) (by rintro _ ⟨⟩; exact hmax.trans_lt (limits_lt hp).2)
  rwa [horder, show (1 : Word).toNat = 1 by rfl, Function.iterate_one, hdigest] at hrun

/-- R30: SHAKE at the strength of a cSHAKE has its rate. -/
theorem shakeOf_mem {v : Variant} (hv : v ∈ [.cshake128, .cshake256]) :
    (if v = .cshake128 then .shake128 else .shake256) ∈ [Variant.shake128, .shake256] ∧
      blockBits (if v = .cshake128 then .shake128 else .shake256) = blockBits v := by
  revert hv; cases v <;> decide

/-- Settles O33: where both strings are empty nothing stands before the data, and the run is SHAKE's. -/
theorem cshakeRun : Obligations.CshakeRun := by
  intro s v fn cust data n hs hp hv rate empty x hfn hcust hl haligned hmax
  have hrun := runLines_cshake hs hp hv hfn hcust hl haligned hmax
  refine ⟨hrun, fun hempty => hrun.trans ?_⟩
  have hx : cshakeString v (fn.getD []) (cust.getD []) = [] := if_pos hempty
  have hdata : 8 * data.length ≤ s.params.maxTotalBits := by
    have hx : x = [] := hx
    rwa [hx, List.nil_append] at hl
  obtain ⟨hshake, hblock⟩ := shakeOf_mem hv
  rw [runLines_pseudoHash_shake hs hp hshake hdata haligned hmax, hblock, hx, List.nil_append, if_pos hempty]

end Sys2Proof.Machine
end

section
/-! PROOFS. Exceptions (spec 60_exceptions.md): every step answers a next state (R308), what an error changes (R305), and
what poisons a context and what a poisoned context does (R306). -/

namespace Sys2Proof

/-! ### The class of a command by its opcode -/

/-- R92, R305: the class of a command is read from its opcode. -/
theorem Instr.commandClass_eq_context_iff (i : Instr) :
    i.commandClass = .context ↔ 1 ≤ i.fields.opc.toNat ∧ i.fields.opc.toNat ≤ 6 := by
  have hclass : CommandClass.ofOpcode i.fields.opc = i.commandClass := by cases i <;> rfl
  rw [← hclass, CommandClass.ofOpcode]
  split
  · next hopc => exact iff_of_true rfl hopc
  · next hopc => exact iff_of_false (by simp) hopc

/-- R92: no command but INIT has the opcode 1. -/
theorem Instr.opc_ne_one {i : Instr} (h : ∀ v p f c, i ≠ .init v p f c) : i.fields.opc.toNat ≠ 1 := by
  cases i with
  | init v p f c => exact absurd rfl (h v p f c)
  | _ => simp [Instr.fields, Fields.bare]

/-- R90, R91: the opcode of a legal word is that of its command. -/
theorem opc_of_decode {w : Word} {i : Instr} (h : decode w = .instr i) : i.fields.opc.toNat = w.toNat / 2 ^ 24 := by
  obtain ⟨-, hfields⟩ := wellFormed_and_fields_eq h
  have hw := w.isLt
  rw [hfields, Fields.ofWord, toNat_extractLsb', Nat.mod_eq_of_lt (by omega)]

end Sys2Proof

namespace Sys2Proof.Machine

/-! ### Every step answers -/

/-- Settles O7: an idle engine, one that rejects a word and one that runs a command each answer a next state. -/
theorem everyStepAnswersNext : Obligations.EveryStepAnswersNext := by
  intro s
  cases hcmd : s.cmd with
  | nil => exact ⟨s, step_of_cmd_nil hcmd⟩
  | cons w rest =>
    cases hw : decode w with
    | illegal r => exact ⟨_, step_of_illegal hcmd hw⟩
    | instr i => exact step_of_instr hcmd hw ▸ exec_next i s

/-! ### What an error changes -/

/-- R303: no other error has the code of `ILLEGAL_COMMAND`. -/
theorem Error.code_ne_illegalCommand {e : Error} (h : e ≠ .illegalCommand) : e.code ≠ 0x40 := by
  revert h; cases e <;> decide

/-- R305: an error of the test port sets `STATUS` alone. -/
theorem State.raise_testPort (e : Error) (s : State) : State.raise .testPort e s = { s with status := e.code } := by
  simp [State.raise]

/-- R305: an error of a context command after decode poisons and sets `STATUS`. -/
theorem State.raise_context {e : Error} (he : e ≠ .illegalCommand) (s : State) :
    State.raise .context e s = { s with poisoned := true, status := e.code } := by
  simp [State.raise, he]

/-- R305: what a command's error changes, by the opcode; it is not `ILLEGAL_COMMAND`, which is decode's. -/
theorem exec_error_frame {i : Instr} {s t : State} (h : exec i s = .next t) (ht : t ≠ s) (hstatus : t.status ≠ 0x00) :
    t.status ≠ 0x40 ∧ t = { s with
      cmd := t.cmd
      din := t.din
      status := t.status
      poisoned := s.poisoned || decide (1 ≤ i.fields.opc.toNat ∧ i.fields.opc.toNat ≤ 6)
      bound := s.bound && !decide (i.fields.opc.toNat = 1) } := by
  simp only [← i.commandClass_eq_context_iff]
  obtain ⟨rfl, -⟩ | ⟨ops, rest, -, h⟩ := exec_effect h
  · exact absurd rfl ht
  · obtain ⟨hi, e, he, rfl, -⟩ | ⟨-, _, rfl, -⟩ | ⟨hi, hn, e, -, he, rfl, -⟩ | ⟨-, -, _, _, _, -, -, rfl, -⟩ |
      ⟨v, p, f, c, rfl, e, -, he, rfl, -⟩ | ⟨_, _, _, _, _, -, rfl, -⟩ := h
    · have hillegal : e ≠ .illegalCommand := by rintro rfl; revert he; decide
      have hn : ∀ v p f c, i ≠ .init v p f c := by rintro v p f c rfl; cases hi
      exact ⟨Error.code_ne_illegalCommand hillegal,
        by simp [State.raise_testPort, State.take, hi, Instr.opc_ne_one hn]⟩
    · exact absurd rfl hstatus
    · exact ⟨Error.code_ne_illegalCommand he, by simp [State.raise_context he, State.take, hi, Instr.opc_ne_one hn]⟩
    · exact absurd rfl hstatus
    · exact ⟨Error.code_ne_illegalCommand he,
        by simp [State.raise_context he, State.take, Instr.commandClass, Instr.fields, Fields.bare]⟩
    · exact absurd rfl hstatus

/-- Settles O13: an illegal word sets `STATUS` and takes no operand, and a command's error has the frame its opcode gives. -/
theorem raisingChangesNothingElse : Obligations.RaisingChangesNothingElse := by
  intro s t w h hcmd hstatus
  obtain ⟨hnil, -⟩ | ⟨w', rest, r, hw, hdecode, rfl⟩ | ⟨w', rest, i, hw, hdecode, hexec⟩ := step_cases h
  · simp [hnil] at hcmd
  · simp [State.rejectCommand_eq]
  · obtain ⟨rfl, -⟩ := List.cons.inj (hw.symm.trans hcmd)
    obtain ⟨hlegal, hframe⟩ := exec_error_frame hexec (State.ne_of_cmd_eq_cons hcmd) hstatus
    refine ⟨?_, fun hillegal => absurd hillegal hlegal⟩
    simpa only [opc_of_decode hdecode, ne_eq, hlegal, not_false_eq_true, and_true] using hframe

/-! ### Poisoning -/

/-- R305, R306: a context command that took its words and raised an error leaves the context poisoned. -/
theorem exec_context_poisons {i : Instr} (hi : i.commandClass = .context) {s t : State} (h : exec i s = .next t)
    (ht : t ≠ s) (hstatus : t.status ≠ 0x00) : t.poisoned = true := by
  obtain ⟨-, hframe⟩ := exec_error_frame h ht hstatus
  have hpoisoned := congrArg State.poisoned hframe
  simpa [i.commandClass_eq_context_iff.mp hi] using hpoisoned

/-- R179, R306: a context command other than INIT that took its words in a poisoned context raised `CONTEXT_POISONED`. -/
theorem exec_context_of_poisoned {i : Instr} (hi : i.commandClass = .context) (hn : ∀ v p f c, i ≠ .init v p f c)
    {s t : State} (h : exec i s = .next t) (ht : t ≠ s) (hp : s.poisoned = true) : t.status = 0x42 := by
  have hentry : s.entry = .error .contextPoisoned := by simp [State.entry, hp]
  obtain ⟨rfl, -⟩ | ⟨ops, rest, -, h⟩ := exec_effect h
  · exact absurd rfl ht
  · obtain ⟨hport, -⟩ | ⟨hport, -⟩ | ⟨-, -, e, -, -, rfl, he, -⟩ | ⟨-, -, c, _, _, hc, -⟩ |
      ⟨v, p, f, c, hinit, -⟩ | ⟨v, p, f, c, _, hinit, -⟩ := h
    · rw [hi] at hport; cases hport
    · rw [hi] at hport; cases hport
    · obtain rfl := he _ hentry; rfl
    · rw [hentry] at hc; cases hc
    · exact absurd hinit (hn v p f c)
    · exact absurd hinit (hn v p f c)

/-- R109, R194, R306: a test-port operation writes no register of the context, and does the same whatever they hold. -/
theorem exec_testPort_context_independent {i : Instr} (hi : i.commandClass = .testPort) {s t : State}
    (h : exec i s = .next t) :
    t.bound = s.bound ∧ t.poisoned = s.poisoned ∧ t.ctx = s.ctx ∧
    ∀ (b p : Bool) (c : Option Context), exec i { s with bound := b, poisoned := p, ctx := c } =
      .next { t with bound := b, poisoned := p, ctx := c } := by
  obtain ⟨rfl, hwait⟩ | ⟨ops, rest, hdin, h⟩ := exec_effect h
  · exact ⟨rfl, rfl, rfl, fun b p c => hwait _ rfl⟩
  · obtain ⟨-, e, -, rfl, hrun⟩ | ⟨-, out, rfl, hrun⟩ | ⟨hcontext, -⟩ | ⟨hcontext, -⟩ | ⟨_, _, _, _, rfl, -⟩ |
      ⟨_, _, _, _, _, rfl, -⟩ := h
    · simp only [State.raise_testPort] at hrun ⊢
      exact ⟨rfl, rfl, rfl, fun b p c => hrun { s with bound := b, poisoned := p, ctx := c } rfl rest hdin⟩
    · exact ⟨rfl, rfl, rfl, fun b p c => hrun { s with bound := b, poisoned := p, ctx := c } rfl rest hdin⟩
    · rw [hi] at hcontext; cases hcontext
    · rw [hi] at hcontext; cases hcontext
    · cases hi
    · cases hi

/-- Settles O12, clause by clause. -/
theorem errorsPoison : Obligations.ErrorsPoison := by
  refine ⟨fun s t w i hi h hcmd hstatus => ?_, fun s w rest r hcmd hw => ?_, fun s t w i hi hn h hcmd => ?_,
    fun s t w v p f c h hcmd hstatus => ?_, fun s t i hi h => ?_⟩
  · exact exec_context_poisons hi h (State.ne_of_cmd_eq_cons hcmd) hstatus
  · exact ⟨_, step_of_illegal hcmd hw, rfl⟩
  · exact exec_context_of_poisoned hi hn h (State.ne_of_cmd_eq_cons hcmd)
  · obtain ⟨-, hpoisoned⟩ := exec_init_flags h (State.ne_of_cmd_eq_cons hcmd)
    simpa [hstatus] using hpoisoned
  · exact exec_testPort_context_independent hi h

end Sys2Proof.Machine
end
